-- ==== Sys2Proof/Word.lean ====
section
/-! DEFINITION. The byte and the 32-bit host word (20_memory.md R70, R74; 10_state.md R45). -/

namespace Sys2Proof

/-- A byte of the input or output space. -/
abbrev Byte := BitVec 8

/-- A 32-bit host register. -/
abbrev Word := BitVec 32

end Sys2Proof
end

