-- ==== Sys2Proof/Config.lean ====
section
/-! DEFINITION. The implementation parameters of 00_scope.md R6 to R14, and the free values the spec leaves open. -/

namespace Sys2Proof.Config

/-- 00_scope.md R6: code lengths are in `0..15`. -/
def maxCodeLen : Nat := 15

/-- 00_scope.md R9: one cursor read moves at most 32 bits. -/
def readBitsMax : Nat := 32

/-- 00_scope.md R10. -/
def adlerMod : Nat := 65521

/-- 00_scope.md R11, at the default the spec decides on (92_eei_decisions.md D6; log 22). -/
def maxCinfo : Nat := 7

/-- 00_scope.md R12. -/
def supportedCm : Nat := 8

/-- How many input bytes the fetch unit looks at. The longest instruction is DYN_HDR, 14 + 57 bits, and it starts at
most 7 bits into a byte, so 10 bytes hold it (70_reset_and_hazards.md R411 allows looking ahead; log 14). -/
def windowBytes : Nat := 10

/-- The size of the host register window, a platform parameter the spec leaves OPEN (10_state.md R54,
92_eei_decisions.md D2; log 12). No body: nothing may rest on its value. -/
opaque coreSize : Nat

/-- The word a host read returns where the spec says "any value" (10_state.md R50, 70_reset_and_hazards.md R406;
log 5), applied to the counter `State.freeReads`. No body. -/
opaque freeWord : Nat → Word

/-- The byte a host read of OUT returns where the spec says "any value" (20_memory.md R95, 70_reset_and_hazards.md
R406, 93_implementation_defined.md I8; log 5), applied to the counter `State.freeReads`. No body. -/
opaque freeByte : Nat → Byte

end Sys2Proof.Config
end

