-- ==== Sys2Proof/Syntax.lean ====
section
/-! DEFINITION. What the core's program is made of: the canonical Huffman table as data, the instructions (one
constructor per row of opcode_table.json), the decoding contexts, and what a decoder can answer. -/

namespace Sys2Proof

/-- A symbol of a table's sequence `P`: its value in 11 bits and its code length in 4 bits (00_scope.md R7; 10_state.md
R34). -/
structure Sym where
  value : BitVec 11
  length : BitVec 4
  deriving DecidableEq, Repr

/-- A canonical Huffman table (10_state.md R34). `syms` is `P`; `count`, `start`, `stop` (the spec's `end`) and
`offset` hold one entry per code length 0..15. -/
structure Table where
  syms : List Sym
  count : List Nat
  start : List Nat
  stop : List Nat
  offset : List Nat
  lmax : Nat
  deriving DecidableEq, Repr

/-- The instructions: one constructor per row of opcode_table.json, with its operand fields as they stand in the
stream (30_encoding.md R101 to R110). -/
inductive Instr where
  /-- Envelope header (R101, R341). -/
  | env (cmf flg : Byte)
  /-- Block header, BTYPE 0 (R102, R222). -/
  | blkStored (bfinal : Bool)
  /-- Block header, BTYPE 1 (R102, R223). -/
  | blkFixed (bfinal : Bool)
  /-- Block header, BTYPE 2 (R102, R224). -/
  | blkDynamic (bfinal : Bool)
  /-- Block header, BTYPE 3 (R102, R225). -/
  | blkReserved (bfinal : Bool)
  /-- Stored block: the fields LEN and NLEN; the DATA bytes stay in the input and are copied by its meaning (R103, R226). -/
  | stored (len nlen : BitVec 16)
  /-- Dynamic header: the fields HLIT, HDIST, HCLEN and the CLLENS in stream order (R104, R190). -/
  | dynHdr (hlit hdist : BitVec 5) (hclen : BitVec 4) (cllens : List (BitVec 3))
  /-- Code-length symbols 0..15 (R105, R195). -/
  | clLen (len : BitVec 4)
  /-- Code-length symbol 16 and its extra field (R105, R196). -/
  | clRep (x : BitVec 2)
  /-- Code-length symbol 17 and its extra field (R105, R197). -/
  | clZero3 (x : BitVec 3)
  /-- Code-length symbol 18 and its extra field (R105, R198). -/
  | clZero11 (x : BitVec 7)
  /-- Literal/length symbols 0..255 (R106, R231). -/
  | lit (v : Byte)
  /-- Literal/length symbol 256 (R106, R232). -/
  | eob
  /-- Literal/length symbol 257 (R240). -/
  | len257
  /-- Literal/length symbol 258 (R241). -/
  | len258
  /-- Literal/length symbol 259 (R242). -/
  | len259
  /-- Literal/length symbol 260 (R243). -/
  | len260
  /-- Literal/length symbol 261 (R244). -/
  | len261
  /-- Literal/length symbol 262 (R245). -/
  | len262
  /-- Literal/length symbol 263 (R246). -/
  | len263
  /-- Literal/length symbol 264 (R247). -/
  | len264
  /-- Literal/length symbol 265 (R248). -/
  | len265 (x : BitVec 1)
  /-- Literal/length symbol 266 (R249). -/
  | len266 (x : BitVec 1)
  /-- Literal/length symbol 267 (R250). -/
  | len267 (x : BitVec 1)
  /-- Literal/length symbol 268 (R251). -/
  | len268 (x : BitVec 1)
  /-- Literal/length symbol 269 (R252). -/
  | len269 (x : BitVec 2)
  /-- Literal/length symbol 270 (R253). -/
  | len270 (x : BitVec 2)
  /-- Literal/length symbol 271 (R254). -/
  | len271 (x : BitVec 2)
  /-- Literal/length symbol 272 (R255). -/
  | len272 (x : BitVec 2)
  /-- Literal/length symbol 273 (R256). -/
  | len273 (x : BitVec 3)
  /-- Literal/length symbol 274 (R257). -/
  | len274 (x : BitVec 3)
  /-- Literal/length symbol 275 (R258). -/
  | len275 (x : BitVec 3)
  /-- Literal/length symbol 276 (R259). -/
  | len276 (x : BitVec 3)
  /-- Literal/length symbol 277 (R260). -/
  | len277 (x : BitVec 4)
  /-- Literal/length symbol 278 (R261). -/
  | len278 (x : BitVec 4)
  /-- Literal/length symbol 279 (R262). -/
  | len279 (x : BitVec 4)
  /-- Literal/length symbol 280 (R263). -/
  | len280 (x : BitVec 4)
  /-- Literal/length symbol 281 (R264). -/
  | len281 (x : BitVec 5)
  /-- Literal/length symbol 282 (R265). -/
  | len282 (x : BitVec 5)
  /-- Literal/length symbol 283 (R266). -/
  | len283 (x : BitVec 5)
  /-- Literal/length symbol 284 (R267). -/
  | len284 (x : BitVec 5)
  /-- Literal/length symbol 285 (R268). -/
  | len285
  /-- Literal/length symbol 286 (R237). -/
  | len286
  /-- Literal/length symbol 287 (R238). -/
  | len287
  /-- Distance symbol 0 (R270). -/
  | dist0
  /-- Distance symbol 1 (R271). -/
  | dist1
  /-- Distance symbol 2 (R272). -/
  | dist2
  /-- Distance symbol 3 (R273). -/
  | dist3
  /-- Distance symbol 4 (R274). -/
  | dist4 (y : BitVec 1)
  /-- Distance symbol 5 (R275). -/
  | dist5 (y : BitVec 1)
  /-- Distance symbol 6 (R276). -/
  | dist6 (y : BitVec 2)
  /-- Distance symbol 7 (R277). -/
  | dist7 (y : BitVec 2)
  /-- Distance symbol 8 (R278). -/
  | dist8 (y : BitVec 3)
  /-- Distance symbol 9 (R279). -/
  | dist9 (y : BitVec 3)
  /-- Distance symbol 10 (R280). -/
  | dist10 (y : BitVec 4)
  /-- Distance symbol 11 (R281). -/
  | dist11 (y : BitVec 4)
  /-- Distance symbol 12 (R282). -/
  | dist12 (y : BitVec 5)
  /-- Distance symbol 13 (R283). -/
  | dist13 (y : BitVec 5)
  /-- Distance symbol 14 (R284). -/
  | dist14 (y : BitVec 6)
  /-- Distance symbol 15 (R285). -/
  | dist15 (y : BitVec 6)
  /-- Distance symbol 16 (R286). -/
  | dist16 (y : BitVec 7)
  /-- Distance symbol 17 (R287). -/
  | dist17 (y : BitVec 7)
  /-- Distance symbol 18 (R288). -/
  | dist18 (y : BitVec 8)
  /-- Distance symbol 19 (R289). -/
  | dist19 (y : BitVec 8)
  /-- Distance symbol 20 (R290). -/
  | dist20 (y : BitVec 9)
  /-- Distance symbol 21 (R291). -/
  | dist21 (y : BitVec 9)
  /-- Distance symbol 22 (R292). -/
  | dist22 (y : BitVec 10)
  /-- Distance symbol 23 (R293). -/
  | dist23 (y : BitVec 10)
  /-- Distance symbol 24 (R294). -/
  | dist24 (y : BitVec 11)
  /-- Distance symbol 25 (R295). -/
  | dist25 (y : BitVec 11)
  /-- Distance symbol 26 (R296). -/
  | dist26 (y : BitVec 12)
  /-- Distance symbol 27 (R297). -/
  | dist27 (y : BitVec 12)
  /-- Distance symbol 28 (R298). -/
  | dist28 (y : BitVec 13)
  /-- Distance symbol 29 (R299). -/
  | dist29 (y : BitVec 13)
  /-- Distance symbol 30 (R300). -/
  | dist30
  /-- Distance symbol 31 (R301). -/
  | dist31
  /-- Trailer: the 32-bit big-endian value (R107, R349). -/
  | trailer (value : Word)
  deriving DecidableEq, Repr

/-- The element class to decode next, with the table that is active for it (30_encoding.md R110). `fsm` selects it,
never the stream bits. For a code-length symbol `first` says that no length has been filled yet (42_dynamic_table.md
R199: symbol 16 then has no extra field). -/
inductive Ctx where
  | env
  | blkHdr
  | stored
  | dynHdr
  | clSym (t : Table) (first : Bool)
  | litLen (t : Table)
  | dist (t : Table)
  | trailer
  deriving DecidableEq, Repr

/-- Why no instruction could be read. -/
inductive Stop where
  /-- a read needs bits past the end of the bytes (40_bit_cursor.md R141) -/
  | truncated
  /-- the bits read are no code of the table (41_huffman_table.md R167, R169) -/
  | noMatchingCode
  /-- a symbol its alphabet does not define (42_dynamic_table.md R202; 43_block_decoder.md R237, "any other value") -/
  | undefinedSymbol
  /-- a cursor read of more than 32 bits was requested (40_bit_cursor.md R147); no instruction requests one -/
  | tooWide (n : Nat)
  deriving DecidableEq, Repr

/-- The registers that the completed reads of an instruction have already written when a later read of it stops
(60_exceptions.md R372: the check that raises has no effect, the reads before it have theirs; log 18). -/
inductive Part where
  | nothing
  /-- BFINAL has been read, BTYPE has not (43_block_decoder.md R221). -/
  | blk (bfinal : Bool)
  /-- LEN has been read, NLEN has not (43_block_decoder.md R226). -/
  | slen (len : BitVec 16)
  /-- HLIT has been read (42_dynamic_table.md R191). -/
  | hlit (hlit : BitVec 5)
  /-- HLIT and HDIST have been read. -/
  | hdist (hlit hdist : BitVec 5)
  /-- HLIT, HDIST, HCLEN and the listed CLLENS have been read (42_dynamic_table.md R192). -/
  | cllens (hlit hdist : BitVec 5) (hclen : BitVec 4) (cllens : List (BitVec 3))
  /-- Some trailer bytes have been read, and `adler_read` holds this (45_envelope_checksum.md R349). -/
  | adler (value : Word)
  deriving DecidableEq, Repr

/-- What decoding answers: an instruction and the bit position after it, or why there is none, with the position and
the registers of the reads that completed. Positions count from the first bit of the first byte given. -/
inductive Decoded where
  | instr (i : Instr) (pos : Nat)
  | stop (why : Stop) (part : Part) (pos : Nat)
  deriving DecidableEq, Repr

end Sys2Proof
end

