-- ==== Sys2Proof/Machine/Cursor.lean ====
section
/-! DEFINITION. The bit cursor and barrel shifter (40_bit_cursor.md) over a list of bytes, and the bit orders of
20_memory.md R79 to R83. -/

namespace Sys2Proof

/-- The bit cursor: the bytes in view and the count of bits consumed from their start (40_bit_cursor.md R140). -/
structure Cursor where
  bytes : List Byte
  pos : Nat
  deriving DecidableEq, Repr

/-- Stream bit `k` is bit `k mod 8` of byte `k div 8` (00_scope.md R18). -/
def streamBit (bytes : List Byte) (k : Nat) : Bool :=
  (bytes.getD (k / 8) 0).getLsbD (k % 8)

/-- The `n`-bit field at bit `p`, least significant bit first (20_memory.md R79). -/
def fieldNat (bytes : List Byte) (p : Nat) : Nat → Nat
  | 0 => 0
  | n + 1 => fieldNat bytes p n + if streamBit bytes (p + n) then 2 ^ n else 0

/-- `read_bits(n)` (40_bit_cursor.md R141, R142; R147 for a request over 32 bits). -/
def Cursor.readBits (n : Nat) (c : Cursor) : Except Stop (BitVec n × Cursor) :=
  if Config.readBitsMax < n then .error (.tooWide n)
  else if 8 * c.bytes.length < c.pos + n then .error .truncated
  else .ok (BitVec.ofNat n (fieldNat c.bytes c.pos n), { c with pos := c.pos + n })

/-- `read_bit()` is `read_bits(1)` (40_bit_cursor.md R143). -/
def Cursor.readBit (c : Cursor) : Except Stop (BitVec 1 × Cursor) := c.readBits 1

/-- The first byte boundary at or after bit `p`. -/
def alignUp (p : Nat) : Nat :=
  if p % 8 = 0 then p else p + (8 - p % 8)

/-- `align_to_byte()` (40_bit_cursor.md R144). -/
def Cursor.align (c : Cursor) : Cursor := { c with pos := alignUp c.pos }

/-- `remaining_bytes()` (40_bit_cursor.md R145). -/
def Cursor.remainingBytes (c : Cursor) : Nat := c.bytes.length - c.pos / 8

/-- The barrel-shifter form of a field read: five consecutive bytes as one little-endian number, shifted right by the
bit offset, cut to `n` bits (40_bit_cursor.md R146). Bytes past the end read as 0. -/
def barrelShift (bytes : List Byte) (p n : Nat) : Nat :=
  let byteAt (k : Nat) : Nat := (bytes.getD (p / 8 + k) 0).toNat <<< (8 * k)
  ((byteAt 0 + byteAt 1 + byteAt 2 + byteAt 3 + byteAt 4) >>> (p % 8)) % 2 ^ n

/-- The bits of a fixed-width field in stream order, least significant first (20_memory.md R79). -/
def bitsLsb {n : Nat} (v : BitVec n) : List Bool := (List.range n).map v.getLsbD

/-- The bits of an `len`-bit code in stream order, most significant first (20_memory.md R80). -/
def bitsMsb (len code : Nat) : List Bool := (List.range len).map fun j => code.testBit (len - 1 - j)

/-- Some bytes as one number, the first byte most significant (20_memory.md R82, R83). -/
def bigEndian (bs : List Byte) : Nat := bs.foldl (fun acc b => acc * 256 + b.toNat) 0

/-- The stream bits from `off` on are `bits`. -/
def BitsAt (bytes : List Byte) (off : Nat) (bits : List Bool) : Prop :=
  off + bits.length ≤ 8 * bytes.length ∧ ∀ k (h : k < bits.length), streamBit bytes (off + k) = bits[k]

/-- A byte from its bits, bit 0 first; missing bits are 0. -/
def byteOfBits (bs : List Bool) : Byte :=
  BitVec.ofNat 8 ((List.range 8).foldl (fun acc k => acc + if bs.getD k false then 2 ^ k else 0) 0)

/-- `n` bytes holding the bits `bs` in stream order (00_scope.md R18), zero bits after them. -/
def packBytes : Nat → List Bool → List Byte
  | 0, _ => []
  | n + 1, bs => byteOfBits (bs.take 8) :: packBytes n (bs.drop 8)

end Sys2Proof
end

