-- ==== Sys2Proof/Machine/Huffman.lean ====
section
/-! DEFINITION. The canonical Huffman table: `build`, `decode`, the code of a symbol, and the fixed tables
(41_huffman_table.md). A length set is given as the list of the code lengths of the values 0, 1, 2, …: every `build`
of the spec is of that form. -/

namespace Sys2Proof

/-- The symbol of a value and a code length, in their fields (00_scope.md R7, 10_state.md R34). -/
def Sym.of (value length : Nat) : Sym := ⟨BitVec.ofNat 11 value, BitVec.ofNat 4 length⟩

/-- The symbols of code length `len`, value ascending, where the next value is `v`. -/
def symsOfLength (len : Nat) : Nat → List Nat → List Sym
  | _, [] => []
  | v, l :: ls => if l == len then Sym.of v len :: symsOfLength len (v + 1) ls else symsOfLength len (v + 1) ls

/-- The present symbols sorted by `(code_length, value)` (41_huffman_table.md R160). -/
def presentSyms (lens : List Nat) : List Sym :=
  (List.range' 1 Config.maxCodeLen).flatMap fun len => symsOfLength len 0 lens

/-- `count[L]` (41_huffman_table.md R161); `count[0] = 0`. -/
def countOf (lens : List Nat) (len : Nat) : Nat :=
  if len == 0 then 0 else lens.countP (· == len)

/-- `offset[L]` (41_huffman_table.md R161). -/
def offsetOf (lens : List Nat) : Nat → Nat
  | 0 => 0
  | len + 1 => offsetOf lens len + countOf lens len

/-- `start[L]` (41_huffman_table.md R162). -/
def startOf (lens : List Nat) : Nat → Nat
  | 0 => 0
  | len + 1 => (startOf lens len + countOf lens len) <<< 1

/-- `end[L]` (41_huffman_table.md R162); `end[0] = 0`. -/
def stopOf (lens : List Nat) (len : Nat) : Nat := startOf lens len + countOf lens len

/-- The greatest length up to `len` that has a symbol, or 0 (41_huffman_table.md R161). -/
def lmaxOf (lens : List Nat) : Nat → Nat
  | 0 => 0
  | len + 1 => if countOf lens (len + 1) == 0 then lmaxOf lens len else len + 1

/-- The table of a length set, before validation (41_huffman_table.md R160 to R162). -/
def Table.ofLens (lens : List Nat) : Table where
  syms := presentSyms lens
  count := (List.range 16).map (countOf lens)
  start := (List.range 16).map (startOf lens)
  stop := (List.range 16).map (stopOf lens)
  offset := (List.range 16).map (offsetOf lens)
  lmax := lmaxOf lens Config.maxCodeLen

/-- The validation of `build`: every populated range fits its bit length (41_huffman_table.md R163). -/
def lensFit (lens : List Nat) : Bool :=
  (List.range' 1 Config.maxCodeLen).all fun len =>
    countOf lens len == 0 || decide (stopOf lens len - 1 < 2 ^ len)

/-- `build(S)`; `none` is `InvalidTable` (41_huffman_table.md R160 to R164). -/
def Table.build (lens : List Nat) : Option Table :=
  if lensFit lens then some (Table.ofLens lens) else none

/-- `count[L]`, 0 outside the entries. -/
def Table.countAt (t : Table) (len : Nat) : Nat := t.count.getD len 0

/-- `start[L]`, 0 outside the entries. -/
def Table.startAt (t : Table) (len : Nat) : Nat := t.start.getD len 0

/-- `end[L]`, 0 outside the entries. -/
def Table.stopAt (t : Table) (len : Nat) : Nat := t.stop.getD len 0

/-- `offset[L]`, 0 outside the entries. -/
def Table.offsetAt (t : Table) (len : Nat) : Nat := t.offset.getD len 0

/-- The range test of `decode`: the `len`-bit number `acc` is a code of length `len` (41_huffman_table.md R166). -/
def Table.inRange (t : Table) (len acc : Nat) : Bool :=
  decide (0 < t.countAt len) && decide (t.startAt len ≤ acc) && decide (acc < t.stopAt len)

/-- What decoding one symbol answers. -/
inductive Decoding where
  | sym (value : Nat) (c : Cursor)
  | stop (why : Stop) (c : Cursor)
  deriving DecidableEq, Repr

/-- The loop of `decode` (41_huffman_table.md R166): `fuel` more lengths may be tried, `len` is the next one and `acc`
holds the bits read so far. A table whose symbols do not cover its ranges is none that `build` makes. -/
def Table.decodeLoop (t : Table) : Nat → Nat → Nat → Cursor → Decoding
  | 0, _, _, c => .stop .noMatchingCode c
  | fuel + 1, len, acc, c =>
    match c.readBit with
    | .error why => .stop why c
    | .ok (b, c') =>
      let acc' := (acc <<< 1) + b.toNat
      if t.inRange len acc' then
        match t.syms[t.offsetAt len + (acc' - t.startAt len)]? with
        | some s => .sym s.value.toNat c'
        | none => .stop .noMatchingCode c'
      else t.decodeLoop fuel (len + 1) acc' c'

/-- `decode(T)` (41_huffman_table.md R166 to R169). With `lmax = 0` it stops at once, reading no bit. -/
def Table.decode (t : Table) (c : Cursor) : Decoding := t.decodeLoop t.lmax 1 0 c

/-- Where value `v` stands in the symbol sequence, counting from `k`, and its length. -/
def findSym (v : Nat) : Nat → List Sym → Option (Nat × Nat)
  | _, [] => none
  | k, s :: ss => if s.value.toNat == v then some (k, s.length.toNat) else findSym v (k + 1) ss

/-- The length and the code of value `v`, if it is present (41_huffman_table.md R165). -/
def Table.codeOf (t : Table) (v : Nat) : Option (Nat × Nat) :=
  (findSym v 0 t.syms).map fun (k, len) => (len, t.startAt len + (k - t.offsetAt len))

/-- The code bits of value `v` in stream order (20_memory.md R80); empty if it has none. -/
def Table.codeBits (t : Table) (v : Nat) : List Bool :=
  match t.codeOf v with
  | some (len, code) => bitsMsb len code
  | none => []

/-- The fixed literal/length code lengths (41_huffman_table.md R175). -/
def fixedLitLens : List Nat :=
  List.replicate 144 8 ++ List.replicate 112 9 ++ List.replicate 24 7 ++ List.replicate 8 8

/-- The fixed distance code lengths (41_huffman_table.md R177). -/
def fixedDistLens : List Nat := List.replicate 32 5

/-- `FIXED_LIT` (41_huffman_table.md R175, R180). -/
def Table.fixedLit : Table := Table.ofLens fixedLitLens

/-- `FIXED_DIST` (41_huffman_table.md R177, R180). -/
def Table.fixedDist : Table := Table.ofLens fixedDistLens

end Sys2Proof
end

