-- ==== Sys2Proof/Machine/Operands.lean ====
section
/-! DEFINITION. Operand assembly (30_encoding.md R108) and the constant tables of 20_memory.md R78, with the one view of
an instruction as its encoded fields (`Instr.shape`). -/

namespace Sys2Proof

/-- The order in which the code-length code lengths stand in the stream (42_dynamic_table.md R192). -/
def perm : List Nat := [16, 17, 18, 0, 8, 7, 9, 6, 10, 5, 11, 4, 12, 3, 13, 2, 14, 1, 15]

/-- `LEN_TAB`: base length and extra-bit count of the length symbols 257 .. 285 (43_block_decoder.md R240 to R268). -/
def lenTab : List (Nat × Nat) :=
  [(3, 0), (4, 0), (5, 0), (6, 0), (7, 0), (8, 0), (9, 0), (10, 0), (11, 1), (13, 1)] ++
  [(15, 1), (17, 1), (19, 2), (23, 2), (27, 2), (31, 2), (35, 3), (43, 3), (51, 3), (59, 3)] ++
  [(67, 4), (83, 4), (99, 4), (115, 4), (131, 5), (163, 5), (195, 5), (227, 5), (258, 0)]

/-- `DIST_TAB`: base distance and extra-bit count of the distance symbols 0 .. 29 (43_block_decoder.md R270 to R299). -/
def distTab : List (Nat × Nat) :=
  [(1, 0), (2, 0), (3, 0), (4, 0), (5, 1), (7, 1), (9, 2), (13, 2), (17, 3), (25, 3)] ++
  [(33, 4), (49, 4), (65, 5), (97, 5), (129, 6), (193, 6), (257, 7), (385, 7), (513, 8), (769, 8)] ++
  [(1025, 9), (1537, 9), (2049, 10), (3073, 10), (4097, 11), (6145, 11), (8193, 12), (12289, 12), (16385, 13), (24577, 13)]

/-- The base of row `k` of a base/extra table. -/
def rowBase (tab : List (Nat × Nat)) (k : Nat) : Nat := (tab.getD k (0, 0)).1

/-- `hlit = HLIT + 257` (42_dynamic_table.md R191). -/
def hlitOf (x : BitVec 5) : BitVec 9 := x.zeroExtend 9 + 257

/-- `hdist = HDIST + 1` (42_dynamic_table.md R191). -/
def hdistOf (x : BitVec 5) : BitVec 6 := x.zeroExtend 6 + 1

/-- `hclen = HCLEN + 4` (42_dynamic_table.md R191). -/
def hclenOf (x : BitVec 4) : BitVec 5 := x.zeroExtend 5 + 4

/-- The repeat count of code-length symbol 16 (42_dynamic_table.md R196). -/
def repCount (x : BitVec 2) : Nat := 3 + x.toNat

/-- The zero count of code-length symbol 17 (42_dynamic_table.md R197). -/
def zero3Count (x : BitVec 3) : Nat := 3 + x.toNat

/-- The zero count of code-length symbol 18 (42_dynamic_table.md R198). -/
def zero11Count (x : BitVec 7) : Nat := 11 + x.toNat

/-- `cl_len` after CLLENS: all 0, then `cl_len[PERM[i]]` is the `i`-th field (42_dynamic_table.md R192). -/
def clLenOf (cllens : List (BitVec 3)) : List (BitVec 3) :=
  (perm.zip cllens).foldl (fun acc p => acc.set p.1 p.2) (List.replicate 19 0)

/-- The three alphabets whose symbols are Huffman-coded (00_scope.md R8). -/
inductive SymClass where
  | cl
  | litLen
  | dist
  deriving DecidableEq, Repr

/-- An instruction as its encoded fields: a fixed-width header, or a symbol of an alphabet with its extra field. -/
inductive Shape where
  | env (cmf flg : Byte)
  | blk (btype : BitVec 2) (bfinal : Bool)
  | stored (len nlen : BitVec 16)
  | dynHdr (hlit hdist : BitVec 5) (hclen : BitVec 4) (cllens : List (BitVec 3))
  | coded (cls : SymClass) (symbol width extra : Nat)
  | trailer (value : Word)
  deriving DecidableEq, Repr

/-- The encoded fields of each instruction (30_encoding.md R101 to R107, R110). -/
def Instr.shape : Instr → Shape
  | .env cmf flg => .env cmf flg
  | .blkStored f => .blk 0 f
  | .blkFixed f => .blk 1 f
  | .blkDynamic f => .blk 2 f
  | .blkReserved f => .blk 3 f
  | .stored len nlen => .stored len nlen
  | .dynHdr hlit hdist hclen cllens => .dynHdr hlit hdist hclen cllens
  | .clLen len => .coded .cl len.toNat 0 0
  | .clRep x => .coded .cl 16 2 x.toNat
  | .clZero3 x => .coded .cl 17 3 x.toNat
  | .clZero11 x => .coded .cl 18 7 x.toNat
  | .lit v => .coded .litLen v.toNat 0 0
  | .eob => .coded .litLen 256 0 0
  | .len257 => .coded .litLen 257 0 0
  | .len258 => .coded .litLen 258 0 0
  | .len259 => .coded .litLen 259 0 0
  | .len260 => .coded .litLen 260 0 0
  | .len261 => .coded .litLen 261 0 0
  | .len262 => .coded .litLen 262 0 0
  | .len263 => .coded .litLen 263 0 0
  | .len264 => .coded .litLen 264 0 0
  | .len265 x => .coded .litLen 265 1 x.toNat
  | .len266 x => .coded .litLen 266 1 x.toNat
  | .len267 x => .coded .litLen 267 1 x.toNat
  | .len268 x => .coded .litLen 268 1 x.toNat
  | .len269 x => .coded .litLen 269 2 x.toNat
  | .len270 x => .coded .litLen 270 2 x.toNat
  | .len271 x => .coded .litLen 271 2 x.toNat
  | .len272 x => .coded .litLen 272 2 x.toNat
  | .len273 x => .coded .litLen 273 3 x.toNat
  | .len274 x => .coded .litLen 274 3 x.toNat
  | .len275 x => .coded .litLen 275 3 x.toNat
  | .len276 x => .coded .litLen 276 3 x.toNat
  | .len277 x => .coded .litLen 277 4 x.toNat
  | .len278 x => .coded .litLen 278 4 x.toNat
  | .len279 x => .coded .litLen 279 4 x.toNat
  | .len280 x => .coded .litLen 280 4 x.toNat
  | .len281 x => .coded .litLen 281 5 x.toNat
  | .len282 x => .coded .litLen 282 5 x.toNat
  | .len283 x => .coded .litLen 283 5 x.toNat
  | .len284 x => .coded .litLen 284 5 x.toNat
  | .len285 => .coded .litLen 285 0 0
  | .len286 => .coded .litLen 286 0 0
  | .len287 => .coded .litLen 287 0 0
  | .dist0 => .coded .dist 0 0 0
  | .dist1 => .coded .dist 1 0 0
  | .dist2 => .coded .dist 2 0 0
  | .dist3 => .coded .dist 3 0 0
  | .dist4 y => .coded .dist 4 1 y.toNat
  | .dist5 y => .coded .dist 5 1 y.toNat
  | .dist6 y => .coded .dist 6 2 y.toNat
  | .dist7 y => .coded .dist 7 2 y.toNat
  | .dist8 y => .coded .dist 8 3 y.toNat
  | .dist9 y => .coded .dist 9 3 y.toNat
  | .dist10 y => .coded .dist 10 4 y.toNat
  | .dist11 y => .coded .dist 11 4 y.toNat
  | .dist12 y => .coded .dist 12 5 y.toNat
  | .dist13 y => .coded .dist 13 5 y.toNat
  | .dist14 y => .coded .dist 14 6 y.toNat
  | .dist15 y => .coded .dist 15 6 y.toNat
  | .dist16 y => .coded .dist 16 7 y.toNat
  | .dist17 y => .coded .dist 17 7 y.toNat
  | .dist18 y => .coded .dist 18 8 y.toNat
  | .dist19 y => .coded .dist 19 8 y.toNat
  | .dist20 y => .coded .dist 20 9 y.toNat
  | .dist21 y => .coded .dist 21 9 y.toNat
  | .dist22 y => .coded .dist 22 10 y.toNat
  | .dist23 y => .coded .dist 23 10 y.toNat
  | .dist24 y => .coded .dist 24 11 y.toNat
  | .dist25 y => .coded .dist 25 11 y.toNat
  | .dist26 y => .coded .dist 26 12 y.toNat
  | .dist27 y => .coded .dist 27 12 y.toNat
  | .dist28 y => .coded .dist 28 13 y.toNat
  | .dist29 y => .coded .dist 29 13 y.toNat
  | .dist30 => .coded .dist 30 0 0
  | .dist31 => .coded .dist 31 0 0
  | .trailer v => .trailer v

/-- The table a context decodes with, if it decodes a symbol. -/
def Ctx.table? : Ctx → Option Table
  | .clSym t _ => some t
  | .litLen t => some t
  | .dist t => some t
  | .env => none
  | .blkHdr => none
  | .stored => none
  | .dynHdr => none
  | .trailer => none

/-- The code bits of a symbol in a context. -/
def Ctx.codeBits (c : Ctx) (v : Nat) : List Bool :=
  match c.table? with
  | some t => t.codeBits v
  | none => []

/-- Symbol 16 has no extra field while no length has been filled (42_dynamic_table.md R199). -/
def Ctx.noExtra (c : Ctx) (v : Nat) : Bool :=
  match c with
  | .clSym _ first => first && v == 16
  | .litLen _ => false
  | .dist _ => false
  | .env => false
  | .blkHdr => false
  | .stored => false
  | .dynHdr => false
  | .trailer => false

end Sys2Proof
end

