-- ==== Sys2Proof/Machine/State.lean ====
section
/-! DEFINITION. The core's state as plain data, its value after hardware reset, and the ways a step can stop. -/

namespace Sys2Proof.Machine

/-- The control state (10_state.md R40); its 4-bit encoding is `Fsm.code`. -/
inductive Fsm where
  | idle
  | env
  | blkHdr
  | stored
  | dynHdr
  | dynLens
  | symbol
  | trailer
  | done
  | error
  deriving DecidableEq, Repr

/-- The error kinds (60_exceptions.md R370); the 4-bit code is `ErrKind.code`. -/
inductive ErrKind where
  | none
  | truncatedInput
  | badEnvelope
  | unsupportedMethod
  | unsupportedFeature
  | invalidTable
  | noMatchingCode
  | invalidBlock
  | checksumMismatch
  | outOfMemory
  | logicError
  deriving DecidableEq, Repr

/-- Where the limit of the output comes from. `OUT_LIMIT` is "a natural number, or unbounded" that the model takes as an
argument (00_scope.md R13); the host interface gives it in a register (10_state.md R49). -/
inductive LimitSource where
  /-- the host register OUT_LIMIT gives it (10_state.md R49) -/
  | register
  /-- the argument is this natural number (00_scope.md R13) -/
  | bytes (n : Nat)
  /-- the argument is unbounded (00_scope.md R13, 44_output_buffer.md R324) -/
  | unbounded
  deriving DecidableEq, Repr

/-- The state of the core (10_state.md). INVENTORY.md lists every field with its rule and its reset value. -/
structure State where
  /-- the input space IN, in canonical form (20_memory.md R70) -/
  inMem : List Host.Cell
  /-- the output space OUT, in canonical form (20_memory.md R74) -/
  outMem : List Host.Cell
  /-- stream bits consumed, `8*byte_offset + bit_offset` (10_state.md R31, 40_bit_cursor.md R140) -/
  pc : Nat
  /-- `end_offset` (10_state.md R31) -/
  endOffset : Nat
  /-- `out_len` (10_state.md R33) -/
  outLen : Nat
  /-- `lit_tab` (10_state.md R35) -/
  litTab : Option Table
  /-- `dist_tab` (10_state.md R35) -/
  distTab : Option Table
  /-- `cl_tab` (10_state.md R35) -/
  clTab : Option Table
  /-- the final flag of the current block (10_state.md R36) -/
  bfinal : Bool
  /-- the type of the current block (10_state.md R36) -/
  btype : BitVec 2
  /-- literal/length alphabet size (10_state.md R37) -/
  hlit : BitVec 9
  /-- distance alphabet size (10_state.md R37) -/
  hdist : BitVec 6
  /-- number of code-length entries (10_state.md R37) -/
  hclen : BitVec 5
  /-- `cl_len[0..18]` (10_state.md R37) -/
  clLen : List (BitVec 3)
  /-- `lens[0..n-1]`, the entries filled so far (10_state.md R37; log 7) -/
  lens : List (BitVec 4)
  /-- stored length (10_state.md R38) -/
  slen : BitVec 16
  /-- stored length's complement (10_state.md R38) -/
  snlen : BitVec 16
  /-- length of the back-reference (10_state.md R39) -/
  mlen : BitVec 9
  /-- distance of the back-reference (10_state.md R39) -/
  mdist : BitVec 16
  /-- MODEL's own: a length symbol has been executed and its distance symbol comes next (30_encoding.md R110; log 1) -/
  distNext : Bool
  /-- the control state (10_state.md R40) -/
  fsm : Fsm
  /-- the error register (10_state.md R43) -/
  err : ErrKind
  /-- checksum accumulator (10_state.md R41) -/
  s1 : BitVec 16
  /-- checksum accumulator (10_state.md R41) -/
  s2 : BitVec 16
  /-- the trailer register (10_state.md R42) -/
  adlerRead : Word
  /-- host register IN_LEN (10_state.md R48) -/
  inLen : Word
  /-- host register OUT_LIMIT (10_state.md R49) -/
  outLimit : Word
  /-- the parameter `OUT_LIMIT`: this register, or an argument of the model (00_scope.md R13; log 11) -/
  limitBy : LimitSource
  /-- MODEL's own: how many free values host reads have taken (log 5) -/
  freeReads : Nat
  deriving DecidableEq, Repr

/-- The state after hardware reset (10_state.md R58). The registers R58 marks unspecified are 0 (log 4); IN and OUT
list no byte (log 2, log 3). -/
def State.reset : State where
  inMem := []
  outMem := []
  pc := 0
  endOffset := 0
  outLen := 0
  litTab := none
  distTab := none
  clTab := none
  bfinal := false
  btype := 0
  hlit := 0
  hdist := 0
  hclen := 0
  clLen := List.replicate 19 0
  lens := []
  slen := 0
  snlen := 0
  mlen := 0
  mdist := 0
  distNext := false
  fsm := .idle
  err := .none
  s1 := 1
  s2 := 0
  adlerRead := 0
  inLen := 0
  outLimit := 0
  limitBy := .register
  freeReads := 0

/-- Why the machine stops with a fault. Every one is SAFE: the model stops where it has no value or where the host
breaks a duty. The error kinds of the spec are not here: they are next states (`State.raise`). -/
inductive Fault where
  /-- An input byte below `end_offset` is needed and the host never wrote it (70_reset_and_hazards.md R404 step 1;
  log 2). Raised by the instruction fetch and by the stored copy. Safe. -/
  | inputUnwritten
  /-- An output byte that was never written is needed (10_state.md R59; log 3). Raised by the back-reference copy and by
  the checksum, in no state a run reaches. Safe. -/
  | outputUnwritten
  /-- A symbol is wanted from a table slot that is absent (10_state.md R35, 41_huffman_table.md R171; log 16). Raised by
  the instruction fetch, in no state a run reaches. Safe. -/
  | tableAbsent
  /-- The host wrote IN or OUT during a run (70_reset_and_hazards.md R405: a fault of the host program). Raised by host
  writes. Safe. -/
  | hostWriteDuringRun
  /-- A host register access that is not 32 bits wide or not 32-bit aligned (10_state.md R54). Raised by host register
  accesses. Safe. -/
  | hostNarrowAccess
  /-- A host access outside the register window, or beyond the 32-bit offsets of IN and OUT (10_state.md R45, R54;
  00_scope.md R14; log 12). Raised by host accesses. Safe. -/
  | hostOutsideWindow
  deriving DecidableEq, Repr

/-- Why an instruction has no meaning. -/
inductive Refusal where
  /-- The instruction of this mnemonic is not modelled yet. Raised by `exec`, for no instruction. Safe. -/
  | notModelled (mnemonic : String)
  /-- A cursor read of more than 32 bits (40_bit_cursor.md R147: a model must refuse it). Raised by the instruction
  fetch, for no instruction. Safe. -/
  | readTooWide (n : Nat)
  deriving DecidableEq, Repr

end Sys2Proof.Machine
end

