-- ==== Sys2Proof/Machine/Flags.lean ====
section
/-! DEFINITION. The core has no condition codes (10_state.md R44). Its flags are the status bits, and its one computed
value besides operands is the checksum: both are here. -/

namespace Sys2Proof.Machine

/-- The encoding of the control state (10_state.md R40). -/
def Fsm.code : Fsm → BitVec 4
  | .idle => 0
  | .env => 1
  | .blkHdr => 2
  | .stored => 3
  | .dynHdr => 4
  | .dynLens => 5
  | .symbol => 6
  | .trailer => 7
  | .done => 8
  | .error => 9

/-- The error codes (60_exceptions.md R370). -/
def ErrKind.code : ErrKind → BitVec 4
  | .none => 0
  | .truncatedInput => 1
  | .badEnvelope => 2
  | .unsupportedMethod => 3
  | .unsupportedFeature => 4
  | .invalidTable => 5
  | .noMatchingCode => 6
  | .invalidBlock => 7
  | .checksumMismatch => 8
  | .outOfMemory => 9
  | .logicError => 10

/-- BUSY: `fsm` is ENV .. TRAILER (10_state.md R47). -/
def Fsm.busy : Fsm → Bool
  | .idle => false
  | .env => true
  | .blkHdr => true
  | .stored => true
  | .dynHdr => true
  | .dynLens => true
  | .symbol => true
  | .trailer => true
  | .done => false
  | .error => false

/-- STATUS.BUSY. -/
def State.busy (s : State) : Bool := s.fsm.busy

/-- STATUS.DONE. -/
def State.isDone (s : State) : Bool := s.fsm == .done

/-- STATUS.ERR. -/
def State.isError (s : State) : Bool := s.fsm == .error

/-- STATUS.ERRCODE: `err`, and 0 unless `fsm = ERROR` (10_state.md R47). -/
def State.errCode (s : State) : BitVec 4 := if s.isError then s.err.code else 0

/-- The STATUS register (10_state.md R47): ERRCODE in bits 11:8, ERR, DONE, BUSY in bits 2, 1, 0, the rest 0. -/
def State.status (s : State) : Word :=
  (0 : BitVec 20) ++ s.errCode ++ (0 : BitVec 5) ++ BitVec.ofBool s.isError ++ BitVec.ofBool s.isDone ++
    BitVec.ofBool s.busy

/-- `DONE or ERR`, which a platform may wire to an interrupt controller of its own (60_exceptions.md R385). -/
def State.doneSignal (s : State) : Bool := s.isDone || s.isError

/-- One byte into the accumulators; the sums are exact, then reduced (45_envelope_checksum.md R350). -/
def adlerStep (acc : Nat × Nat) (b : Byte) : Nat × Nat :=
  let x := (acc.1 + b.toNat) % Config.adlerMod
  (x, (acc.2 + x) % Config.adlerMod)

/-- The accumulators `(s1, s2)` after a byte sequence (45_envelope_checksum.md R350). -/
def adlerSums (bs : List Byte) : Nat × Nat := bs.foldl adlerStep (1, 0)

/-- `(s2 << 16) | s1` (45_envelope_checksum.md R350; 10_state.md R52). -/
def adlerWord (x y : BitVec 16) : Word := y ++ x

/-- The checksum of a byte sequence (45_envelope_checksum.md R350). -/
def adler (bs : List Byte) : Word :=
  adlerWord (BitVec.ofNat 16 (adlerSums bs).1) (BitVec.ofNat 16 (adlerSums bs).2)

/-- `adler_calc` as the accumulators hold it (10_state.md R52). -/
def State.adlerCalc (s : State) : Word := adlerWord s.s1 s.s2

end Sys2Proof.Machine
end

