-- ==== Sys2Proof/Machine/Ops.lean ====
section
/-! DEFINITION. The named operations every meaning shares: memory, the cursor and table views, raising an error and
starting a run, appending to the output, ending a block, installing the tables. -/

namespace Sys2Proof.Machine

/-- What a meaning answers. -/
abbrev Result := Host.Outcome State Fault Refusal

/-- A byte space: (address, byte) pairs. -/
abbrev Memory := List Host.Cell

/-- The canonical form: addresses strictly rising. An unlisted address holds no value, so no entry can equal it
(log 2, log 3). -/
abbrev Memory.wf (m : Memory) : Prop := m.Pairwise fun x y => x.1 < y.1

/-- `MemRead(·, a, 1)` (00_scope.md R17); `none` where nothing was written. -/
def Memory.read : Memory → Nat → Option Byte
  | [], _ => none
  | (k, b) :: m, a => if k == a then some b else Memory.read m a

/-- `MemWrite(·, a, 1, b)` (00_scope.md R17), keeping the canonical form. -/
def Memory.write : Memory → Nat → Byte → Memory
  | [], a, b => [(a, b)]
  | (k, c) :: m, a, b =>
    if a < k then (a, b) :: (k, c) :: m
    else if a == k then (a, b) :: m
    else (k, c) :: Memory.write m a b

/-- Writing consecutive bytes from address `a` on. -/
def Memory.writeAll : Memory → Nat → List Byte → Memory
  | m, _, [] => m
  | m, a, b :: bs => Memory.writeAll (Memory.write m a b) (a + 1) bs

/-- The `k` bytes from address `a` on, if all of them are written. -/
def Memory.readRange (m : Memory) : Nat → Nat → Option (List Byte)
  | _, 0 => some []
  | a, k + 1 =>
    match Memory.read m a with
    | none => none
    | some b => (Memory.readRange m (a + 1) k).map (b :: ·)

/-- The bytes from address `a` on, at most `k`, up to the first one that was never written. -/
def Memory.readRun (m : Memory) : Nat → Nat → List Byte
  | _, 0 => []
  | a, k + 1 =>
    match Memory.read m a with
    | none => []
    | some b => b :: Memory.readRun m (a + 1) k

/-- `byte_offset` (10_state.md R31). -/
def State.byteOffset (s : State) : Nat := s.pc / 8

/-- `bit_offset` (10_state.md R31). -/
def State.bitOffset (s : State) : Nat := s.pc % 8

/-- `remaining_bytes()` at the state's cursor (40_bit_cursor.md R145). -/
def State.remainingBytes (s : State) : Nat := s.endOffset - s.byteOffset

/-- `n`, the number of entries of `lens` filled so far (10_state.md R37; log 7). -/
def State.n (s : State) : Nat := s.lens.length

/-- `hlit + hdist`, how many lengths a dynamic header announces (42_dynamic_table.md R194). -/
def State.lensTotal (s : State) : Nat := s.hlit.toNat + s.hdist.toNat

/-- `goto S` (00_scope.md R17). -/
def State.goto (s : State) (f : Fsm) : State := { s with fsm := f }

/-- `raise E`: the one way an error is taken (60_exceptions.md R371). The run ends at once, the tables are released, no
further element is decoded. -/
def State.raise (s : State) (e : ErrKind) : State :=
  { s with err := e, fsm := .error, litTab := none, distTab := none, clTab := none, distNext := false }

/-- The one way out of ERROR besides hardware reset: START initialises a run (70_reset_and_hazards.md R401,
60_exceptions.md R374). -/
def State.start (s : State) : State :=
  { s with
    endOffset := s.inLen.toNat
    pc := 0
    outLen := 0
    litTab := none
    distTab := none
    clTab := none
    s1 := 1
    s2 := 0
    adlerRead := 0
    err := .none
    distNext := false
    fsm := .env }

/-- Go on with the state of a next outcome. -/
def andThen (r : Result) (k : State → Result) : Result :=
  match r with
  | .next s => k s
  | .fault f => .fault f
  | .refused f => .refused f

/-- The write of an append: one byte at `out_len`, and `out_len` moves past it (44_output_buffer.md R321). -/
def State.pushOut (s : State) (b : Byte) : State :=
  { s with outMem := Memory.write s.outMem s.outLen b, outLen := s.outLen + 1 }

/-- `OUT_LIMIT`, a natural number or (`none`) unbounded (00_scope.md R13, 10_state.md R49; log 11). -/
def State.limit (s : State) : Option Nat :=
  match s.limitBy with
  | .register => some s.outLimit.toNat
  | .bytes n => some n
  | .unbounded => none

/-- An append of `k` bytes would make the output longer than `OUT_LIMIT`; with an unbounded one none does
(44_output_buffer.md R324). -/
def State.overLimit (s : State) (k : Nat) : Bool :=
  match s.limit with
  | some n => decide (n < s.outLen + k)
  | none => false

/-- `append_byte(b)` (44_output_buffer.md R321). -/
def appendByte (b : Byte) (s : State) : Result :=
  if s.overLimit 1 then .next (s.raise .outOfMemory) else .next (s.pushOut b)

/-- `k` iterations of the copy loop: read `OUT[src]`, append it (44_output_buffer.md R323). -/
def copyBytes : Nat → Nat → State → Result
  | 0, _, s => .next s
  | k + 1, src, s =>
    match Memory.read s.outMem src with
    | none => .fault .outputUnwritten
    | some b => copyBytes k (src + 1) (s.pushOut b)

/-- `append_copy(dist, len)` (44_output_buffer.md R323, R324). -/
def appendCopy (dist len : Nat) (s : State) : Result :=
  if s.overLimit len then .next (s.raise .outOfMemory) else copyBytes len (s.outLen - dist) s

/-- `k` iterations of the stored copy: read the input byte at the cursor, append it, move the cursor past it
(43_block_decoder.md R229). -/
def storedBytes : Nat → State → Result
  | 0, s => .next s
  | k + 1, s =>
    match Memory.read s.inMem s.byteOffset with
    | none => .fault .inputUnwritten
    | some b => storedBytes k { s.pushOut b with pc := s.pc + 8 }

/-- End of block (43_block_decoder.md R239). -/
def State.endOfBlock (s : State) : State :=
  { s with litTab := none, distTab := none, fsm := if s.bfinal then .trailer else .blkHdr }

/-- Installing the tables of a dynamic block (42_dynamic_table.md R201). -/
def State.installTables (s : State) : State :=
  let lens := s.lens.map BitVec.toNat
  match Table.build (lens.take s.hlit.toNat) with
  | none => s.raise .invalidTable
  | some lit =>
    match Table.build (lens.drop s.hlit.toNat) with
    | none => s.raise .invalidTable
    | some dist => { s with litTab := some lit, distTab := some dist, clTab := none, fsm := .symbol }

/-- The end of a code-length symbol: install the tables once `n = hlit + hdist`, else go on (42_dynamic_table.md R194). -/
def State.lensFilled (s : State) : State :=
  if s.n = s.lensTotal then s.installTables else s.goto .dynLens

/-- Fill `r` more entries of `lens` with one length, unless they would overfill the sequence (42_dynamic_table.md R196
to R198, R200). -/
def State.fillRun (s : State) (r : Nat) (len : BitVec 4) : State :=
  if s.lensTotal < s.n + r then s.raise .invalidTable
  else State.lensFilled { s with lens := s.lens ++ List.replicate r len }

/-- The registers of a dynamic header (42_dynamic_table.md R191, R192). -/
def State.setDynHdr (s : State) (hlit hdist : BitVec 5) (hclen : BitVec 4) (cllens : List (BitVec 3)) : State :=
  { s with hlit := hlitOf hlit, hdist := hdistOf hdist, hclen := hclenOf hclen, clLen := clLenOf cllens }

/-- A length symbol with base row `row` of LEN_TAB and extra value `x`: `mlen` is set and the distance symbol comes next
(43_block_decoder.md R233). -/
def lengthSymbol (row x : Nat) (s : State) : Result :=
  .next { s with mlen := BitVec.ofNat 9 (rowBase lenTab row + x), distNext := true }

/-- A distance symbol with row `row` of DIST_TAB and extra value `y`: `mdist` is set, checked against the output, and the
back-reference is copied (43_block_decoder.md R234 to R236). -/
def distanceSymbol (row y : Nat) (s : State) : Result :=
  let s := { s with mdist := BitVec.ofNat 16 (rowBase distTab row + y), distNext := false, fsm := .symbol }
  if s.outLen < s.mdist.toNat then .next (s.raise .invalidBlock)
  else appendCopy s.mdist.toNat s.mlen.toNat s

/-- A symbol its alphabet does not define (43_block_decoder.md R237, R238, R300, R301). -/
def undefinedSymbol (s : State) : Result := .next (s.raise .logicError)

end Sys2Proof.Machine
end

