-- ==== Sys2Proof/Machine/Block.lean ====
section
/-! DEFINITION. The block headers and the stored block (43_block_decoder.md R220 to R229). -/

namespace Sys2Proof.Machine

/-- BLK_STORED (43_block_decoder.md R221, R222). -/
def execBlkStored (bfinal : Bool) (s : State) : Result :=
  .next { s with bfinal := bfinal, btype := 0, fsm := .stored }

/-- BLK_FIXED (43_block_decoder.md R221, R223). -/
def execBlkFixed (bfinal : Bool) (s : State) : Result :=
  .next { s with
    bfinal := bfinal
    btype := 1
    litTab := some Table.fixedLit
    distTab := some Table.fixedDist
    fsm := .symbol }

/-- BLK_DYNAMIC (43_block_decoder.md R221, R224). -/
def execBlkDynamic (bfinal : Bool) (s : State) : Result :=
  .next { s with bfinal := bfinal, btype := 2, fsm := .dynHdr }

/-- BLK_RESERVED (43_block_decoder.md R221, R225). -/
def execBlkReserved (bfinal : Bool) (s : State) : Result :=
  .next (State.raise { s with bfinal := bfinal, btype := 3 } .invalidBlock)

/-- STORED, after its header: the complement check, the input check, the output limit, the copy, the end of the block
(43_block_decoder.md R226 to R229, R239). -/
def execStored (len nlen : BitVec 16) (s : State) : Result :=
  let s := { s with slen := len, snlen := nlen }
  if nlen ≠ ~~~len then .next (s.raise .invalidBlock)
  else if s.remainingBytes < len.toNat then .next (s.raise .truncatedInput)
  else if s.overLimit len.toNat then .next (s.raise .outOfMemory)
  else andThen (storedBytes len.toNat s) fun s => .next s.endOfBlock

end Sys2Proof.Machine
end

