-- ==== Sys2Proof/Machine/Distance.lean ====
section
/-! DEFINITION. The distance symbols and the back-reference (43_block_decoder.md R234 to R236, R270 to R302). -/

namespace Sys2Proof.Machine

/-- DIST_0: base 1, no extra bits (43_block_decoder.md R270). -/
def execDist0 (s : State) : Result := distanceSymbol 0 0 s

/-- DIST_1: base 2, no extra bits (43_block_decoder.md R271). -/
def execDist1 (s : State) : Result := distanceSymbol 1 0 s

/-- DIST_2: base 3, no extra bits (43_block_decoder.md R272). -/
def execDist2 (s : State) : Result := distanceSymbol 2 0 s

/-- DIST_3: base 4, no extra bits (43_block_decoder.md R273). -/
def execDist3 (s : State) : Result := distanceSymbol 3 0 s

/-- DIST_4: base 5, 1 extra bit (43_block_decoder.md R274). -/
def execDist4 (y : BitVec 1) (s : State) : Result := distanceSymbol 4 y.toNat s

/-- DIST_5: base 7, 1 extra bit (43_block_decoder.md R275). -/
def execDist5 (y : BitVec 1) (s : State) : Result := distanceSymbol 5 y.toNat s

/-- DIST_6: base 9, 2 extra bits (43_block_decoder.md R276). -/
def execDist6 (y : BitVec 2) (s : State) : Result := distanceSymbol 6 y.toNat s

/-- DIST_7: base 13, 2 extra bits (43_block_decoder.md R277). -/
def execDist7 (y : BitVec 2) (s : State) : Result := distanceSymbol 7 y.toNat s

/-- DIST_8: base 17, 3 extra bits (43_block_decoder.md R278). -/
def execDist8 (y : BitVec 3) (s : State) : Result := distanceSymbol 8 y.toNat s

/-- DIST_9: base 25, 3 extra bits (43_block_decoder.md R279). -/
def execDist9 (y : BitVec 3) (s : State) : Result := distanceSymbol 9 y.toNat s

/-- DIST_10: base 33, 4 extra bits (43_block_decoder.md R280). -/
def execDist10 (y : BitVec 4) (s : State) : Result := distanceSymbol 10 y.toNat s

/-- DIST_11: base 49, 4 extra bits (43_block_decoder.md R281). -/
def execDist11 (y : BitVec 4) (s : State) : Result := distanceSymbol 11 y.toNat s

/-- DIST_12: base 65, 5 extra bits (43_block_decoder.md R282). -/
def execDist12 (y : BitVec 5) (s : State) : Result := distanceSymbol 12 y.toNat s

/-- DIST_13: base 97, 5 extra bits (43_block_decoder.md R283). -/
def execDist13 (y : BitVec 5) (s : State) : Result := distanceSymbol 13 y.toNat s

/-- DIST_14: base 129, 6 extra bits (43_block_decoder.md R284). -/
def execDist14 (y : BitVec 6) (s : State) : Result := distanceSymbol 14 y.toNat s

/-- DIST_15: base 193, 6 extra bits (43_block_decoder.md R285). -/
def execDist15 (y : BitVec 6) (s : State) : Result := distanceSymbol 15 y.toNat s

/-- DIST_16: base 257, 7 extra bits (43_block_decoder.md R286). -/
def execDist16 (y : BitVec 7) (s : State) : Result := distanceSymbol 16 y.toNat s

/-- DIST_17: base 385, 7 extra bits (43_block_decoder.md R287). -/
def execDist17 (y : BitVec 7) (s : State) : Result := distanceSymbol 17 y.toNat s

/-- DIST_18: base 513, 8 extra bits (43_block_decoder.md R288). -/
def execDist18 (y : BitVec 8) (s : State) : Result := distanceSymbol 18 y.toNat s

/-- DIST_19: base 769, 8 extra bits (43_block_decoder.md R289). -/
def execDist19 (y : BitVec 8) (s : State) : Result := distanceSymbol 19 y.toNat s

/-- DIST_20: base 1025, 9 extra bits (43_block_decoder.md R290). -/
def execDist20 (y : BitVec 9) (s : State) : Result := distanceSymbol 20 y.toNat s

/-- DIST_21: base 1537, 9 extra bits (43_block_decoder.md R291). -/
def execDist21 (y : BitVec 9) (s : State) : Result := distanceSymbol 21 y.toNat s

/-- DIST_22: base 2049, 10 extra bits (43_block_decoder.md R292). -/
def execDist22 (y : BitVec 10) (s : State) : Result := distanceSymbol 22 y.toNat s

/-- DIST_23: base 3073, 10 extra bits (43_block_decoder.md R293). -/
def execDist23 (y : BitVec 10) (s : State) : Result := distanceSymbol 23 y.toNat s

/-- DIST_24: base 4097, 11 extra bits (43_block_decoder.md R294). -/
def execDist24 (y : BitVec 11) (s : State) : Result := distanceSymbol 24 y.toNat s

/-- DIST_25: base 6145, 11 extra bits (43_block_decoder.md R295). -/
def execDist25 (y : BitVec 11) (s : State) : Result := distanceSymbol 25 y.toNat s

/-- DIST_26: base 8193, 12 extra bits (43_block_decoder.md R296). -/
def execDist26 (y : BitVec 12) (s : State) : Result := distanceSymbol 26 y.toNat s

/-- DIST_27: base 12289, 12 extra bits (43_block_decoder.md R297). -/
def execDist27 (y : BitVec 12) (s : State) : Result := distanceSymbol 27 y.toNat s

/-- DIST_28: base 16385, 13 extra bits (43_block_decoder.md R298). -/
def execDist28 (y : BitVec 13) (s : State) : Result := distanceSymbol 28 y.toNat s

/-- DIST_29: base 24577, 13 extra bits (43_block_decoder.md R299). -/
def execDist29 (y : BitVec 13) (s : State) : Result := distanceSymbol 29 y.toNat s

/-- DIST_30 (43_block_decoder.md R300). -/
def execDist30 (s : State) : Result := undefinedSymbol s

/-- DIST_31 (43_block_decoder.md R301). -/
def execDist31 (s : State) : Result := undefinedSymbol s

end Sys2Proof.Machine
end

