-- ==== Sys2Proof/Machine/Dynamic.lean ====
section
/-! DEFINITION. The dynamic header and the code-length symbols (42_dynamic_table.md). -/

namespace Sys2Proof.Machine

/-- DYN_HDR: the registers, the code-length table, then no length filled (42_dynamic_table.md R190 to R193). -/
def execDynHdr (hlit hdist : BitVec 5) (hclen : BitVec 4) (cllens : List (BitVec 3)) (s : State) : Result :=
  let s := s.setDynHdr hlit hdist hclen cllens
  match Table.build (s.clLen.map BitVec.toNat) with
  | none => .next (s.raise .invalidTable)
  | some t => .next { s with clTab := some t, lens := [], fsm := .dynLens }

/-- CL_LEN (42_dynamic_table.md R195). -/
def execClLen (len : BitVec 4) (s : State) : Result :=
  .next (State.lensFilled { s with lens := s.lens ++ [len] })

/-- CL_REP: the last length filled, again (42_dynamic_table.md R196, R199, R200). -/
def execClRep (x : BitVec 2) (s : State) : Result :=
  match s.lens.getLast? with
  | none => .next (s.raise .invalidTable)
  | some len => .next (s.fillRun (repCount x) len)

/-- CL_ZERO3 (42_dynamic_table.md R197, R200). -/
def execClZero3 (x : BitVec 3) (s : State) : Result := .next (s.fillRun (zero3Count x) 0)

/-- CL_ZERO11 (42_dynamic_table.md R198, R200). -/
def execClZero11 (x : BitVec 7) (s : State) : Result := .next (s.fillRun (zero11Count x) 0)

end Sys2Proof.Machine
end

