-- ==== Sys2Proof/Machine/Envelope.lean ====
section
/-! DEFINITION. ENV and TRAILER (45_envelope_checksum.md). The cursor is past the instruction when its meaning runs. -/

namespace Sys2Proof.Machine

/-- ENV: the four checks in order, then the first block header (45_envelope_checksum.md R342 to R347). -/
def execEnv (cmf flg : Byte) (s : State) : Result :=
  if (cmf.toNat * 256 + flg.toNat) % 31 ≠ 0 then .next (s.raise .badEnvelope)
  else if (cmf.extractLsb' 0 4).toNat ≠ Config.supportedCm then .next (s.raise .unsupportedMethod)
  else if Config.maxCinfo < (cmf.extractLsb' 4 4).toNat then .next (s.raise .badEnvelope)
  else if flg.getLsbD 5 then .next (s.raise .unsupportedFeature)
  else .next (s.goto .blkHdr)

/-- TRAILER: the checksum of the whole output against the value read (45_envelope_checksum.md R349 to R352; log 6). -/
def execTrailer (value : Word) (s : State) : Result :=
  match Memory.readRange s.outMem 0 s.outLen with
  | none => .fault .outputUnwritten
  | some bs =>
    let s := { s with
      adlerRead := value
      s1 := BitVec.ofNat 16 (adlerSums bs).1
      s2 := BitVec.ofNat 16 (adlerSums bs).2 }
    if s.adlerRead = s.adlerCalc then .next (s.goto .done) else .next (s.raise .checksumMismatch)

end Sys2Proof.Machine
end

