-- ==== Sys2Proof/Machine/LitLen.lean ====
section
/-! DEFINITION. The literal/length symbols (43_block_decoder.md R230 to R238, R240 to R268). -/

namespace Sys2Proof.Machine

/-- LIT (43_block_decoder.md R231). -/
def execLit (v : Byte) (s : State) : Result := appendByte v (s.goto .symbol)

/-- EOB (43_block_decoder.md R232, R239). -/
def execEob (s : State) : Result := .next s.endOfBlock

/-- LEN_257: base 3, no extra bits (43_block_decoder.md R240). -/
def execLen257 (s : State) : Result := lengthSymbol 0 0 s

/-- LEN_258: base 4, no extra bits (43_block_decoder.md R241). -/
def execLen258 (s : State) : Result := lengthSymbol 1 0 s

/-- LEN_259: base 5, no extra bits (43_block_decoder.md R242). -/
def execLen259 (s : State) : Result := lengthSymbol 2 0 s

/-- LEN_260: base 6, no extra bits (43_block_decoder.md R243). -/
def execLen260 (s : State) : Result := lengthSymbol 3 0 s

/-- LEN_261: base 7, no extra bits (43_block_decoder.md R244). -/
def execLen261 (s : State) : Result := lengthSymbol 4 0 s

/-- LEN_262: base 8, no extra bits (43_block_decoder.md R245). -/
def execLen262 (s : State) : Result := lengthSymbol 5 0 s

/-- LEN_263: base 9, no extra bits (43_block_decoder.md R246). -/
def execLen263 (s : State) : Result := lengthSymbol 6 0 s

/-- LEN_264: base 10, no extra bits (43_block_decoder.md R247). -/
def execLen264 (s : State) : Result := lengthSymbol 7 0 s

/-- LEN_265: base 11, 1 extra bit (43_block_decoder.md R248). -/
def execLen265 (x : BitVec 1) (s : State) : Result := lengthSymbol 8 x.toNat s

/-- LEN_266: base 13, 1 extra bit (43_block_decoder.md R249). -/
def execLen266 (x : BitVec 1) (s : State) : Result := lengthSymbol 9 x.toNat s

/-- LEN_267: base 15, 1 extra bit (43_block_decoder.md R250). -/
def execLen267 (x : BitVec 1) (s : State) : Result := lengthSymbol 10 x.toNat s

/-- LEN_268: base 17, 1 extra bit (43_block_decoder.md R251). -/
def execLen268 (x : BitVec 1) (s : State) : Result := lengthSymbol 11 x.toNat s

/-- LEN_269: base 19, 2 extra bits (43_block_decoder.md R252). -/
def execLen269 (x : BitVec 2) (s : State) : Result := lengthSymbol 12 x.toNat s

/-- LEN_270: base 23, 2 extra bits (43_block_decoder.md R253). -/
def execLen270 (x : BitVec 2) (s : State) : Result := lengthSymbol 13 x.toNat s

/-- LEN_271: base 27, 2 extra bits (43_block_decoder.md R254). -/
def execLen271 (x : BitVec 2) (s : State) : Result := lengthSymbol 14 x.toNat s

/-- LEN_272: base 31, 2 extra bits (43_block_decoder.md R255). -/
def execLen272 (x : BitVec 2) (s : State) : Result := lengthSymbol 15 x.toNat s

/-- LEN_273: base 35, 3 extra bits (43_block_decoder.md R256). -/
def execLen273 (x : BitVec 3) (s : State) : Result := lengthSymbol 16 x.toNat s

/-- LEN_274: base 43, 3 extra bits (43_block_decoder.md R257). -/
def execLen274 (x : BitVec 3) (s : State) : Result := lengthSymbol 17 x.toNat s

/-- LEN_275: base 51, 3 extra bits (43_block_decoder.md R258). -/
def execLen275 (x : BitVec 3) (s : State) : Result := lengthSymbol 18 x.toNat s

/-- LEN_276: base 59, 3 extra bits (43_block_decoder.md R259). -/
def execLen276 (x : BitVec 3) (s : State) : Result := lengthSymbol 19 x.toNat s

/-- LEN_277: base 67, 4 extra bits (43_block_decoder.md R260). -/
def execLen277 (x : BitVec 4) (s : State) : Result := lengthSymbol 20 x.toNat s

/-- LEN_278: base 83, 4 extra bits (43_block_decoder.md R261). -/
def execLen278 (x : BitVec 4) (s : State) : Result := lengthSymbol 21 x.toNat s

/-- LEN_279: base 99, 4 extra bits (43_block_decoder.md R262). -/
def execLen279 (x : BitVec 4) (s : State) : Result := lengthSymbol 22 x.toNat s

/-- LEN_280: base 115, 4 extra bits (43_block_decoder.md R263). -/
def execLen280 (x : BitVec 4) (s : State) : Result := lengthSymbol 23 x.toNat s

/-- LEN_281: base 131, 5 extra bits (43_block_decoder.md R264). -/
def execLen281 (x : BitVec 5) (s : State) : Result := lengthSymbol 24 x.toNat s

/-- LEN_282: base 163, 5 extra bits (43_block_decoder.md R265). -/
def execLen282 (x : BitVec 5) (s : State) : Result := lengthSymbol 25 x.toNat s

/-- LEN_283: base 195, 5 extra bits (43_block_decoder.md R266). -/
def execLen283 (x : BitVec 5) (s : State) : Result := lengthSymbol 26 x.toNat s

/-- LEN_284: base 227, 5 extra bits (43_block_decoder.md R267). -/
def execLen284 (x : BitVec 5) (s : State) : Result := lengthSymbol 27 x.toNat s

/-- LEN_285: base 258, no extra bits (43_block_decoder.md R268). -/
def execLen285 (s : State) : Result := lengthSymbol 28 0 s

/-- LEN_286 (43_block_decoder.md R237). -/
def execLen286 (s : State) : Result := undefinedSymbol s

/-- LEN_287 (43_block_decoder.md R238). -/
def execLen287 (s : State) : Result := undefinedSymbol s

end Sys2Proof.Machine
end

