-- ==== Sys2Proof/WellFormed.lean ====
section
/-! DEFINITION. Which instructions are well formed, by themselves and in a decoding context. -/

namespace Sys2Proof

/-- A dynamic header carries `hclen` code-length code lengths (30_encoding.md R104); every other operand is bounded by
its type. -/
def Instr.wf (i : Instr) : Bool :=
  match i.shape with
  | .dynHdr _ _ hclen cllens => cllens.length == hclen.toNat + 4
  | .env _ _ => true
  | .blk _ _ => true
  | .stored _ _ => true
  | .coded _ _ _ _ => true
  | .trailer _ => true

/-- The instruction is well formed and can stand where the context says: its class is the one selected, its symbol has
a code in the active table, and a repeat with no previous length carries no extra field (30_encoding.md R110,
42_dynamic_table.md R199). -/
def Ctx.accepts (c : Ctx) (i : Instr) : Bool :=
  i.wf &&
  match c, i.shape with
  | .env, .env _ _ => true
  | .blkHdr, .blk _ _ => true
  | .stored, .stored _ _ => true
  | .dynHdr, .dynHdr _ _ _ _ => true
  | .clSym t first, .coded .cl v _ x => (t.codeOf v).isSome && (!(first && v == 16) || x == 0)
  | .litLen t, .coded .litLen v _ _ => (t.codeOf v).isSome
  | .dist t, .coded .dist v _ _ => (t.codeOf v).isSome
  | .trailer, .trailer _ => true
  | _, _ => false

end Sys2Proof
end

