-- ==== Sys2Proof/Decode.lean ====
section
/-! DEFINITION. The decoder, total on any bytes, with its rejections by name (`Stop`), then the encoder, then the words
of opcode_table.json. Formats: 30_encoding.md R101 to R109. -/

namespace Sys2Proof

/-- Read `n` bits and go on; if the read stops, the registers of `part` are already written. -/
def withBits (n : Nat) (c : Cursor) (part : Part) (k : BitVec n → Cursor → Decoded) : Decoded :=
  match c.readBits n with
  | .ok (v, c') => k v c'
  | .error why => .stop why part c.pos

/-- Decode one symbol of `t` and go on. -/
def withSymbol (t : Table) (c : Cursor) (k : Nat → Cursor → Decoded) : Decoded :=
  match t.decode c with
  | .sym v c' => k v c'
  | .stop why c' => .stop why .nothing c'.pos

/-- ENV (30_encoding.md R101; the length test and the reads of 45_envelope_checksum.md R341). -/
def decodeEnv (c : Cursor) : Decoded :=
  if c.remainingBytes < 2 then .stop .truncated .nothing c.pos
  else
    withBits 8 c .nothing fun cmf c =>
    withBits 8 c .nothing fun flg c => .instr (.env cmf flg) c.pos

/-- The block header instruction of a BTYPE (43_block_decoder.md R221). -/
def blkInstr (btype : BitVec 2) (bfinal : Bool) : Instr :=
  if btype = 0 then .blkStored bfinal
  else if btype = 1 then .blkFixed bfinal
  else if btype = 2 then .blkDynamic bfinal
  else .blkReserved bfinal

/-- BLK_* (30_encoding.md R102). -/
def decodeBlkHdr (c : Cursor) : Decoded :=
  withBits 1 c .nothing fun f c =>
  withBits 2 c (.blk (f == 1)) fun t c => .instr (blkInstr t (f == 1)) c.pos

/-- STORED: align, LEN, NLEN (30_encoding.md R103, 43_block_decoder.md R226). -/
def decodeStored (c : Cursor) : Decoded :=
  withBits 16 c.align .nothing fun len c =>
  withBits 16 c (.slen len) fun nlen c => .instr (.stored len nlen) c.pos

/-- `k` more CLLENS fields after those read (30_encoding.md R104 row 4). -/
def decodeCllens (hlit hdist : BitVec 5) (hclen : BitVec 4) : Nat → List (BitVec 3) → Cursor → Decoded
  | 0, got, c => .instr (.dynHdr hlit hdist hclen got) c.pos
  | k + 1, got, c =>
    withBits 3 c (.cllens hlit hdist hclen got) fun x c =>
      decodeCllens hlit hdist hclen k (got ++ [x]) c

/-- DYN_HDR (30_encoding.md R104 rows 1 to 4). -/
def decodeDynHdr (c : Cursor) : Decoded :=
  withBits 5 c .nothing fun hlit c =>
  withBits 5 c (.hlit hlit) fun hdist c =>
  withBits 4 c (.hdist hlit hdist) fun hclen c =>
  decodeCllens hlit hdist hclen (hclen.toNat + 4) [] c

/-- The operand of a code-length symbol (30_encoding.md R105); with `first`, symbol 16 reads no extra field
(42_dynamic_table.md R199). -/
def decodeClOperand (first : Bool) (v : Nat) (c : Cursor) : Decoded :=
  if v < 16 then .instr (.clLen (BitVec.ofNat 4 v)) c.pos
  else match v with
    | 16 => if first then .instr (.clRep 0) c.pos else withBits 2 c .nothing fun x c => .instr (.clRep x) c.pos
    | 17 => withBits 3 c .nothing fun x c => .instr (.clZero3 x) c.pos
    | 18 => withBits 7 c .nothing fun x c => .instr (.clZero11 x) c.pos
    | _ => .stop .undefinedSymbol .nothing c.pos

/-- The operand of a literal/length symbol (30_encoding.md R106; LEN_EXTRA widths of 43_block_decoder.md R240 to R268). -/
def decodeLitLenOperand (v : Nat) (c : Cursor) : Decoded :=
  if v < 256 then .instr (.lit (BitVec.ofNat 8 v)) c.pos
  else match v with
    | 256 => .instr .eob c.pos
    | 257 => .instr .len257 c.pos
    | 258 => .instr .len258 c.pos
    | 259 => .instr .len259 c.pos
    | 260 => .instr .len260 c.pos
    | 261 => .instr .len261 c.pos
    | 262 => .instr .len262 c.pos
    | 263 => .instr .len263 c.pos
    | 264 => .instr .len264 c.pos
    | 265 => withBits 1 c .nothing fun x c => .instr (.len265 x) c.pos
    | 266 => withBits 1 c .nothing fun x c => .instr (.len266 x) c.pos
    | 267 => withBits 1 c .nothing fun x c => .instr (.len267 x) c.pos
    | 268 => withBits 1 c .nothing fun x c => .instr (.len268 x) c.pos
    | 269 => withBits 2 c .nothing fun x c => .instr (.len269 x) c.pos
    | 270 => withBits 2 c .nothing fun x c => .instr (.len270 x) c.pos
    | 271 => withBits 2 c .nothing fun x c => .instr (.len271 x) c.pos
    | 272 => withBits 2 c .nothing fun x c => .instr (.len272 x) c.pos
    | 273 => withBits 3 c .nothing fun x c => .instr (.len273 x) c.pos
    | 274 => withBits 3 c .nothing fun x c => .instr (.len274 x) c.pos
    | 275 => withBits 3 c .nothing fun x c => .instr (.len275 x) c.pos
    | 276 => withBits 3 c .nothing fun x c => .instr (.len276 x) c.pos
    | 277 => withBits 4 c .nothing fun x c => .instr (.len277 x) c.pos
    | 278 => withBits 4 c .nothing fun x c => .instr (.len278 x) c.pos
    | 279 => withBits 4 c .nothing fun x c => .instr (.len279 x) c.pos
    | 280 => withBits 4 c .nothing fun x c => .instr (.len280 x) c.pos
    | 281 => withBits 5 c .nothing fun x c => .instr (.len281 x) c.pos
    | 282 => withBits 5 c .nothing fun x c => .instr (.len282 x) c.pos
    | 283 => withBits 5 c .nothing fun x c => .instr (.len283 x) c.pos
    | 284 => withBits 5 c .nothing fun x c => .instr (.len284 x) c.pos
    | 285 => .instr .len285 c.pos
    | 286 => .instr .len286 c.pos
    | 287 => .instr .len287 c.pos
    | _ => .stop .undefinedSymbol .nothing c.pos

/-- The operand of a distance symbol (30_encoding.md R106; DIST_EXTRA widths of 43_block_decoder.md R270 to R299). -/
def decodeDistOperand (v : Nat) (c : Cursor) : Decoded :=
  match v with
  | 0 => .instr .dist0 c.pos
  | 1 => .instr .dist1 c.pos
  | 2 => .instr .dist2 c.pos
  | 3 => .instr .dist3 c.pos
  | 4 => withBits 1 c .nothing fun y c => .instr (.dist4 y) c.pos
  | 5 => withBits 1 c .nothing fun y c => .instr (.dist5 y) c.pos
  | 6 => withBits 2 c .nothing fun y c => .instr (.dist6 y) c.pos
  | 7 => withBits 2 c .nothing fun y c => .instr (.dist7 y) c.pos
  | 8 => withBits 3 c .nothing fun y c => .instr (.dist8 y) c.pos
  | 9 => withBits 3 c .nothing fun y c => .instr (.dist9 y) c.pos
  | 10 => withBits 4 c .nothing fun y c => .instr (.dist10 y) c.pos
  | 11 => withBits 4 c .nothing fun y c => .instr (.dist11 y) c.pos
  | 12 => withBits 5 c .nothing fun y c => .instr (.dist12 y) c.pos
  | 13 => withBits 5 c .nothing fun y c => .instr (.dist13 y) c.pos
  | 14 => withBits 6 c .nothing fun y c => .instr (.dist14 y) c.pos
  | 15 => withBits 6 c .nothing fun y c => .instr (.dist15 y) c.pos
  | 16 => withBits 7 c .nothing fun y c => .instr (.dist16 y) c.pos
  | 17 => withBits 7 c .nothing fun y c => .instr (.dist17 y) c.pos
  | 18 => withBits 8 c .nothing fun y c => .instr (.dist18 y) c.pos
  | 19 => withBits 8 c .nothing fun y c => .instr (.dist19 y) c.pos
  | 20 => withBits 9 c .nothing fun y c => .instr (.dist20 y) c.pos
  | 21 => withBits 9 c .nothing fun y c => .instr (.dist21 y) c.pos
  | 22 => withBits 10 c .nothing fun y c => .instr (.dist22 y) c.pos
  | 23 => withBits 10 c .nothing fun y c => .instr (.dist23 y) c.pos
  | 24 => withBits 11 c .nothing fun y c => .instr (.dist24 y) c.pos
  | 25 => withBits 11 c .nothing fun y c => .instr (.dist25 y) c.pos
  | 26 => withBits 12 c .nothing fun y c => .instr (.dist26 y) c.pos
  | 27 => withBits 12 c .nothing fun y c => .instr (.dist27 y) c.pos
  | 28 => withBits 13 c .nothing fun y c => .instr (.dist28 y) c.pos
  | 29 => withBits 13 c .nothing fun y c => .instr (.dist29 y) c.pos
  | 30 => .instr .dist30 c.pos
  | 31 => .instr .dist31 c.pos
  | _ => .stop .undefinedSymbol .nothing c.pos

/-- TRAILER: align, then four bytes, big-endian; `adler_read` holds the bytes read so far (30_encoding.md R107,
45_envelope_checksum.md R348, R349). -/
def decodeTrailer (c : Cursor) : Decoded :=
  withBits 8 c.align (.adler 0) fun b0 c =>
  withBits 8 c (.adler (BitVec.ofNat 32 (bigEndian [b0]))) fun b1 c =>
  withBits 8 c (.adler (BitVec.ofNat 32 (bigEndian [b0, b1]))) fun b2 c =>
  withBits 8 c (.adler (BitVec.ofNat 32 (bigEndian [b0, b1, b2]))) fun b3 c =>
  .instr (.trailer (BitVec.ofNat 32 (bigEndian [b0, b1, b2, b3]))) c.pos

/-- The decoder: the instruction that starts at bit `off` of the bytes, in a context (30_encoding.md R110). -/
def decode (ctx : Ctx) (off : Nat) (bytes : List Byte) : Decoded :=
  match ctx with
  | .env => decodeEnv ⟨bytes, off⟩
  | .blkHdr => decodeBlkHdr ⟨bytes, off⟩
  | .stored => decodeStored ⟨bytes, off⟩
  | .dynHdr => decodeDynHdr ⟨bytes, off⟩
  | .clSym t first => withSymbol t ⟨bytes, off⟩ (decodeClOperand first)
  | .litLen t => withSymbol t ⟨bytes, off⟩ decodeLitLenOperand
  | .dist t => withSymbol t ⟨bytes, off⟩ decodeDistOperand
  | .trailer => decodeTrailer ⟨bytes, off⟩

/-- The zero bits an encoder puts before a byte-aligned element that follows bit `off` (30_encoding.md R103, R107). -/
def padBits (off : Nat) : List Bool := List.replicate (alignUp off - off) false

/-- The bits of an instruction in stream order, for an element that starts at bit `off` in a context
(30_encoding.md R101 to R107). -/
def encode (ctx : Ctx) (off : Nat) (i : Instr) : List Bool :=
  match i.shape with
  | .env cmf flg => bitsLsb cmf ++ bitsLsb flg
  | .blk btype bfinal => bfinal :: bitsLsb btype
  | .stored len nlen => padBits off ++ (bitsLsb len ++ bitsLsb nlen)
  | .dynHdr hlit hdist hclen cllens =>
    bitsLsb hlit ++ (bitsLsb hdist ++ (bitsLsb hclen ++ cllens.flatMap bitsLsb))
  | .coded _ v width extra =>
    ctx.codeBits v ++ if ctx.noExtra v then [] else bitsLsb (BitVec.ofNat width extra)
  | .trailer value =>
    padBits off ++ (bitsLsb (value.extractLsb' 24 8) ++ (bitsLsb (value.extractLsb' 16 8) ++
      (bitsLsb (value.extractLsb' 8 8) ++ bitsLsb (value.extractLsb' 0 8))))

/-- The low `n` bits of a number, least significant first. -/
def natBits (n w : Nat) : List Bool := bitsLsb (BitVec.ofNat n w)

/-- An opcode_table.json word as a context and the stream bits it stands for (log 10). The table numbers an envelope as
`CMF*256 + FLG`, a Huffman code as its MSB-first number, a trailer big-endian, and every other row LSB-first. The word
alone does not select a class (30_encoding.md R110), and a row's width is given in whole bytes too, so where several
classes share a width one of them is taken by the row's own fixed bits. -/
def tableElement (nbits w : Nat) : Option (Ctx × List Bool) :=
  match nbits with
  | 3 => some (.blkHdr, natBits 3 w)
  | 5 => some (.dist Table.fixedDist, bitsMsb 5 w)
  | 7 => some (.litLen Table.fixedLit, bitsMsb 7 w)
  | 8 =>
    if w == 2 || w == 4 || w == 6 then some (.blkHdr, natBits 3 w)
    else if w < 0x18 then some (.litLen Table.fixedLit, bitsMsb 7 w)
    else if w < 0x20 then some (.dist Table.fixedDist, bitsMsb 5 w)
    else some (.litLen Table.fixedLit, bitsMsb 8 w)
  | 9 => some (.litLen Table.fixedLit, bitsMsb 9 w)
  | 14 => some (.dynHdr, natBits 14 w)
  | 16 =>
    if w &&& 0x0F20 == 0x0800 || 0x4000 ≤ w then some (.env, natBits 8 (w >>> 8) ++ natBits 8 w)
    else some (.dynHdr, natBits 14 w)
  | 32 =>
    if BitVec.ofNat 16 (w >>> 16) = ~~~BitVec.ofNat 16 w then some (.stored, natBits 32 w)
    else some (.trailer, natBits 8 (w >>> 24) ++ (natBits 8 (w >>> 16) ++ (natBits 8 (w >>> 8) ++ natBits 8 w)))
  | _ => none

/-- The instruction the decoder reads from an opcode_table.json word, zero bits after it (log 10). -/
def decodeTableWord (nbits w : Nat) : Option Instr :=
  match tableElement nbits w with
  | none => none
  | some (ctx, bits) =>
    match decode ctx 0 (packBytes Config.windowBytes bits) with
    | .instr i _ => some i
    | .stop _ _ _ => none

end Sys2Proof
end

