-- ==== Sys2Proof/Machine/Fetch.lean ====
section
/-! DEFINITION. Fetching an instruction: what class comes next, which input bytes are in view, and what a fetch that stops
does. -/

namespace Sys2Proof.Machine

/-- What a step does next. -/
inductive Select where
  /-- `IDLE`, `DONE` and `ERROR` take no step (60_exceptions.md R393). -/
  | quiet
  /-- An instruction of this context is next. -/
  | ctx (c : Ctx)
  /-- A symbol is next but its table slot is absent. -/
  | noTable
  deriving DecidableEq, Repr

/-- A symbol of the slot's table is next, if the slot holds one. -/
def Select.fromSlot (slot : Option Table) (mk : Table → Ctx) : Select :=
  match slot with
  | some t => .ctx (mk t)
  | none => .noTable

/-- The class of the next instruction (30_encoding.md R110): `fsm` selects it, and inside a back-reference the distance
symbol follows the length symbol. -/
def State.select (s : State) : Select :=
  match s.fsm with
  | .idle => .quiet
  | .env => .ctx .env
  | .blkHdr => .ctx .blkHdr
  | .stored => .ctx .stored
  | .dynHdr => .ctx .dynHdr
  | .dynLens => .fromSlot s.clTab fun t => .clSym t (s.n == 0)
  | .symbol => if s.distNext then .fromSlot s.distTab .dist else .fromSlot s.litTab .litLen
  | .trailer => .ctx .trailer
  | .done => .quiet
  | .error => .quiet

/-- How many input bytes are in view: up to `end_offset`, at most `Config.windowBytes` (log 14). -/
def State.windowSize (s : State) : Nat := min Config.windowBytes s.remainingBytes

/-- The input bytes in view from `byte_offset` on, up to the first one the host never wrote. -/
def State.window (s : State) : List Byte := Memory.readRun s.inMem s.byteOffset s.windowSize

/-- The view ends at a byte the host never wrote, before `end_offset` (log 2). -/
def State.windowCut (s : State) : Bool := decide (s.window.length < s.windowSize)

/-- The cursor moves to bit `pos` of the view. -/
def State.seek (s : State) (pos : Nat) : State := { s with pc := 8 * s.byteOffset + pos }

/-- The register writes of the reads that completed before a read stopped (60_exceptions.md R372; log 18). -/
def State.applyPart (s : State) (p : Part) : State :=
  match p with
  | .nothing => s
  | .blk f => { s with bfinal := f }
  | .slen len => { s with slen := len }
  | .hlit x => { s with hlit := hlitOf x }
  | .hdist x y => { s with hlit := hlitOf x, hdist := hdistOf y }
  | .cllens x y z cllens => s.setDynHdr x y z cllens
  | .adler v => { s with adlerRead := v }

/-- A fetch that stops: the error kind the stopped read raises, or a model fault where the host's duty is broken
(60_exceptions.md R375, R380, R383). DESIGN CHOICE (log 25): where the view ends early at a byte the host never wrote, a
read that goes past it is that fault, also if the read goes past `end_offset` too (40_bit_cursor.md R141 alone would
raise `TruncatedInput`). -/
def stopFetch (why : Stop) (p : Part) (pos : Nat) (s : State) : Result :=
  match why with
  | .truncated =>
    if s.windowCut then .fault .inputUnwritten
    else .next (State.raise ((s.seek pos).applyPart p) .truncatedInput)
  | .noMatchingCode => .next (State.raise ((s.seek pos).applyPart p) .noMatchingCode)
  | .undefinedSymbol => .next (State.raise ((s.seek pos).applyPart p) .logicError)
  | .tooWide n => .refused (.readTooWide n)

/-- The state in which an instruction of this context is the next one, its table in its slot. -/
def State.forCtx (s : State) (c : Ctx) : State :=
  match c with
  | .env => { s with fsm := .env, distNext := false }
  | .blkHdr => { s with fsm := .blkHdr, distNext := false }
  | .stored => { s with fsm := .stored, distNext := false }
  | .dynHdr => { s with fsm := .dynHdr, distNext := false }
  | .clSym t _ => { s with fsm := .dynLens, clTab := some t, distNext := false }
  | .litLen t => { s with fsm := .symbol, litTab := some t, distTab := some Table.fixedDist, distNext := false }
  | .dist t => { s with fsm := .symbol, distTab := some t, distNext := true }
  | .trailer => { s with fsm := .trailer, distNext := false }

/-- Input bytes placed at the next byte boundary, the cursor at their first bit, and the input ending after them. -/
def State.placeInput (s : State) (bytes : List Byte) : State :=
  let a := alignUp s.pc / 8
  { s with
    inMem := Memory.writeAll s.inMem a bytes
    pc := 8 * a
    endOffset := a + bytes.length
    inLen := BitVec.ofNat 32 (a + bytes.length) }

/-- A state whose next step runs the instruction of an opcode_table.json word (log 9, log 10). -/
def State.placeTableWord (s : State) (nbits w : Nat) : State :=
  match tableElement nbits w with
  | none => s
  | some (c, bits) => (s.forCtx c).placeInput (packBytes Config.windowBytes bits)

end Sys2Proof.Machine
end

