-- ==== Sys2Proof/Machine/Step.lean ====
section
/-! DEFINITION. The step. One step is one element of the stream (70_reset_and_hazards.md R413): one instruction, but a
length symbol's step runs its distance symbol too (43_block_decoder.md R230; log 1). -/

namespace Sys2Proof.Machine

/-- Fetch one instruction, move the cursor past it, and run it. -/
def fetchExec (s : State) : Host.Outcome State Fault Refusal :=
  match s.select with
  | .quiet => .next s
  | .noTable => .fault .tableAbsent
  | .ctx c =>
    match decode c s.bitOffset s.window with
    | .instr i pos => exec i (s.seek pos)
    | .stop why p pos => stopFetch why p pos s

/-- After a length symbol the same step fetches and runs the distance symbol (43_block_decoder.md R233, R234). -/
def finishElement (r : Host.Outcome State Fault Refusal) : Host.Outcome State Fault Refusal :=
  match r with
  | .next t => if t.distNext then fetchExec t else .next t
  | .fault f => .fault f
  | .refused f => .refused f

/-- One step of the core. -/
def step (s : State) : Host.Outcome State Fault Refusal := finishElement (fetchExec s)

/-- `s` with an opcode_table.json word placed where the next step fetches (log 9, log 10). -/
def State.withFetchWord (s : State) (nbits w : Nat) : State := s.placeTableWord nbits w

end Sys2Proof.Machine
end

