-- ==== Sys2Proof/Machine/Assembler.lean ====
section
/-! DEFINITION. The assembler notation and the pseudo-instructions (30_encoding.md R114, R115). They add no behaviour: each
expands to instructions. -/

namespace Sys2Proof

/-- The last row of a base/extra table whose range holds `n`, and the extra value (30_encoding.md R115: 258 is spelled
by symbol 285). -/
def rowFor (tab : List (Nat × Nat)) (n : Nat) : Option (Nat × Nat) :=
  ((List.range tab.length).reverse.find? fun k =>
    decide (rowBase tab k ≤ n) && decide (n < rowBase tab k + 2 ^ (tab.getD k (0, 0)).2)).map fun k =>
    (k, n - rowBase tab k)

/-- The instruction an operand decoder reads from an extra value. -/
def withExtra (operand : Cursor → Decoded) (x : Nat) : Option Instr :=
  match operand ⟨packBytes 2 (natBits 16 x), 0⟩ with
  | .instr i _ => some i
  | .stop _ _ _ => none

/-- `LEN s +x` for a length 3..258 (30_encoding.md R115). -/
def lenInstr (len : Nat) : Option Instr :=
  match rowFor lenTab len with
  | some (k, x) => withExtra (decodeLitLenOperand (257 + k)) x
  | none => none

/-- `DIST d +y` for a distance 1..32768 (30_encoding.md R115). -/
def distInstr (dist : Nat) : Option Instr :=
  match rowFor distTab dist with
  | some (k, y) => withExtra (decodeDistOperand k) y
  | none => none

/-- `MATCH len dist` (30_encoding.md R115). -/
def matchInstrs (len dist : Nat) : Option (List Instr) :=
  match lenInstr len, distInstr dist with
  | some i, some j => some [i, j]
  | _, _ => none

/-- `CLZERO n`: symbol 17 for 3..10, symbol 18 for 11..138 (30_encoding.md R114). -/
def clZeroInstr (n : Nat) : Instr :=
  if n ≤ 10 then .clZero3 (BitVec.ofNat 3 (n - 3)) else .clZero11 (BitVec.ofNat 7 (n - 11))

/-- Counts of at least 3 and at most `top` that sum to `n`, as few as there can be, for `n ≥ 3`. DESIGN CHOICE (log 24):
30_encoding.md R115 does not say which of several splits is taken; this one takes `top` as often as it can and ends, where
less than 3 would remain, with `n - 3` and 3. -/
def splitCount (top : Nat) : Nat → Nat → List Nat
  | 0, _ => []
  | fuel + 1, n =>
    if n ≤ top then [n]
    else if n < top + 3 then [n - 3, 3]
    else top :: splitCount top fuel (n - top)

/-- `ZEROS n` (30_encoding.md R115). -/
def zerosInstrs (n : Nat) : Option (List Instr) :=
  if n < 3 then none else some ((splitCount 138 n n).map clZeroInstr)

/-- `REPEAT n` (30_encoding.md R115). -/
def repeatInstrs (n : Nat) : Option (List Instr) :=
  if n < 3 then none else some ((splitCount 6 n n).map fun r => .clRep (BitVec.ofNat 2 (r - 3)))

/-- `TRAILER auto` for an output (30_encoding.md R115). -/
def trailerAuto (output : List Byte) : Instr := .trailer (Machine.adler output)

/-- The name of a block type (30_encoding.md R114). -/
def blkName (btype : BitVec 2) : String :=
  if btype = 0 then "STORED" else if btype = 1 then "FIXED" else if btype = 2 then "DYNAMIC" else "RESERVED"

/-- One line of the notation; `data` is the data of a stored block (30_encoding.md R114). -/
def Instr.listing (i : Instr) (data : List Byte) : String :=
  match i.shape with
  | .env cmf flg => "ENV cmf=" ++ cmf.toHex ++ " flg=" ++ flg.toHex
  | .blk btype f => "BLOCK final=" ++ (if f then "1" else "0") ++ " type=" ++ blkName btype
  | .stored len nlen =>
    "STORED len=" ++ toString len.toNat ++ " nlen=" ++ toString nlen.toNat ++ " data=" ++
      " ".intercalate (data.map BitVec.toHex)
  | .dynHdr hlit hdist hclen cllens =>
    "DYNHDR hlit=" ++ toString (hlitOf hlit).toNat ++ " hdist=" ++ toString (hdistOf hdist).toNat ++ " hclen=" ++
      toString (hclenOf hclen).toNat ++ " cl=[" ++ ",".intercalate (cllens.map fun x => toString x.toNat) ++ "]"
  | .coded .cl v _ x =>
    if v < 16 then "CL " ++ toString v
    else if v = 16 then "CLREP " ++ toString (3 + x)
    else if v = 17 then "CLZERO " ++ toString (3 + x)
    else "CLZERO " ++ toString (11 + x)
  | .coded .litLen v _ x =>
    if v < 256 then "LIT " ++ toString v
    else if v = 256 then "EOB"
    else "LEN " ++ toString v ++ " +" ++ toString x
  | .coded .dist v _ y => "DIST " ++ toString v ++ " +" ++ toString y
  | .trailer value => "TRAILER " ++ value.toHex

end Sys2Proof
end

