-- ==== Sys2Proof/Machine/HostPort.lean ====
section
/-! DEFINITION. The host: its register accesses (10_state.md R45 to R54), its accesses to IN and OUT
(70_reset_and_hazards.md R404 to R406), hardware reset (R400) and the boot order (R404). The host acts between steps
(log 20). -/

namespace Sys2Proof.Machine

/-- A host read answers a value and the state after it. -/
abbrev ReadResult (α : Type) := Host.Outcome (α × State) Fault Refusal

/-- The host registers by byte offset (10_state.md R45). -/
inductive HostReg where
  | ctrl
  | status
  | inLen
  | outLimit
  | outLen
  | cursor
  | adlerCalc
  | adlerRead
  deriving DecidableEq, Repr

/-- The register at a byte offset (10_state.md R45). -/
def hostRegAt (off : Nat) : Option HostReg :=
  match off with
  | 0x00 => some .ctrl
  | 0x04 => some .status
  | 0x08 => some .inLen
  | 0x0C => some .outLimit
  | 0x10 => some .outLen
  | 0x14 => some .cursor
  | 0x18 => some .adlerCalc
  | 0x1C => some .adlerRead
  | _ => none

/-- "Any value": a free word, and the counter moves on (log 5). -/
def State.takeFreeWord (s : State) : Word × State :=
  (Config.freeWord s.freeReads, { s with freeReads := s.freeReads + 1 })

/-- "Any value": a free byte, and the counter moves on (log 5). -/
def State.takeFreeByte (s : State) : Byte × State :=
  (Config.freeByte s.freeReads, { s with freeReads := s.freeReads + 1 })

/-- OUT_LEN is meaningful: no run is in progress, none ended in an error, and the length fits the register (10_state.md
R50, 70_reset_and_hazards.md R406; a length of 2^32 or more, which only an argument of R13 allows, is log 11's). -/
def State.outLenMeans (s : State) : Bool := !s.busy && !s.isError && decide (s.outLen < 2 ^ 32)

/-- ADLER_CALC is meaningful: after reset, at `DONE`, and at `ERROR` with `ChecksumMismatch` (10_state.md R52;
log 5, log 6). -/
def State.adlerCalcMeans (s : State) : Bool := !s.busy && (!s.isError || s.err == .checksumMismatch)

/-- What a register reads, and the state after the read (10_state.md R46 to R53; R406 of 70_reset_and_hazards.md for
reads during a run). -/
def State.regRead (s : State) (r : HostReg) : Word × State :=
  match r with
  | .ctrl => (0, s)
  | .status => (s.status, s)
  | .inLen => (s.inLen, s)
  | .outLimit => (s.outLimit, s)
  | .outLen => if s.outLenMeans then (BitVec.ofNat 32 s.outLen, s) else s.takeFreeWord
  | .cursor => if s.busy then s.takeFreeWord else (BitVec.ofNat 32 s.pc, s)
  | .adlerCalc => if s.adlerCalcMeans then (s.adlerCalc, s) else s.takeFreeWord
  | .adlerRead => (s.adlerRead, s)

/-- What writing a register does (10_state.md R46 to R53; 70_reset_and_hazards.md R401, R402). -/
def State.regWrite (s : State) (r : HostReg) (v : Word) : State :=
  match r with
  | .ctrl => if v.getLsbD 0 && !s.busy then s.start else s
  | .inLen => if s.busy then s else { s with inLen := v }
  | .outLimit => if s.busy then s else { s with outLimit := v }
  | .status => s
  | .outLen => s
  | .cursor => s
  | .adlerCalc => s
  | .adlerRead => s

/-- A 32-bit aligned access of 32 bits (10_state.md R45, R54). -/
def wordAccess (off width : Nat) : Bool := width == 32 && off % 4 == 0

/-- A host read of `width` bits at an offset from CORE_BASE, in a register window of `size` bytes (10_state.md R45,
R54). -/
def hostReadAt (size off width : Nat) (s : State) : ReadResult Word :=
  if wordAccess off width then
    match hostRegAt off with
    | some r => .next (s.regRead r)
    | none => if off < size then .next (0, s) else .fault .hostOutsideWindow
  else .fault .hostNarrowAccess

/-- A host write of `width` bits at an offset from CORE_BASE, in a register window of `size` bytes (10_state.md R45,
R54). -/
def hostWriteAt (size off width : Nat) (v : Word) (s : State) : Result :=
  if wordAccess off width then
    match hostRegAt off with
    | some r => .next (s.regWrite r v)
    | none => if off < size then .next s else .fault .hostOutsideWindow
  else .fault .hostNarrowAccess

/-- A host read in the core's own window, CORE_SIZE bytes. -/
def hostRead (off width : Nat) (s : State) : ReadResult Word := hostReadAt Config.coreSize off width s

/-- A host write in the core's own window, CORE_SIZE bytes. -/
def hostWrite (off width : Nat) (v : Word) (s : State) : Result := hostWriteAt Config.coreSize off width v s

/-- An offset of IN or OUT (00_scope.md R14: 32-bit offsets). -/
def spaceOffset (a : Nat) : Bool := decide (a < 2 ^ 32)

/-- The host writes an input byte; during a run that is a fault of the host program (70_reset_and_hazards.md R404,
R405). -/
def hostWriteIn (a : Nat) (b : Byte) (s : State) : Result :=
  if !spaceOffset a then .fault .hostOutsideWindow
  else if s.busy then .fault .hostWriteDuringRun
  else .next { s with inMem := Memory.write s.inMem a b }

/-- The host writes an output byte; during a run that is a fault of the host program (70_reset_and_hazards.md R405).
DESIGN CHOICE (log 23): the spec does not say what such a write does while no run is in progress; here it writes the byte,
below `out_len` too. -/
def hostWriteOut (a : Nat) (b : Byte) (s : State) : Result :=
  if !spaceOffset a then .fault .hostOutsideWindow
  else if s.busy then .fault .hostWriteDuringRun
  else .next { s with outMem := Memory.write s.outMem a b }

/-- The host reads an output byte: the byte of the result at `DONE` below `out_len`, else any value
(44_output_buffer.md R329, 20_memory.md R95, 70_reset_and_hazards.md R406, 93_implementation_defined.md I8). -/
def hostReadOut (a : Nat) (s : State) : ReadResult Byte :=
  if !spaceOffset a then .fault .hostOutsideWindow
  else if s.isDone && decide (a < s.outLen) then
    match Memory.read s.outMem a with
    | some b => .next (b, s)
    | none => .fault .outputUnwritten
  else .next s.takeFreeByte

/-- Hardware reset: every element of the core at its reset value (70_reset_and_hazards.md R400, 10_state.md R58). IN, which
R58 calls no core state, stays (log 13), and so does the argument of the model that may give `OUT_LIMIT` (log 11). The
counter of the free values goes on, so that no free value is taken twice (log 5). -/
def hardwareReset (s : State) : State :=
  { State.reset with inMem := s.inMem, limitBy := s.limitBy, freeReads := s.freeReads }

/-- What the host can do between two steps. -/
inductive HostOp where
  | read (off width : Nat)
  | write (off width : Nat) (v : Word)
  | writeIn (a : Nat) (b : Byte)
  | writeOut (a : Nat) (b : Byte)
  | readOut (a : Nat)
  | hardwareReset
  deriving DecidableEq, Repr

/-- The state after a host read. -/
def afterRead {α : Type} (r : ReadResult α) : Result :=
  match r with
  | .next p => .next p.2
  | .fault f => .fault f
  | .refused f => .refused f

/-- One act of the host. -/
def hostStep (op : HostOp) (s : State) : Result :=
  match op with
  | .read off width => afterRead (hostRead off width s)
  | .write off width v => hostWrite off width v s
  | .writeIn a b => hostWriteIn a b s
  | .writeOut a b => hostWriteOut a b s
  | .readOut a => afterRead (hostReadOut a s)
  | .hardwareReset => .next (hardwareReset s)

/-- Several acts of the host in order. -/
def hostSteps : List HostOp → State → Result
  | [], s => .next s
  | op :: ops, s => andThen (hostStep op s) (hostSteps ops)

/-- Writing the input bytes from offset `a` on. -/
def writeInOps : Nat → List Byte → List HostOp
  | _, [] => []
  | a, b :: bs => .writeIn a b :: writeInOps (a + 1) bs

/-- The boot order, steps 1, 2 and 4 (70_reset_and_hazards.md R404): the input, IN_LEN, OUT_LIMIT, START. -/
def bootOps (input : List Byte) (limit : Word) : List HostOp :=
  writeInOps 0 input ++
    [.write 0x08 32 (BitVec.ofNat 32 input.length), .write 0x0C 32 limit, .write 0x00 32 1]

end Sys2Proof.Machine
end

