-- ==== Sys2Proof/Safety.lean ====
section
/-! DEFINITION. What the claims speak of: the invariant of the core, the host's duty, and the shape of a back-reference. -/

namespace Sys2Proof

/-- A table that `build` made from at most `k` code lengths of `0..15` (10_state.md R34, R35; 00_scope.md R6). -/
def Table.BuiltFrom (t : Table) (k : Nat) : Prop :=
  ∃ lens : List Nat, lens.length ≤ k ∧ (∀ l ∈ lens, l ≤ 15) ∧ Table.build lens = some t

/-- The active table of a context, if it has one, is one that `build` made, its values in 11 bits (00_scope.md R7). -/
def Ctx.TableBuilt (c : Ctx) : Prop := ∀ t, c.table? = some t → t.BuiltFrom (2 ^ 11)

namespace Machine

/-- Which table slots hold a table in which control state (10_state.md R35, 70_reset_and_hazards.md R410). -/
def State.slotsOk (s : State) : Bool :=
  s.litTab.isSome == (s.fsm == .symbol) && s.distTab.isSome == (s.fsm == .symbol) &&
    s.clTab.isSome == (s.fsm == .dynLens)

/-- The invariant of the core at step boundaries. -/
structure State.Inv (s : State) : Prop where
  /-- IN is in canonical form. -/
  inWf : Memory.wf s.inMem
  /-- OUT is in canonical form. -/
  outWf : Memory.wf s.outMem
  /-- The cursor is inside the input (10_state.md R32). -/
  cursor : s.pc ≤ 8 * s.endOffset
  /-- `end_offset = IN_LEN` for the whole run (10_state.md R31). -/
  endIsLen : s.busy = true → s.endOffset = s.inLen.toNat
  /-- Every byte of the output so far holds a value (20_memory.md R74, R76). -/
  outWritten : ∀ a, a < s.outLen → (Memory.read s.outMem a).isSome = true
  /-- The output keeps to its limit (44_output_buffer.md R324). -/
  outBounded : s.busy = true → ∀ n, s.limit = some n → s.outLen ≤ n
  /-- The slots hold tables exactly where a block needs them. -/
  slots : s.slotsOk = true
  litBuilt : ∀ t, s.litTab = some t → t.BuiltFrom 288
  distBuilt : ∀ t, s.distTab = some t → t.BuiltFrom 32
  clBuilt : ∀ t, s.clTab = some t → t.BuiltFrom 19
  /-- During the code-length sequence the announced sizes are in range and the sequence is not full (42_dynamic_table.md
  R191, R194). -/
  lensOpen : s.fsm = .dynLens →
    257 ≤ s.hlit.toNat ∧ s.hlit.toNat ≤ 288 ∧ 1 ≤ s.hdist.toNat ∧ s.hdist.toNat ≤ 32 ∧ s.n < s.lensTotal
  clLenSize : s.clLen.length = 19
  /-- `err` is `None` exactly outside `ERROR` (10_state.md R43). -/
  errIff : s.err = .none ↔ s.fsm ≠ .error
  /-- The accumulators are reduced (10_state.md R41). -/
  sums : s.s1.toNat < 65521 ∧ s.s2.toNat < 65521
  /-- A distance symbol is next only inside a back-reference, whose length is 3..258 (43_block_decoder.md R303). -/
  midElement : s.distNext = true → s.fsm = .symbol ∧ 3 ≤ s.mlen.toNat ∧ s.mlen.toNat ≤ 258

/-- The host has done its duty: every input byte below `end_offset` is written (70_reset_and_hazards.md R404 step 1). -/
def State.InputWritten (s : State) : Prop := ∀ a, a < s.endOffset → (Memory.read s.inMem a).isSome = true

/-- The run ends, in `DONE` or `ERROR`, within `k` steps (70_reset_and_hazards.md R414, R415). -/
def State.EndsWithin (s : State) (k : Nat) : Prop :=
  ∃ j t, j ≤ k ∧ Sys2Proof.core.run j s = .next t ∧ (t.fsm = .done ∨ t.fsm = .error)

/-- Executing `i` copies back from distance `dist` (43_block_decoder.md R234 to R236, 44_output_buffer.md R323, R328):
when `1 ≤ dist ≤ out_len`, the output has room and is written below `out_len`, the instruction appends `mlen` bytes, the
`j`-th of them the byte at `out_len - dist + (j mod dist)`; every other output byte is as before, and nothing else
changes but `mdist`, `out_len`, the end of the back-reference and `fsm`. -/
def CopiesBack (i : Instr) (dist : Nat) : Prop :=
  ∀ s : State, dist ≤ s.outLen → s.overLimit s.mlen.toNat = false →
    (∀ a, a < s.outLen → (Memory.read s.outMem a).isSome = true) →
    ∃ m : Memory,
      exec i s = .next { s with
        outMem := m, outLen := s.outLen + s.mlen.toNat, mdist := BitVec.ofNat 16 dist, distNext := false,
        fsm := .symbol } ∧
      (∀ j, j < s.mlen.toNat → Memory.read m (s.outLen + j) = Memory.read s.outMem (s.outLen - dist + j % dist)) ∧
      (∀ a, a < s.outLen ∨ s.outLen + s.mlen.toNat ≤ a → Memory.read m a = Memory.read s.outMem a)

/-- Executing `i` sets the length of a back-reference and makes its distance symbol the next instruction; nothing else
changes (43_block_decoder.md R233). -/
def SetsLength (i : Instr) (len : Nat) : Prop :=
  ∀ s : State, exec i s = .next { s with mlen := BitVec.ofNat 9 len, distNext := true }

end Machine

end Sys2Proof
end

