-- ==== Sys2Proof/Certificates/Slice0/Obligations.lean ====
section
/-! DEFINITION. The statements for the provers; OBLIGATIONS.json lists them. -/

section

open Sys2Proof Sys2Proof.Machine

/-! ### The bit cursor -/

/-- R141, R142, R143: a read of `n ≤ 32` bits stops with `TruncatedInput` if fewer remain, else its bit `i` is stream bit
`pos + i` and the cursor moves past it; zero bits always read as 0; a wider read is refused (R147). -/
def Obligations.ReadBitsReadsTheField : Prop :=
  (∀ (n : Nat) (c : Cursor), n ≤ 32 → 8 * c.bytes.length < c.pos + n → c.readBits n = .error .truncated) ∧
  (∀ (n : Nat) (c : Cursor), n ≤ 32 → c.pos + n ≤ 8 * c.bytes.length →
    ∃ v : BitVec n, c.readBits n = .ok (v, { c with pos := c.pos + n }) ∧
      ∀ i, i < n → v.getLsbD i = streamBit c.bytes (c.pos + i)) ∧
  (∀ c : Cursor, c.pos ≤ 8 * c.bytes.length → c.readBits 0 = .ok (0, c)) ∧
  (∀ c : Cursor, c.pos < 8 * c.bytes.length →
    c.readBit = .ok (BitVec.ofBool (streamBit c.bytes c.pos), { c with pos := c.pos + 1 })) ∧
  (∀ c : Cursor, c.pos = 8 * c.bytes.length → c.readBit = .error .truncated) ∧
  ∀ (n : Nat) (c : Cursor), 32 < n → c.readBits n = .error (.tooWide n)

/-- R144, R145: aligning moves to the next byte boundary, stays where it is on one, and never leaves the input; a partly
consumed byte counts as remaining. -/
def Obligations.AlignAndRemainingBytes : Prop :=
  (∀ c : Cursor, c.pos % 8 = 0 → c.align = c) ∧
  (∀ c : Cursor, c.pos % 8 ≠ 0 → c.align = { c with pos := c.pos + (8 - c.pos % 8) }) ∧
  (∀ c : Cursor, c.align.pos % 8 = 0 ∧ (c.pos ≤ 8 * c.bytes.length → c.align.pos ≤ 8 * c.bytes.length)) ∧
  ∀ s : State, s.remainingBytes = s.endOffset - s.pc / 8

/-- R146: five consecutive bytes shifted right by the bit offset and cut to `n` bits are the field. -/
def Obligations.BarrelShifterReadsTheField : Prop :=
  ∀ (bytes : List Byte) (p n : Nat), n ≤ 32 → p + n ≤ 8 * bytes.length →
    (Cursor.mk bytes p).readBits n = .ok (BitVec.ofNat n (barrelShift bytes p n), ⟨bytes, p + n⟩)

/-! ### The canonical Huffman table -/

/-- R163, R164: `build` rejects exactly the sets with a populated range that does not fit its length, which are exactly
the sets whose Kraft sum exceeds 1 (here times `2 ^ 15`). -/
def Obligations.BuildRejectsOversubscribedSets : Prop :=
  ∀ lens : List Nat,
    (Table.build lens = none ↔
      ∃ len, 1 ≤ len ∧ len ≤ 15 ∧ 0 < countOf lens len ∧ 2 ^ len ≤ stopOf lens len - 1) ∧
    (Table.build lens = none ↔
      2 ^ 15 < ((List.range' 1 15).map fun len => countOf lens len * 2 ^ (15 - len)).sum)

/-- R160, R162, R165, for a length set whose values have the 11 bits of R7: in a built table a value of length `len` has
the code `start[len]` plus the number of smaller values of that length, `start` follows the recurrence of R162, and a
value of length 0 has no code. -/
def Obligations.CodesAreCanonical : Prop :=
  ∀ (lens : List Nat) (t : Table), lens.length ≤ 2 ^ 11 → Table.build lens = some t →
    (∀ v len, lens[v]? = some len → 1 ≤ len → len ≤ 15 →
      t.codeOf v = some (len, t.startAt len + (lens.take v).countP (· == len))) ∧
    (∀ v, lens[v]? = some 0 → t.codeOf v = none) ∧
    t.startAt 1 = 0 ∧
    ∀ len, 1 ≤ len → len < 15 → t.startAt (len + 1) = 2 * (t.startAt len + lens.countP (· == len))

/-- R170, for a length set whose values have the 11 bits of R7: with a built table, decoding finds a value exactly if that
value's code stands at the cursor, and moves past that code. -/
def Obligations.DecodeFindsTheCode : Prop :=
  ∀ (lens : List Nat) (t : Table) (c : Cursor), lens.length ≤ 2 ^ 11 → Table.build lens = some t →
    ∀ (v : Nat) (c' : Cursor),
    t.decode c = .sym v c' ↔
      ∃ len code, t.codeOf v = some (len, code) ∧ BitsAt c.bytes c.pos (bitsMsb len code) ∧
        c' = { c with pos := c.pos + len }

/-- R167, R168, R169, for a length set whose values have the 11 bits of R7: where no code of a built table stands, decoding
raises `NoMatchingCode` after `lmax` bits if that many remain, and `TruncatedInput` if not; a table with no symbol raises
`NoMatchingCode` at once. -/
def Obligations.DecodeWithoutACode : Prop :=
  ∀ (lens : List Nat) (t : Table) (c : Cursor), lens.length ≤ 2 ^ 11 → Table.build lens = some t →
    (∀ v len code, t.codeOf v = some (len, code) → ¬ BitsAt c.bytes c.pos (bitsMsb len code)) →
    (c.pos + t.lmax ≤ 8 * c.bytes.length →
      t.decode c = .stop .noMatchingCode { c with pos := c.pos + t.lmax }) ∧
    (0 < t.lmax → 8 * c.bytes.length < c.pos + t.lmax → ∃ c', t.decode c = .stop .truncated c') ∧
    (t.syms = [] → t.decode c = .stop .noMatchingCode c) ∧ t.lmax ≤ 15

/-- R176, R178, R180: the fixed tables are built without an error and have the codes of the tables of R176 and R178. -/
def Obligations.FixedCodes : Prop :=
  Table.build fixedLitLens = some Table.fixedLit ∧ Table.build fixedDistLens = some Table.fixedDist ∧
  (Table.fixedLit.countAt 7 = 24 ∧ Table.fixedLit.countAt 8 = 152 ∧ Table.fixedLit.countAt 9 = 112) ∧
  (Table.fixedLit.startAt 7 = 0 ∧ Table.fixedLit.startAt 8 = 0x30 ∧ Table.fixedLit.startAt 9 = 0x190) ∧
  (Table.fixedLit.syms.map fun s => s.value.toNat) =
    List.range' 256 24 ++ (List.range' 0 144 ++ (List.range' 280 8 ++ List.range' 144 112)) ∧
  (∀ v, v < 144 → Table.fixedLit.codeOf v = some (8, 0x30 + v)) ∧
  (∀ v, 144 ≤ v → v < 256 → Table.fixedLit.codeOf v = some (9, 0x190 + (v - 144))) ∧
  (∀ v, 256 ≤ v → v < 280 → Table.fixedLit.codeOf v = some (7, v - 256)) ∧
  (∀ v, 280 ≤ v → v < 288 → Table.fixedLit.codeOf v = some (8, 0xC0 + (v - 280))) ∧
  (Table.fixedDist.countAt 5 = 32 ∧ Table.fixedDist.startAt 5 = 0) ∧
  ∀ d, d < 32 → Table.fixedDist.codeOf d = some (5, d)

/-- R179: the fixed tables decode by prefix as listed, every string of 9 bits (of 5 bits) is decoded, and
`NoMatchingCode` is never raised under them. -/
def Obligations.FixedTablesDecodeEveryString : Prop :=
  (∀ (bytes : List Byte) (p x : Nat), x ≤ 0x17 → BitsAt bytes p (bitsMsb 7 x) →
    Table.fixedLit.decode ⟨bytes, p⟩ = .sym (256 + x) ⟨bytes, p + 7⟩) ∧
  (∀ (bytes : List Byte) (p x : Nat), 0x30 ≤ x → x ≤ 0xBF → BitsAt bytes p (bitsMsb 8 x) →
    Table.fixedLit.decode ⟨bytes, p⟩ = .sym (x - 0x30) ⟨bytes, p + 8⟩) ∧
  (∀ (bytes : List Byte) (p x : Nat), 0xC0 ≤ x → x ≤ 0xC7 → BitsAt bytes p (bitsMsb 8 x) →
    Table.fixedLit.decode ⟨bytes, p⟩ = .sym (280 + (x - 0xC0)) ⟨bytes, p + 8⟩) ∧
  (∀ (bytes : List Byte) (p x : Nat), 0x190 ≤ x → x ≤ 0x1FF → BitsAt bytes p (bitsMsb 9 x) →
    Table.fixedLit.decode ⟨bytes, p⟩ = .sym (144 + (x - 0x190)) ⟨bytes, p + 9⟩) ∧
  (∀ (bytes : List Byte) (p x : Nat), x < 32 → BitsAt bytes p (bitsMsb 5 x) →
    Table.fixedDist.decode ⟨bytes, p⟩ = .sym x ⟨bytes, p + 5⟩) ∧
  (∀ c : Cursor, c.pos + 9 ≤ 8 * c.bytes.length → ∃ v c', Table.fixedLit.decode c = .sym v c') ∧
  (∀ c : Cursor, c.pos + 5 ≤ 8 * c.bytes.length → ∃ d c', Table.fixedDist.decode c = .sym d c') ∧
  ∀ c c' : Cursor, Table.fixedLit.decode c ≠ .stop .noMatchingCode c' ∧
    Table.fixedDist.decode c ≠ .stop .noMatchingCode c'

/-! ### Encoding -/

/-- Decoding the encoding of an instruction a context accepts gives that instruction back and stands right after it, for
every instruction, every operand, every built table and every bit position. -/
def Obligations.DecodeOfEncode : Prop :=
  ∀ (ctx : Ctx) (off : Nat) (bytes : List Byte) (i : Instr), ctx.TableBuilt → ctx.accepts i = true →
    BitsAt bytes off (encode ctx off i) → decode ctx off bytes = .instr i (off + (encode ctx off i).length)

/-- What the decoder reads is accepted by its context, and its encoding is what stands in the input, from the byte
boundary the element is aligned to; the padding before it is skipped. -/
def Obligations.EncodeOfDecode : Prop :=
  ∀ (ctx : Ctx) (off : Nat) (bytes : List Byte) (i : Instr) (pos : Nat), ctx.TableBuilt →
    decode ctx off bytes = .instr i pos → ctx.accepts i = true ∧
      ∃ start, start = (if ctx = .stored ∨ ctx = .trailer then alignUp off else off) ∧
        BitsAt bytes start (encode ctx start i) ∧ pos = start + (encode ctx start i).length

/-- Sample words, written out from the encodings of 30_encoding.md and 41_huffman_table.md R176, R178, are decoded as the
instruction they stand for. That a word's width and value select its class here is the model's choice (log 10): R110 leaves
the class to `fsm`. -/
def Obligations.TableWordsDecode : Prop :=
  decodeTableWord 16 0x789C = some (.env 0x78 0x9C) ∧
  decodeTableWord 3 0b011 = some (.blkFixed true) ∧
  decodeTableWord 3 0b100 = some (.blkDynamic false) ∧
  decodeTableWord 32 0xFFFA0005 = some (.stored 5 0xFFFA) ∧
  decodeTableWord 9 0x1FF = some (.lit 255) ∧
  decodeTableWord 7 0 = some .eob ∧
  decodeTableWord 8 0xC5 = some .len285 ∧
  decodeTableWord 5 0b11110 = some .dist30 ∧
  decodeTableWord 32 0x062C0215 = some (.trailer 0x062C0215)

/-- The fetch looks at no more than ten bytes, which is the model's choice (log 14); that it decodes from them what the
whole remaining input decodes to is what R411 asks of looking ahead. -/
def Obligations.WindowDecodesLikeTheInput : Prop :=
  (∀ s : State, s.window.length ≤ 10) ∧
  ∀ (s : State) (ctx : Ctx), s.InputWritten → s.pc ≤ 8 * s.endOffset → ctx.TableBuilt →
    decode ctx s.bitOffset s.window =
      decode ctx s.bitOffset (Memory.readRun s.inMem s.byteOffset s.remainingBytes)

/-! ### Reset and the host -/

/-- R400, R58: hardware reset in any state leaves every element at its reset value, whatever a run was doing, and the
host registers read their reset values (R46 to R53). That IN stays is the model's inference (log 13), that the argument
which may give `OUT_LIMIT` stays is its choice (log 11). -/
def Obligations.HardwareResetState : Prop :=
  (∀ s t : State, t = hardwareReset s →
    t.fsm = .idle ∧ t.pc = 0 ∧ t.endOffset = 0 ∧ t.outLen = 0 ∧ t.litTab = none ∧ t.distTab = none ∧
      t.clTab = none ∧ t.bfinal = false ∧ t.btype = 0 ∧ t.s1 = 1 ∧ t.s2 = 0 ∧ t.adlerRead = 0 ∧ t.err = .none ∧
      t.inLen = 0 ∧ t.outLimit = 0 ∧ t.inMem = s.inMem ∧ t.limitBy = s.limitBy) ∧
  (∀ s t : State, t = hardwareReset s →
    hostRead 0x00 32 t = .next (0, t) ∧ hostRead 0x04 32 t = .next (0, t) ∧ hostRead 0x08 32 t = .next (0, t) ∧
      hostRead 0x0C 32 t = .next (0, t) ∧ hostRead 0x10 32 t = .next (0, t) ∧ hostRead 0x14 32 t = .next (0, t) ∧
      hostRead 0x18 32 t = .next (1, t) ∧ hostRead 0x1C 32 t = .next (0, t)) ∧
  hardwareReset State.reset = State.reset

/-- R46, R401, R402: START in `IDLE`, `DONE` or `ERROR` initialises a run and changes nothing else (of `distNext`, the
model's own field of log 1, nothing is said); it is ignored during a run; writing 0 to it has no effect; CTRL reads 0. -/
def Obligations.StartInitialisesTheRun : Prop :=
  (∀ (s : State) (v : Word), v.getLsbD 0 = true → s.fsm = .idle ∨ s.fsm = .done ∨ s.fsm = .error →
    ∃ d : Bool, hostWrite 0x00 32 v s = .next { s with
      endOffset := s.inLen.toNat, pc := 0, outLen := 0, litTab := none, distTab := none, clTab := none, s1 := 1, s2 := 0,
      adlerRead := 0, err := .none, fsm := .env, distNext := d }) ∧
  (∀ (s : State) (v : Word), s.busy = true → hostWrite 0x00 32 v s = .next s) ∧
  (∀ (s : State) (v : Word), v.getLsbD 0 = false → hostWrite 0x00 32 v s = .next s) ∧
  ∀ s : State, hostRead 0x00 32 s = .next (0, s)

/-- R47, R370: STATUS holds BUSY, DONE and ERR in bits 0, 1, 2 and, in `ERROR`, the error code in bits 11:8; every other bit
reads 0; it is always valid and writes are ignored. The error codes are those of
R370. -/
def Obligations.StatusRegister : Prop :=
  (∀ s : State, ∃ w : Word, hostRead 0x04 32 s = .next (w, s) ∧
    w.getLsbD 0 = !(s.fsm == .idle || s.fsm == .done || s.fsm == .error) ∧
    w.getLsbD 1 = (s.fsm == .done) ∧ w.getLsbD 2 = (s.fsm == .error) ∧
    (∀ k, 3 ≤ k → k < 8 → w.getLsbD k = false) ∧
    (∀ k, k < 4 → w.getLsbD (8 + k) = ((s.fsm == .error) && s.err.code.getLsbD k)) ∧
    ∀ k, 12 ≤ k → w.getLsbD k = false) ∧
  (∀ (s : State) (v : Word), hostWrite 0x04 32 v s = .next s) ∧
  [ErrKind.none, .truncatedInput, .badEnvelope, .unsupportedMethod, .unsupportedFeature, .invalidTable,
    .noMatchingCode, .invalidBlock, .checksumMismatch, .outOfMemory, .logicError].map ErrKind.code =
    [0, 1, 2, 3, 4, 5, 6, 7, 8, 9, 10]

/-- R48, R49: IN_LEN and OUT_LIMIT read back what was last written, all 32 bits; writes during a run are ignored. -/
def Obligations.HostParameterRegisters : Prop :=
  (∀ s : State, hostRead 0x08 32 s = .next (s.inLen, s) ∧ hostRead 0x0C 32 s = .next (s.outLimit, s)) ∧
  (∀ (s : State) (v : Word), s.busy = false → hostWrite 0x08 32 v s = .next { s with inLen := v } ∧
    hostWrite 0x0C 32 v s = .next { s with outLimit := v }) ∧
  ∀ (s : State) (v : Word), s.busy = true → hostWrite 0x08 32 v s = .next s ∧ hostWrite 0x0C 32 v s = .next s

/-- R50 to R53, R329, R352: what the result registers and OUT read where the spec gives them a value. Where it lets any
value be read (R50, R52, R95, R406) or states none (OUT_LEN at 2^32 or more, log 11), a read takes a free value and changes
nothing but the counter of the free values, which are the model's own (log 5). Writes to the registers are ignored. -/
def Obligations.HostResultRegisters : Prop :=
  (∀ s : State, s.fsm = .idle ∨ s.fsm = .done → s.outLen < 2 ^ 32 →
    hostRead 0x10 32 s = .next (BitVec.ofNat 32 s.outLen, s)) ∧
  (∀ s : State, s.busy = false → hostRead 0x14 32 s = .next (BitVec.ofNat 32 (s.pc % 2 ^ 32), s)) ∧
  (∀ s : State, s.fsm = .idle ∨ s.fsm = .done ∨ s.fsm = .error ∧ s.err = .checksumMismatch →
    hostRead 0x18 32 s = .next (BitVec.ofNat 32 (s.s2.toNat * 2 ^ 16 + s.s1.toNat), s)) ∧
  (∀ s : State, hostRead 0x1C 32 s = .next (s.adlerRead, s)) ∧
  (∀ (s : State) (a : Nat) (b : Byte), s.fsm = .done → a < s.outLen → a < 2 ^ 32 → Memory.read s.outMem a = some b →
    hostReadOut a s = .next (b, s)) ∧
  (∀ (s : State) (off : Nat),
    (off = 0x10 ∧ (s.busy = true ∨ s.fsm = .error ∨ 2 ^ 32 ≤ s.outLen)) ∨ (off = 0x14 ∧ s.busy = true) ∨
      (off = 0x18 ∧ (s.busy = true ∨ s.fsm = .error ∧ s.err ≠ .checksumMismatch)) →
    hostRead off 32 s = .next (Config.freeWord s.freeReads, { s with freeReads := s.freeReads + 1 })) ∧
  (∀ (s : State) (a : Nat), a < 2 ^ 32 → s.fsm ≠ .done ∨ s.outLen ≤ a →
    hostReadOut a s = .next (Config.freeByte s.freeReads, { s with freeReads := s.freeReads + 1 })) ∧
  ∀ (s : State) (v : Word) (off : Nat), off = 0x10 ∨ off = 0x14 ∨ off = 0x18 ∨ off = 0x1C →
    hostWrite off 32 v s = .next s

/-- R54, R405: an aligned 32-bit access past the registers in a window of any size, so of CORE_SIZE, reads 0 and ignores
writes; an access of another width or alignment is a fault of the host program. During a run a host write to IN or OUT is
one too, and a register write changes nothing. -/
def Obligations.HostFaultsAndIgnoredAccesses : Prop :=
  (∀ (s : State) (size off : Nat) (v : Word), 0x20 ≤ off → off < size → off % 4 = 0 →
    hostReadAt size off 32 s = .next (0, s) ∧ hostWriteAt size off 32 v s = .next s) ∧
  (∀ (s : State) (off width : Nat) (v : Word), hostRead off width s = hostReadAt Config.coreSize off width s ∧
    hostWrite off width v s = hostWriteAt Config.coreSize off width v s) ∧
  (∀ (s : State) (off width : Nat) (v : Word), width ≠ 32 ∨ off % 4 ≠ 0 →
    hostRead off width s = .fault .hostNarrowAccess ∧ hostWrite off width v s = .fault .hostNarrowAccess) ∧
  (∀ (s : State) (a : Nat) (b : Byte), s.busy = true → a < 2 ^ 32 →
    hostWriteIn a b s = .fault .hostWriteDuringRun ∧ hostWriteOut a b s = .fault .hostWriteDuringRun) ∧
  ∀ (s : State) (off : Nat) (v : Word), s.busy = true → off < 0x20 → off % 4 = 0 → hostWrite off 32 v s = .next s

/-- R404: the boot order, from any state that is not running: the input is in place, the parameters are set, and the run
stands at its first instruction. -/
def Obligations.BootStartsTheRun : Prop :=
  ∀ (s : State) (input : List Byte) (limit : Word), s.busy = false → input.length < 2 ^ 32 →
    ∃ t, hostSteps (bootOps input limit) s = .next t ∧ t.fsm = .env ∧ t.pc = 0 ∧ t.endOffset = input.length ∧
      t.inLen.toNat = input.length ∧ t.outLimit = limit ∧ t.outLen = 0 ∧ t.err = .none ∧
      (∀ a, a < input.length → Memory.read t.inMem a = input[a]?) ∧ t.InputWritten

/-! ### The instructions -/

/-- R371: raising an error writes `err` and `fsm`, releases the tables and ends the run: no further element is decoded.
Nothing else changes (of `distNext`, the model's own field of log 1, nothing is said). -/
def Obligations.RaiseEndsTheRun : Prop :=
  ∀ (s : State) (e : ErrKind),
    s.raise e =
      { s with
        err := e, fsm := .error, litTab := none, distTab := none, clTab := none, distNext := (s.raise e).distNext } ∧
    (s.raise e).busy = false ∧ (s.raise e).isError = true ∧ (s.raise e).errCode = e.code ∧
    step (s.raise e) = .next (s.raise e)

/-- R342 to R347: ENV makes its four checks in order, the first failing one decides the error, and otherwise goes to
`BLK_HDR`; nothing else changes. -/
def Obligations.EnvelopeChecksInOrder : Prop :=
  ∀ (cmf flg : Byte) (s : State),
    ((cmf.toNat * 256 + flg.toNat) % 31 ≠ 0 → exec (.env cmf flg) s = .next (s.raise .badEnvelope)) ∧
    ((cmf.toNat * 256 + flg.toNat) % 31 = 0 → cmf.toNat % 16 ≠ 8 →
      exec (.env cmf flg) s = .next (s.raise .unsupportedMethod)) ∧
    ((cmf.toNat * 256 + flg.toNat) % 31 = 0 → cmf.toNat % 16 = 8 → 7 < cmf.toNat / 16 →
      exec (.env cmf flg) s = .next (s.raise .badEnvelope)) ∧
    ((cmf.toNat * 256 + flg.toNat) % 31 = 0 → cmf.toNat % 16 = 8 → cmf.toNat / 16 ≤ 7 → flg.toNat / 32 % 2 = 1 →
      exec (.env cmf flg) s = .next (s.raise .unsupportedFeature)) ∧
    ((cmf.toNat * 256 + flg.toNat) % 31 = 0 → cmf.toNat % 16 = 8 → cmf.toNat / 16 ≤ 7 → flg.toNat / 32 % 2 = 0 →
      exec (.env cmf flg) s = .next { s with fsm := .blkHdr })

/-- R221 to R225: each block header writes `bfinal` and `btype` and acts by its type; nothing else changes. -/
def Obligations.BlockHeaders : Prop :=
  ∀ (f : Bool) (s : State),
    exec (.blkStored f) s = .next { s with bfinal := f, btype := 0, fsm := .stored } ∧
    exec (.blkFixed f) s = .next { s with
      bfinal := f, btype := 1, litTab := some Table.fixedLit, distTab := some Table.fixedDist, fsm := .symbol } ∧
    exec (.blkDynamic f) s = .next { s with bfinal := f, btype := 2, fsm := .dynHdr } ∧
    exec (.blkReserved f) s = .next (State.raise { s with bfinal := f, btype := 3 } .invalidBlock)

/-- R229: a stored block that fits its input and OUT_LIMIT copies its data bytes verbatim, moves the cursor past them and
ends the block; every other output byte is as before, and nothing else changes. One that does not fit OUT_LIMIT raises
`OutOfMemory` with nothing written. -/
def Obligations.StoredBlockCopies : Prop :=
  ∀ (len : BitVec 16) (s : State), len.toNat ≤ s.remainingBytes →
    (s.overLimit len.toNat = true → exec (.stored len (~~~len)) s =
      .next (State.raise { s with slen := len, snlen := ~~~len } .outOfMemory)) ∧
    (s.overLimit len.toNat = false →
      (∀ j, j < len.toNat → (Memory.read s.inMem (s.pc / 8 + j)).isSome = true) →
      ∃ m : Memory,
        exec (.stored len (~~~len)) s = .next { s with
          slen := len, snlen := ~~~len, outMem := m, outLen := s.outLen + len.toNat, pc := s.pc + 8 * len.toNat,
          litTab := none, distTab := none, fsm := if s.bfinal then .trailer else .blkHdr } ∧
        (∀ j, j < len.toNat → Memory.read m (s.outLen + j) = Memory.read s.inMem (s.pc / 8 + j)) ∧
        ∀ a, a < s.outLen ∨ s.outLen + len.toNat ≤ a → Memory.read m a = Memory.read s.outMem a)

/-- R227, R228, R229: the checks of a stored block in their order, each before any output is written. -/
def Obligations.StoredBlockChecks : Prop :=
  ∀ (len nlen : BitVec 16) (s t : State), t = { s with slen := len, snlen := nlen } →
    (nlen.toNat ≠ 0xFFFF - len.toNat → exec (.stored len nlen) s = .next (t.raise .invalidBlock)) ∧
    (nlen.toNat = 0xFFFF - len.toNat → s.remainingBytes < len.toNat →
      exec (.stored len nlen) s = .next (t.raise .truncatedInput)) ∧
    (nlen.toNat = 0xFFFF - len.toNat → len.toNat ≤ s.remainingBytes → s.overLimit len.toNat = true →
      exec (.stored len nlen) s = .next (t.raise .outOfMemory))

/-- R190 to R193: a dynamic header sets the sizes with their biases and the code-length code lengths by the permutation,
builds `cl_tab` from them, or raises `InvalidTable`; no length is filled yet; nothing else changes. -/
def Obligations.DynamicHeader : Prop :=
  ∀ (hlit hdist : BitVec 5) (hclen : BitVec 4) (cllens : List (BitVec 3)) (s : State),
    (Instr.dynHdr hlit hdist hclen cllens).wf = true →
    ∃ (x : BitVec 9) (y : BitVec 6) (z : BitVec 5) (cl : List (BitVec 3)),
      x.toNat = hlit.toNat + 257 ∧ y.toNat = hdist.toNat + 1 ∧ z.toNat = hclen.toNat + 4 ∧ cl.length = 19 ∧
      (∀ k p, [16, 17, 18, 0, 8, 7, 9, 6, 10, 5, 11, 4, 12, 3, 13, 2, 14, 1, 15][k]? = some p →
        cl[p]? = some (cllens.getD k 0)) ∧
      (∀ t, Table.build (cl.map BitVec.toNat) = some t → exec (.dynHdr hlit hdist hclen cllens) s = .next { s with
        hlit := x, hdist := y, hclen := z, clLen := cl, clTab := some t, lens := [], fsm := .dynLens }) ∧
      (Table.build (cl.map BitVec.toNat) = none → exec (.dynHdr hlit hdist hclen cllens) s = .next
        (State.raise { s with hlit := x, hdist := y, hclen := z, clLen := cl } .invalidTable))

/-- R195 to R198: the code-length symbols append one length, the previous length 3 to 6 times, or 3 to 10 or 11 to 138
zeros. While the sequence is not full the next code-length symbol follows; when it is, the tables are installed. Nothing
else changes. -/
def Obligations.CodeLengthSymbolsFill : Prop :=
  ∀ (s t : State) (i : Instr) (r : Nat) (l : BitVec 4),
    (i = .clLen l ∧ r = 1) ∨
    (∃ x : BitVec 2, i = .clRep x ∧ r = 3 + x.toNat ∧ s.lens.getLast? = some l) ∨
    (∃ x : BitVec 3, i = .clZero3 x ∧ r = 3 + x.toNat ∧ l = 0) ∨
    (∃ x : BitVec 7, i = .clZero11 x ∧ r = 11 + x.toNat ∧ l = 0) →
    t = { s with lens := s.lens ++ List.replicate r l } →
    (s.n + r < s.hlit.toNat + s.hdist.toNat → exec i s = .next { t with fsm := .dynLens }) ∧
    (s.n + r = s.hlit.toNat + s.hdist.toNat → exec i s = .next t.installTables)

/-- R199, R200: symbol 16 with no previous length, and a run that would overfill the sequence, raise `InvalidTable` and
fill no entry. -/
def Obligations.CodeLengthRunsRejected : Prop :=
  (∀ (s : State) (x : BitVec 2), s.n = 0 → exec (.clRep x) s = .next (s.raise .invalidTable)) ∧
  (∀ (s : State) (x : BitVec 2), s.hlit.toNat + s.hdist.toNat < s.n + (3 + x.toNat) →
    exec (.clRep x) s = .next (s.raise .invalidTable)) ∧
  (∀ (s : State) (x : BitVec 3), s.hlit.toNat + s.hdist.toNat < s.n + (3 + x.toNat) →
    exec (.clZero3 x) s = .next (s.raise .invalidTable)) ∧
  ∀ (s : State) (x : BitVec 7), s.hlit.toNat + s.hdist.toNat < s.n + (11 + x.toNat) →
    exec (.clZero11 x) s = .next (s.raise .invalidTable)

/-- R201: the first `hlit` lengths build the literal/length table and the remaining `hdist` the distance table; `cl_tab` is
released and symbols follow; if either set is rejected the run ends with `InvalidTable`. -/
def Obligations.TablesInstalledFromLengths : Prop :=
  ∀ (s : State) (ls ds : List (BitVec 4)), s.lens = ls ++ ds → ls.length = s.hlit.toNat → ds.length = s.hdist.toNat →
    (∀ lit dist, Table.build (ls.map BitVec.toNat) = some lit → Table.build (ds.map BitVec.toNat) = some dist →
      s.lensFilled = { s with litTab := some lit, distTab := some dist, clTab := none, fsm := .symbol }) ∧
    (Table.build (ls.map BitVec.toNat) = none ∨ Table.build (ds.map BitVec.toNat) = none →
      s.lensFilled = s.raise .invalidTable)

/-- R321, and R231 for LIT: an append within OUT_LIMIT writes its byte at `out_len` and moves `out_len` past it, every other
output byte is as before and nothing else changes; one past OUT_LIMIT raises `OutOfMemory` and writes nothing. -/
def Obligations.LiteralAppendsItsByte : Prop :=
  (∀ (b : Byte) (s : State), s.overLimit 1 = true → appendByte b s = .next (s.raise .outOfMemory)) ∧
  ∀ (v : Byte) (s : State), s.overLimit 1 = false →
    ∃ m : Memory,
      appendByte v s = .next { s with outMem := m, outLen := s.outLen + 1 } ∧
      exec (.lit v) s = .next { s with outMem := m, outLen := s.outLen + 1, fsm := .symbol } ∧
      Memory.read m s.outLen = some v ∧ ∀ a, a ≠ s.outLen → Memory.read m a = Memory.read s.outMem a

/-- R324, R384, R13: an append that would take the output past `OUT_LIMIT`, which the register gives (R49) or an argument
of the model (log 11), raises `OutOfMemory` with nothing written, for a literal and for every back-reference (a stored
block: StoredBlockCopies); no instruction raises it otherwise, and with an unbounded `OUT_LIMIT` no step ever raises it. -/
def Obligations.OutputLimitStopsAppends : Prop :=
  (∀ (s : State) (k : Nat),
    (s.limitBy = .register → (s.overLimit k = true ↔ s.outLimit.toNat < s.outLen + k)) ∧
    (∀ n, s.limitBy = .bytes n → (s.overLimit k = true ↔ n < s.outLen + k)) ∧
    (s.limitBy = .unbounded → s.overLimit k = false)) ∧
  (∀ (v : Byte) (s : State), s.overLimit 1 = true → exec (.lit v) s = .next (s.raise .outOfMemory)) ∧
  (∀ (i : Instr) (v w y : Nat) (s : State), i.shape = .coded .dist v w y → v < 30 →
    rowBase distTab v + y ≤ s.outLen → s.overLimit s.mlen.toNat = true →
    exec i s = .next (State.raise
      { s with mdist := BitVec.ofNat 16 (rowBase distTab v + y), distNext := false } .outOfMemory)) ∧
  (∀ (i : Instr) (s t : State), s.err ≠ .outOfMemory → exec i s = .next t → t.err = .outOfMemory →
    (∃ v, i = .lit v ∧ s.overLimit 1 = true) ∨
    (∃ v w y, i.shape = .coded .dist v w y ∧ s.overLimit s.mlen.toNat = true) ∨
    ∃ len nlen, i = .stored len nlen ∧ s.overLimit len.toNat = true) ∧
  ∀ s t : State, s.limitBy = .unbounded → s.err ≠ .outOfMemory → step s = .next t → t.err ≠ .outOfMemory

/-- R372: an instruction that raises an error has written no output byte and moved neither the output length nor the
cursor. -/
def Obligations.ErrorsArePrecise : Prop :=
  ∀ (i : Instr) (s t : State), s.fsm ≠ .error → exec i s = .next t → t.fsm = .error →
    t.outMem = s.outMem ∧ t.outLen = s.outLen ∧ t.pc = s.pc ∧ t.err ≠ .none

/-- R239: on EOB, and after a stored block's copy, the tables are released and the run goes to the trailer after the final
block, else to the next block header; EOB changes nothing else. -/
def Obligations.EndOfBlockReleasesTables : Prop :=
  (∀ s : State,
    (s.bfinal = true → exec .eob s = .next { s with litTab := none, distTab := none, fsm := .trailer }) ∧
    (s.bfinal = false → exec .eob s = .next { s with litTab := none, distTab := none, fsm := .blkHdr })) ∧
  ∀ (len nlen : BitVec 16) (s t : State), exec (.stored len nlen) s = .next t → t.fsm ≠ .error →
    t.litTab = none ∧ t.distTab = none ∧ t.bfinal = s.bfinal ∧ (s.bfinal = true → t.fsm = .trailer) ∧
      (s.bfinal = false → t.fsm = .blkHdr)

/-- R240 to R247: the length of each symbol with no extra bits. -/
def Obligations.LengthSymbols257To264 : Prop :=
  SetsLength .len257 3 ∧
  SetsLength .len258 4 ∧
  SetsLength .len259 5 ∧
  SetsLength .len260 6 ∧
  SetsLength .len261 7 ∧
  SetsLength .len262 8 ∧
  SetsLength .len263 9 ∧
  SetsLength .len264 10

/-- R248 to R259: the length of each symbol with one to three extra bits. -/
def Obligations.LengthSymbols265To276 : Prop :=
  (∀ x, SetsLength (.len265 x) (11 + x.toNat)) ∧
  (∀ x, SetsLength (.len266 x) (13 + x.toNat)) ∧
  (∀ x, SetsLength (.len267 x) (15 + x.toNat)) ∧
  (∀ x, SetsLength (.len268 x) (17 + x.toNat)) ∧
  (∀ x, SetsLength (.len269 x) (19 + x.toNat)) ∧
  (∀ x, SetsLength (.len270 x) (23 + x.toNat)) ∧
  (∀ x, SetsLength (.len271 x) (27 + x.toNat)) ∧
  (∀ x, SetsLength (.len272 x) (31 + x.toNat)) ∧
  (∀ x, SetsLength (.len273 x) (35 + x.toNat)) ∧
  (∀ x, SetsLength (.len274 x) (43 + x.toNat)) ∧
  (∀ x, SetsLength (.len275 x) (51 + x.toNat)) ∧
  (∀ x, SetsLength (.len276 x) (59 + x.toNat))

/-- R260 to R268: the length of each symbol with four or five extra bits, and of 285. -/
def Obligations.LengthSymbols277To285 : Prop :=
  (∀ x, SetsLength (.len277 x) (67 + x.toNat)) ∧
  (∀ x, SetsLength (.len278 x) (83 + x.toNat)) ∧
  (∀ x, SetsLength (.len279 x) (99 + x.toNat)) ∧
  (∀ x, SetsLength (.len280 x) (115 + x.toNat)) ∧
  (∀ x, SetsLength (.len281 x) (131 + x.toNat)) ∧
  (∀ x, SetsLength (.len282 x) (163 + x.toNat)) ∧
  (∀ x, SetsLength (.len283 x) (195 + x.toNat)) ∧
  (∀ x, SetsLength (.len284 x) (227 + x.toNat)) ∧
  SetsLength .len285 258

/-- R270 to R279: the back-reference each distance symbol copies. -/
def Obligations.DistanceSymbols0To9 : Prop :=
  CopiesBack .dist0 1 ∧
  CopiesBack .dist1 2 ∧
  CopiesBack .dist2 3 ∧
  CopiesBack .dist3 4 ∧
  (∀ y, CopiesBack (.dist4 y) (5 + y.toNat)) ∧
  (∀ y, CopiesBack (.dist5 y) (7 + y.toNat)) ∧
  (∀ y, CopiesBack (.dist6 y) (9 + y.toNat)) ∧
  (∀ y, CopiesBack (.dist7 y) (13 + y.toNat)) ∧
  (∀ y, CopiesBack (.dist8 y) (17 + y.toNat)) ∧
  (∀ y, CopiesBack (.dist9 y) (25 + y.toNat))

/-- R280 to R289: the back-reference each distance symbol copies. -/
def Obligations.DistanceSymbols10To19 : Prop :=
  (∀ y, CopiesBack (.dist10 y) (33 + y.toNat)) ∧
  (∀ y, CopiesBack (.dist11 y) (49 + y.toNat)) ∧
  (∀ y, CopiesBack (.dist12 y) (65 + y.toNat)) ∧
  (∀ y, CopiesBack (.dist13 y) (97 + y.toNat)) ∧
  (∀ y, CopiesBack (.dist14 y) (129 + y.toNat)) ∧
  (∀ y, CopiesBack (.dist15 y) (193 + y.toNat)) ∧
  (∀ y, CopiesBack (.dist16 y) (257 + y.toNat)) ∧
  (∀ y, CopiesBack (.dist17 y) (385 + y.toNat)) ∧
  (∀ y, CopiesBack (.dist18 y) (513 + y.toNat)) ∧
  (∀ y, CopiesBack (.dist19 y) (769 + y.toNat))

/-- R290 to R299: the back-reference each distance symbol copies. -/
def Obligations.DistanceSymbols20To29 : Prop :=
  (∀ y, CopiesBack (.dist20 y) (1025 + y.toNat)) ∧
  (∀ y, CopiesBack (.dist21 y) (1537 + y.toNat)) ∧
  (∀ y, CopiesBack (.dist22 y) (2049 + y.toNat)) ∧
  (∀ y, CopiesBack (.dist23 y) (3073 + y.toNat)) ∧
  (∀ y, CopiesBack (.dist24 y) (4097 + y.toNat)) ∧
  (∀ y, CopiesBack (.dist25 y) (6145 + y.toNat)) ∧
  (∀ y, CopiesBack (.dist26 y) (8193 + y.toNat)) ∧
  (∀ y, CopiesBack (.dist27 y) (12289 + y.toNat)) ∧
  (∀ y, CopiesBack (.dist28 y) (16385 + y.toNat)) ∧
  (∀ y, CopiesBack (.dist29 y) (24577 + y.toNat))

/-- R237, R238, R300, R301: the symbols the alphabets do not define have codes in the fixed tables and raise `LogicError`;
no extra bits are read. -/
def Obligations.UndefinedSymbolsRaiseLogicError : Prop :=
  (∀ s : State, exec .len286 s = .next (s.raise .logicError) ∧ exec .len287 s = .next (s.raise .logicError) ∧
    exec .dist30 s = .next (s.raise .logicError) ∧ exec .dist31 s = .next (s.raise .logicError)) ∧
  (∀ (bytes : List Byte) (off : Nat), BitsAt bytes off (bitsMsb 8 0b11000110) →
    decode (.litLen Table.fixedLit) off bytes = .instr .len286 (off + 8)) ∧
  (∀ (bytes : List Byte) (off : Nat), BitsAt bytes off (bitsMsb 8 0b11000111) →
    decode (.litLen Table.fixedLit) off bytes = .instr .len287 (off + 8)) ∧
  (∀ (bytes : List Byte) (off : Nat), BitsAt bytes off (bitsMsb 5 0b11110) →
    decode (.dist Table.fixedDist) off bytes = .instr .dist30 (off + 5)) ∧
  ∀ (bytes : List Byte) (off : Nat), BitsAt bytes off (bitsMsb 5 0b11111) →
    decode (.dist Table.fixedDist) off bytes = .instr .dist31 (off + 5)

/-- R235: a distance beyond the output raises `InvalidBlock`, for every distance symbol and extra value, and one within it
never does. -/
def Obligations.DistanceBeyondOutputIsInvalid : Prop :=
  ∀ (i : Instr) (v w y : Nat) (s : State), i.shape = .coded .dist v w y → v < 30 →
    (s.outLen < rowBase distTab v + y →
      exec i s = .next (State.raise
        { s with mdist := BitVec.ofNat 16 (rowBase distTab v + y), distNext := false } .invalidBlock)) ∧
    (rowBase distTab v + y ≤ s.outLen → s.err ≠ .invalidBlock → ∀ t, exec i s = .next t → t.err ≠ .invalidBlock)

/-- R323, R327, R328: a copy appends `len` bytes, the `j`-th the byte `j mod dist` of the `dist` bytes before the end of
the output at entry; every other output byte is as before and only the output changes. When `dist ≥ len` it is a block
copy. -/
def Obligations.CopyIsPeriodic : Prop :=
  ∀ (dist len : Nat) (s : State), 1 ≤ dist → dist ≤ s.outLen → s.overLimit len = false →
    (∀ a, a < s.outLen → (Memory.read s.outMem a).isSome = true) →
    ∃ m : Memory,
      appendCopy dist len s = .next { s with outMem := m, outLen := s.outLen + len } ∧
      (∀ j, j < len → Memory.read m (s.outLen + j) = Memory.read s.outMem (s.outLen - dist + j % dist)) ∧
      (len ≤ dist → ∀ j, j < len → Memory.read m (s.outLen + j) = Memory.read s.outMem (s.outLen - dist + j)) ∧
      ∀ a, a < s.outLen ∨ s.outLen + len ≤ a → Memory.read m a = Memory.read s.outMem a

/-- R350, R351, R352: TRAILER computes the checksum of the whole output, ends the run in `DONE` if the value read equals
it and raises `ChecksumMismatch` if not; nothing else changes (that `s1` and `s2` are written here is log 6). -/
def Obligations.TrailerVerifiesTheChecksum : Prop :=
  ∀ (v : Word) (s : State) (bs : List Byte) (t : State), bs.length = s.outLen →
    (∀ a, a < s.outLen → Memory.read s.outMem a = bs[a]?) →
    t = { s with adlerRead := v, s1 := (adler bs).extractLsb' 0 16, s2 := (adler bs).extractLsb' 16 16 } →
    (v = adler bs → exec (.trailer v) s = .next { t with fsm := .done }) ∧
    (v ≠ adler bs → exec (.trailer v) s = .next (t.raise .checksumMismatch))

/-- R350: the accumulators in closed form. -/
def Obligations.AdlerClosedForm : Prop :=
  ∀ bs : List Byte,
    (adler bs).toNat % 2 ^ 16 = (1 + (bs.map BitVec.toNat).sum) % 65521 ∧
    (adler bs).toNat / 2 ^ 16 =
      (bs.length + ((List.range bs.length).map fun k => (bs.length - k) * (bs.getD k 0).toNat).sum) % 65521

/-- R355: flipping one bit of one output byte changes the checksum, so a trailer that fits the one output raises
`ChecksumMismatch` on the other. -/
def Obligations.SingleBitErrorsAreDetected : Prop :=
  ∀ (bs cs : List Byte) (k bit : Nat), k < bs.length → bit < 8 →
    cs = bs.set k (bs.getD k 0 ^^^ BitVec.twoPow 8 bit) →
    adler cs ≠ adler bs ∧
    ∀ s : State, cs.length = s.outLen → (∀ a, a < s.outLen → Memory.read s.outMem a = cs[a]?) →
      ∃ t, exec (.trailer (adler bs)) s = .next t ∧ t.fsm = .error ∧ t.err = .checksumMismatch

/-! ### The step -/

/-- A step fetches the instruction at the cursor, moves the cursor past it and runs it. If that leaves a back-reference
open, the same step fetches and runs the distance symbol (log 1). -/
def Obligations.StepRunsTheDecodedInstruction : Prop :=
  (∀ (s : State) (c : Ctx) (i : Instr) (pos : Nat), s.select = .ctx c →
    decode c s.bitOffset s.window = .instr i pos →
    fetchExec s = exec i { s with pc := 8 * (s.pc / 8) + pos }) ∧
  (∀ s t : State, fetchExec s = .next t → t.distNext = false → step s = .next t) ∧
  (∀ s t : State, fetchExec s = .next t → t.distNext = true → step s = fetchExec t) ∧
  ∀ (s : State) (f : Fault), fetchExec s = .fault f → step s = .fault f

/-- R110: the class decoded next is decided by `fsm`, never by the stream bits; in `SYMBOL` a distance symbol is next after
a length symbol. -/
def Obligations.ClassIsSelectedByState : Prop :=
  (∀ s : State, s.fsm = .env → s.select = .ctx .env) ∧
  (∀ s : State, s.fsm = .blkHdr → s.select = .ctx .blkHdr) ∧
  (∀ s : State, s.fsm = .stored → s.select = .ctx .stored) ∧
  (∀ s : State, s.fsm = .dynHdr → s.select = .ctx .dynHdr) ∧
  (∀ (s : State) (t : Table), s.fsm = .dynLens → s.clTab = some t → s.select = .ctx (.clSym t (s.n == 0))) ∧
  (∀ (s : State) (t : Table), s.fsm = .symbol → s.distNext = false → s.litTab = some t →
    s.select = .ctx (.litLen t)) ∧
  (∀ (s : State) (t : Table), s.fsm = .symbol → s.distNext = true → s.distTab = some t →
    s.select = .ctx (.dist t)) ∧
  (∀ s : State, s.fsm = .trailer → s.select = .ctx .trailer) ∧
  ∀ s : State, s.fsm = .idle ∨ s.fsm = .done ∨ s.fsm = .error → s.select = .quiet

/-- R375, R380: a fetch whose read needs bits past the end of the input raises `TruncatedInput`, and one whose bits are no
code of the active table raises `NoMatchingCode`, at the cursor the completed reads reached (R372). So does a step whose
first fetch fails, and one whose distance symbol cannot be fetched after its length symbol. That the registers of the
completed reads (`applyPart`) stay written is the model's inference (log 18). -/
def Obligations.FailedFetchRaises : Prop :=
  ∀ (s : State) (c : Ctx) (why : Stop) (e : ErrKind) (p : Part) (pos : Nat), s.select = .ctx c → s.InputWritten →
    decode c s.bitOffset s.window = .stop why p pos →
    (why = .truncated ∧ e = .truncatedInput) ∨ (why = .noMatchingCode ∧ e = .noMatchingCode) →
    fetchExec s = .next (State.raise ((s.seek pos).applyPart p) e) ∧
    step s = .next (State.raise ((s.seek pos).applyPart p) e) ∧
    (State.raise ((s.seek pos).applyPart p) e).pc = 8 * (s.pc / 8) + pos ∧
    ∀ r : State, fetchExec r = .next s → s.distNext = true →
      step r = .next (State.raise ((s.seek pos).applyPart p) e)

/-- R230, R233 to R236: a length symbol, its distance symbol and the copy are one step: it appends `len` bytes from `dist`
back; nothing changes but the cursor, the output, `mlen` and `mdist`. -/
def Obligations.BackReferenceIsOneStep : Prop :=
  ∀ (s u : State) (lt dt : Table) (i j : Instr) (pos pos' len dist : Nat),
    s.select = .ctx (.litLen lt) → decode (.litLen lt) s.bitOffset s.window = .instr i pos → SetsLength i len →
    len ≤ 258 → s.distTab = some dt → u = { s with pc := 8 * (s.pc / 8) + pos } →
    decode (.dist dt) u.bitOffset u.window = .instr j pos' → CopiesBack j dist →
    1 ≤ dist → dist ≤ s.outLen → s.overLimit len = false →
    (∀ a, a < s.outLen → (Memory.read s.outMem a).isSome = true) →
    ∃ m : Memory,
      step s = .next { s with
        pc := 8 * (u.pc / 8) + pos', mlen := BitVec.ofNat 9 len, mdist := BitVec.ofNat 16 dist, outMem := m,
        outLen := s.outLen + len } ∧
      (∀ k, k < len → Memory.read m (s.outLen + k) = Memory.read s.outMem (s.outLen - dist + k % dist)) ∧
      ∀ a, a < s.outLen ∨ s.outLen + len ≤ a → Memory.read m a = Memory.read s.outMem a

/-- R394: a step never clears an error, and neither does any act of the host but START and hardware reset, which do. -/
def Obligations.ErrorIsSticky : Prop :=
  (∀ s : State, s.fsm = .error → step s = .next s) ∧
  (∀ (op : HostOp) (s t : State), s.fsm = .error → hostStep op s = .next t →
    (t.fsm = .error ∧ t.err = s.err) ∨ op = .hardwareReset ∨ ∃ v, op = .write 0x00 32 v ∧ v.getLsbD 0 = true) ∧
  (∀ (s : State) (v : Word), s.fsm = .error → v.getLsbD 0 = true →
    ∃ t, hostStep (.write 0x00 32 v) s = .next t ∧ t.fsm = .env ∧ t.err = .none) ∧
  ∀ s : State, ∃ t, hostStep .hardwareReset s = .next t ∧ t.fsm = .idle ∧ t.err = .none

/-! ### The whole machine -/

/-- The state after reset meets the invariant. -/
def Obligations.ResetMeetsTheInvariant : Prop := State.Inv State.reset

/-- Every step keeps the invariant: the byte spaces stay canonical, the cursor stays in the input, the output is written
and within its limit, the tables are where a block needs them and are ones `build` made, `err` is set exactly in `ERROR`,
the accumulators are reduced. -/
def Obligations.StepKeepsTheInvariant : Prop :=
  ∀ s t : State, s.Inv → step s = .next t → t.Inv

/-- Every act of the host keeps the invariant. -/
def Obligations.HostKeepsTheInvariant : Prop :=
  ∀ (op : HostOp) (s t : State), s.Inv → hostStep op s = .next t → t.Inv

/-- R149: where the invariant holds and the host has written the input, every step goes on to a next state: no byte that
holds no value is read, no absent table is used; and no step of any state is refused. -/
def Obligations.WrittenInputNeverFaults : Prop :=
  (∀ s : State, s.Inv → s.InputWritten → ∃ t, step s = .next t) ∧ ∀ (s : State) (r : Refusal), step s ≠ .refused r

/-- R414: every step of a run that goes on consumes at least the bits its element needs; the trailer's step ends the run. -/
def Obligations.EveryStepConsumesBits : Prop :=
  ∀ s t : State, s.Inv → s.busy = true → step s = .next t → t.busy = true →
    (s.fsm = .env → s.pc + 16 ≤ t.pc) ∧ (s.fsm = .blkHdr → s.pc + 3 ≤ t.pc) ∧ (s.fsm = .stored → s.pc + 32 ≤ t.pc) ∧
    (s.fsm = .dynHdr → s.pc + 26 ≤ t.pc) ∧ (s.fsm = .dynLens ∨ s.fsm = .symbol → s.pc + 1 ≤ t.pc) ∧
    s.fsm ≠ .trailer

/-- R414, R415: a run over a written input ends in `DONE` or `ERROR` within `8 * IN_LEN + 1` steps. -/
def Obligations.RunEndsWithinItsBound : Prop :=
  ∀ s : State, s.Inv → s.InputWritten → s.busy = true → s.EndsWithin (8 * s.inLen.toNat + 1)

/-- R71, R93, R32, R74 to R76: no step writes the input or a host parameter or moves the cursor back; the output only
grows, at its end, and every byte below its length, and every byte past its new length, stays what it was. -/
def Obligations.StepLeavesInputAndPastOutput : Prop :=
  ∀ s t : State, step s = .next t →
    t.inMem = s.inMem ∧ t.inLen = s.inLen ∧ t.outLimit = s.outLimit ∧ t.limitBy = s.limitBy ∧ t.endOffset = s.endOffset ∧
    t.freeReads = s.freeReads ∧ s.pc ≤ t.pc ∧ s.outLen ≤ t.outLen ∧
    ∀ a, a < s.outLen ∨ t.outLen ≤ a → Memory.read t.outMem a = Memory.read s.outMem a

/-- R40, R340, R393: from each control state a step goes only to the states that R40 lists as entered from it; `IDLE`,
`DONE` and `ERROR` take no step: every state element keeps its value. -/
def Obligations.ControlStateTransitions : Prop :=
  ∀ s t : State, s.Inv → step s = .next t →
    (s.fsm = .env → t.fsm = .blkHdr ∨ t.fsm = .error) ∧
    (s.fsm = .blkHdr → t.fsm = .stored ∨ t.fsm = .dynHdr ∨ t.fsm = .symbol ∨ t.fsm = .error) ∧
    (s.fsm = .stored → t.fsm = .blkHdr ∨ t.fsm = .trailer ∨ t.fsm = .error) ∧
    (s.fsm = .dynHdr → t.fsm = .dynLens ∨ t.fsm = .error) ∧
    (s.fsm = .dynLens → t.fsm = .dynLens ∨ t.fsm = .symbol ∨ t.fsm = .error) ∧
    (s.fsm = .symbol → t.fsm = .symbol ∨ t.fsm = .blkHdr ∨ t.fsm = .trailer ∨ t.fsm = .error) ∧
    (s.fsm = .trailer → t.fsm = .done ∨ t.fsm = .error) ∧
    (s.fsm = .idle ∨ s.fsm = .done ∨ s.fsm = .error → t = s)

/-- R376 to R384: which element can raise which error kind. -/
def Obligations.ErrorKindsHaveTheirCauses : Prop :=
  ∀ s t : State, s.Inv → s.err = .none → step s = .next t →
    (t.err = .badEnvelope ∨ t.err = .unsupportedMethod ∨ t.err = .unsupportedFeature → s.fsm = .env) ∧
    (t.err = .invalidTable → s.fsm = .dynHdr ∨ s.fsm = .dynLens) ∧
    (t.err = .noMatchingCode → s.fsm = .dynLens ∨ s.fsm = .symbol) ∧
    (t.err = .invalidBlock → s.fsm = .blkHdr ∨ s.fsm = .stored ∨ s.fsm = .symbol) ∧
    (t.err = .checksumMismatch → s.fsm = .trailer) ∧
    (t.err = .outOfMemory → s.fsm = .stored ∨ s.fsm = .symbol) ∧
    (t.err = .logicError → s.fsm = .symbol)

/-! ### The notation -/

/-- R115, R269, R303: `MATCH` spells every length 3..258 and every distance 1..32768 as two instructions that mean it, and
every length but 258 has one length symbol and extra value only. -/
def Obligations.MatchSpellsEveryBackReference : Prop :=
  (∀ len dist : Nat, 3 ≤ len → len ≤ 258 → 1 ≤ dist → dist ≤ 32768 →
    ∃ i j, matchInstrs len dist = some [i, j] ∧ SetsLength i len ∧ CopiesBack j dist) ∧
  ∀ (i j : Instr) (len : Nat), SetsLength i len → SetsLength j len → 3 ≤ len → len < 258 → i = j

end
end

