-- ==== Sys2Proof/Laws/Cursor.lean ====
section
/-! SUPPORT. The laws of the bit cursor: fields, alignment, bits laid out and read back. -/

namespace Sys2Proof

theorem fieldNat_lt (bytes : List Byte) (p n : Nat) : fieldNat bytes p n < 2 ^ n := by
  induction n with
  | zero => simp [fieldNat]
  | succ n ih =>
    rw [fieldNat, Nat.pow_succ]
    split <;> omega

/-- Bit `i` of a field is stream bit `p + i`. -/
theorem fieldNat_testBit (bytes : List Byte) (p n i : Nat) :
    (fieldNat bytes p n).testBit i = (decide (i < n) && streamBit bytes (p + i)) := by
  induction n with
  | zero => simp [fieldNat]
  | succ n ih =>
    have key : fieldNat bytes p (n + 1) =
        2 ^ n * (if streamBit bytes (p + n) then 1 else 0) + fieldNat bytes p n := by
      rw [fieldNat]; split <;> omega
    rw [key, Nat.testBit_two_pow_mul_add _ (fieldNat_lt bytes p n), ih]
    rcases Nat.lt_trichotomy i n with h | h | h
    · simp [h, Nat.lt_succ_of_lt h]
    · subst h
      cases hb : streamBit bytes (p + i) <;> simp
    · have h1 : ¬ i < n := by omega
      have h2 : ¬ i < n + 1 := by omega
      obtain ⟨k, rfl⟩ : ∃ k, i = n + (k + 1) := ⟨i - n - 1, by omega⟩
      cases hb : streamBit bytes (p + n) <;> simp [h1, h2, Nat.testBit_succ]

/-- A field is determined by its stream bits. -/
theorem fieldNat_congr {bytes bytes' : List Byte} {p p' n : Nat}
    (h : ∀ i, i < n → streamBit bytes (p + i) = streamBit bytes' (p' + i)) :
    fieldNat bytes p n = fieldNat bytes' p' n := by
  induction n with
  | zero => rfl
  | succ n ih =>
    rw [fieldNat, fieldNat, ih fun i hi => h i (by omega), h n (by omega)]

theorem readBits_ok {n : Nat} {c : Cursor} (hn : n ≤ 32) (h : c.pos + n ≤ 8 * c.bytes.length) :
    c.readBits n = .ok (BitVec.ofNat n (fieldNat c.bytes c.pos n), { c with pos := c.pos + n }) := by
  have h1 : ¬ Config.readBitsMax < n := by simp [Config.readBitsMax]; omega
  have h2 : ¬ 8 * c.bytes.length < c.pos + n := by omega
  simp only [Cursor.readBits, if_neg h1, if_neg h2]

theorem readBits_truncated {n : Nat} {c : Cursor} (hn : n ≤ 32) (h : 8 * c.bytes.length < c.pos + n) :
    c.readBits n = .error .truncated := by
  have h1 : ¬ Config.readBitsMax < n := by simp [Config.readBitsMax]; omega
  simp only [Cursor.readBits, if_neg h1, if_pos h]

/-- Everything a read that succeeds can do. -/
theorem readBits_eq_ok {n : Nat} {c c' : Cursor} {v : BitVec n} (h : c.readBits n = .ok (v, c')) :
    n ≤ 32 ∧ c.pos + n ≤ 8 * c.bytes.length ∧ v = BitVec.ofNat n (fieldNat c.bytes c.pos n) ∧
      c' = { c with pos := c.pos + n } := by
  unfold Cursor.readBits at h
  split at h
  · cases h
  · next h1 =>
    split at h
    · cases h
    · next h2 =>
      cases h
      simp only [Config.readBitsMax] at h1
      exact ⟨by omega, by omega, rfl, rfl⟩

/-- Everything a read of at most 32 bits that stops can do. -/
theorem readBits_eq_error {n : Nat} {c : Cursor} {w : Stop} (hn : n ≤ 32) (h : c.readBits n = .error w) :
    w = .truncated ∧ 8 * c.bytes.length < c.pos + n := by
  by_cases hl : c.pos + n ≤ 8 * c.bytes.length
  · rw [readBits_ok hn hl] at h; cases h
  · rw [readBits_truncated hn (by omega)] at h
    cases h
    exact ⟨rfl, by omega⟩

theorem length_bitsLsb {n : Nat} (v : BitVec n) : (bitsLsb v).length = n := by simp [bitsLsb]

theorem length_bitsMsb (len code : Nat) : (bitsMsb len code).length = len := by simp [bitsMsb]

theorem bitsAt_append {bytes : List Byte} {off : Nat} {xs ys : List Bool} :
    BitsAt bytes off (xs ++ ys) ↔ BitsAt bytes off xs ∧ BitsAt bytes (off + xs.length) ys := by
  constructor
  · rintro ⟨hl, h⟩
    rw [List.length_append] at hl
    refine ⟨⟨by omega, fun k hk => ?_⟩, by omega, fun k hk => ?_⟩
    · rw [h k (by rw [List.length_append]; omega), List.getElem_append_left hk]
    · rw [Nat.add_assoc, h (xs.length + k) (by rw [List.length_append]; omega),
        List.getElem_append_right (by omega)]
      simp
  · rintro ⟨⟨hl, h⟩, hl', h'⟩
    refine ⟨by rw [List.length_append]; omega, fun k hk => ?_⟩
    rw [List.length_append] at hk
    by_cases hx : k < xs.length
    · rw [h k hx, List.getElem_append_left hx]
    · rw [List.getElem_append_right (by omega), ← h' (k - xs.length) (by omega)]
      congr 1; omega

/-- Reading a field where its bits stand. -/
theorem ofNat_fieldNat_of_bitsAt {bytes : List Byte} {p n : Nat} {v : BitVec n} (h : BitsAt bytes p (bitsLsb v)) :
    BitVec.ofNat n (fieldNat bytes p n) = v := by
  apply BitVec.eq_of_getLsbD_eq
  intro i hi
  have := h.2 i (by rw [length_bitsLsb]; exact hi)
  rw [BitVec.getLsbD_ofNat, fieldNat_testBit, this]
  simp [bitsLsb, hi]

/-- The bits a field was read from stand where it was read. -/
theorem bitsAt_ofNat_fieldNat {bytes : List Byte} {p n : Nat} (h : p + n ≤ 8 * bytes.length) :
    BitsAt bytes p (bitsLsb (BitVec.ofNat n (fieldNat bytes p n))) := by
  refine ⟨by rw [length_bitsLsb]; exact h, fun k hk => ?_⟩
  rw [length_bitsLsb] at hk
  simp only [bitsLsb, List.getElem_map, List.getElem_range, BitVec.getLsbD_ofNat, fieldNat_testBit, hk]
  simp

/-- A field whose bits stand at the cursor is read. -/
theorem withBits_of_bitsAt {n : Nat} {c : Cursor} {v : BitVec n} (hn : n ≤ 32)
    (h : BitsAt c.bytes c.pos (bitsLsb v)) (part : Part) (k : BitVec n → Cursor → Decoded) :
    withBits n c part k = k v { c with pos := c.pos + n } := by
  have hl := h.1
  rw [length_bitsLsb] at hl
  rw [withBits, readBits_ok hn hl, ofNat_fieldNat_of_bitsAt h]

/-- A field read that goes on to an instruction succeeded. -/
theorem withBits_eq_instr {n : Nat} {c : Cursor} {part : Part} {k : BitVec n → Cursor → Decoded} {i : Instr} {pos : Nat}
    (h : withBits n c part k = .instr i pos) :
    ∃ v, BitsAt c.bytes c.pos (bitsLsb v) ∧ k v { c with pos := c.pos + n } = .instr i pos := by
  unfold withBits at h
  split at h
  · next v c' hr =>
    obtain ⟨_, hl, rfl, rfl⟩ := readBits_eq_ok hr
    exact ⟨_, bitsAt_ofNat_fieldNat hl, h⟩
  · cases h

/-- Where a field read stops: at that read, or later. -/
theorem withBits_eq_stop {n : Nat} {c : Cursor} {part p : Part} {k : BitVec n → Cursor → Decoded} {w : Stop} {pos : Nat}
    (hn : n ≤ 32) (h : withBits n c part k = .stop w p pos) :
    (w = .truncated ∧ p = part ∧ pos = c.pos ∧ 8 * c.bytes.length < c.pos + n) ∨
      ∃ v, c.pos + n ≤ 8 * c.bytes.length ∧ k v { c with pos := c.pos + n } = .stop w p pos := by
  unfold withBits at h
  split at h
  · next v c' hr =>
    obtain ⟨_, hl, rfl, rfl⟩ := readBits_eq_ok hr
    exact .inr ⟨_, hl, h⟩
  · next w' hr =>
    obtain ⟨rfl, hl⟩ := readBits_eq_error hn hr
    cases h
    exact .inl ⟨rfl, rfl, rfl, hl⟩

theorem alignUp_mod (p : Nat) : alignUp p % 8 = 0 := by unfold alignUp; split <;> omega

theorem le_alignUp (p : Nat) : p ≤ alignUp p := by unfold alignUp; split <;> omega

theorem alignUp_lt (p : Nat) : alignUp p < p + 8 := by unfold alignUp; split <;> omega

theorem alignUp_of_aligned {p : Nat} (h : p % 8 = 0) : alignUp p = p := by simp [alignUp, h]

/-- Aligning never leaves the input. -/
theorem alignUp_le {p n : Nat} (h : p ≤ 8 * n) : alignUp p ≤ 8 * n := by unfold alignUp; split <;> omega

theorem length_padBits (off : Nat) : off + (padBits off).length = alignUp off := by
  have := le_alignUp off
  simp [padBits]; omega

theorem byteOfBits_getLsbD (bs : List Bool) (k : Nat) (hk : k < 8) : (byteOfBits bs).getLsbD k = bs.getD k false := by
  rw [byteOfBits]
  generalize h0 : bs.getD 0 false = b0
  generalize h1 : bs.getD 1 false = b1
  generalize h2 : bs.getD 2 false = b2
  generalize h3 : bs.getD 3 false = b3
  generalize h4 : bs.getD 4 false = b4
  generalize h5 : bs.getD 5 false = b5
  generalize h6 : bs.getD 6 false = b6
  generalize h7 : bs.getD 7 false = b7
  have hr : List.range 8 = [0, 1, 2, 3, 4, 5, 6, 7] := rfl
  simp only [hr, List.foldl, h0, h1, h2, h3, h4, h5, h6, h7]
  have hk' : k = 0 ∨ k = 1 ∨ k = 2 ∨ k = 3 ∨ k = 4 ∨ k = 5 ∨ k = 6 ∨ k = 7 := by omega
  rcases hk' with rfl | rfl | rfl | rfl | rfl | rfl | rfl | rfl <;>
    simp only [h0, h1, h2, h3, h4, h5, h6, h7] <;>
    clear h0 h1 h2 h3 h4 h5 h6 h7 <;> revert b0 b1 b2 b3 b4 b5 b6 b7 <;> decide

theorem length_packBytes (n : Nat) (bs : List Bool) : (packBytes n bs).length = n := by
  induction n generalizing bs with
  | zero => rfl
  | succ n ih => simp [packBytes, ih]

/-- Packed bits stand in the bytes in stream order. -/
theorem streamBit_packBytes (n : Nat) (bs : List Bool) (k : Nat) (hk : k < 8 * n) :
    streamBit (packBytes n bs) k = bs.getD k false := by
  induction n generalizing bs k with
  | zero => omega
  | succ n ih =>
    by_cases h : k < 8
    · have h1 : k / 8 = 0 := by omega
      have h2 : k % 8 = k := by omega
      simp only [streamBit, packBytes, h1, h2, List.getD_cons_zero]
      rw [byteOfBits_getLsbD _ _ h]
      simp [h]
    · have h1 : k / 8 = (k - 8) / 8 + 1 := by omega
      have h2 : k % 8 = (k - 8) % 8 := by omega
      have := ih (bs.drop 8) (k - 8) (by omega)
      simp only [streamBit, packBytes, h1, h2, List.getD_cons_succ] at this ⊢
      rw [this]
      have h3 : 8 + (k - 8) = k := by omega
      simp [List.getElem?_drop, h3]

theorem bitsAt_packBytes {n : Nat} {bs : List Bool} (h : bs.length ≤ 8 * n) : BitsAt (packBytes n bs) 0 bs := by
  refine ⟨by rw [length_packBytes]; omega, fun k hk => ?_⟩
  rw [Nat.zero_add, streamBit_packBytes _ _ _ (by omega)]
  simp [hk]

end Sys2Proof
end

