-- ==== Sys2Proof/Laws/Huffman.lean ====
section
/-! SUPPORT. The laws of the canonical table: what `build` lays down, why its codes are prefix-free, what one decode can do. -/

namespace Sys2Proof

/-- The number the `n` bits from `p` on spell, first bit most significant (20_memory.md R80). -/
def msbNat (bytes : List Byte) (p : Nat) : Nat → Nat
  | 0 => 0
  | n + 1 => 2 * msbNat bytes p n + (if streamBit bytes (p + n) then 1 else 0)

theorem msbNat_lt (bytes : List Byte) (p n : Nat) : msbNat bytes p n < 2 ^ n := by
  induction n with
  | zero => simp [msbNat]
  | succ n ih => rw [msbNat, Nat.pow_succ]; split <;> omega

/-- Dropping the last bits of a number read MSB-first leaves the number its first bits spell. -/
theorem msbNat_shift (bytes : List Byte) (p l k : Nat) : msbNat bytes p (l + k) / 2 ^ k = msbNat bytes p l := by
  induction k with
  | zero => simp
  | succ k ih =>
    rw [← Nat.add_assoc, msbNat, Nat.pow_succ', ← Nat.div_div_eq_div_mul]
    rw [show (2 * msbNat bytes p (l + k) + (if streamBit bytes (p + (l + k)) then 1 else 0)) / 2 =
      msbNat bytes p (l + k) by split <;> omega]
    exact ih

theorem testBit_msbNat (bytes : List Byte) (p n j : Nat) (hj : j < n) :
    (msbNat bytes p n).testBit (n - 1 - j) = streamBit bytes (p + j) := by
  have h := msbNat_shift bytes p (j + 1) (n - 1 - j)
  rw [show j + 1 + (n - 1 - j) = n by omega] at h
  rw [Nat.testBit_eq_decide_div_mod_eq, h, msbNat]
  cases streamBit bytes (p + j) <;> simp

/-- The bits of a code stand at `p` exactly if they spell it. -/
theorem bitsAt_bitsMsb {bytes : List Byte} {p len code : Nat} (hc : code < 2 ^ len) :
    BitsAt bytes p (bitsMsb len code) ↔ p + len ≤ 8 * bytes.length ∧ msbNat bytes p len = code := by
  unfold BitsAt
  simp only [length_bitsMsb]
  refine and_congr_right fun _ => ⟨fun h => ?_, fun h k hk => ?_⟩
  · apply Nat.eq_of_testBit_eq
    intro i
    by_cases hi : i < len
    · have hj : len - 1 - i < len := by omega
      have h1 := testBit_msbNat bytes p len (len - 1 - i) hj
      rw [show len - 1 - (len - 1 - i) = i by omega] at h1
      rw [h1, h (len - 1 - i) hj]
      simp [bitsMsb, show len - 1 - (len - 1 - i) = i by omega]
    · have hp : 2 ^ len ≤ 2 ^ i := Nat.pow_le_pow_right (by omega) (by omega)
      rw [Nat.testBit_lt_two_pow (Nat.lt_of_lt_of_le (msbNat_lt bytes p len) hp),
        Nat.testBit_lt_two_pow (Nat.lt_of_lt_of_le hc hp)]
  · subst h
    simp only [bitsMsb, List.getElem_map, List.getElem_range]
    exact (testBit_msbNat bytes p len k hk).symm

/-! ### What `build` lays down -/

theorem getD_map_range (f : Nat → Nat) (n k : Nat) (h : k < n) : ((List.range n).map f).getD k 0 = f k := by
  simp [List.getD, List.getElem?_map, List.getElem?_range h]

theorem getD_map_range_ge (f : Nat → Nat) (n k : Nat) (h : n ≤ k) : ((List.range n).map f).getD k 0 = 0 := by
  simp [List.getD, h]

theorem countAt_ofLens (lens : List Nat) {l : Nat} (h : l < 16) : (Table.ofLens lens).countAt l = countOf lens l :=
  getD_map_range _ _ _ h

theorem countAt_ofLens_ge (lens : List Nat) {l : Nat} (h : 16 ≤ l) : (Table.ofLens lens).countAt l = 0 :=
  getD_map_range_ge _ _ _ h

theorem startAt_ofLens (lens : List Nat) {l : Nat} (h : l < 16) : (Table.ofLens lens).startAt l = startOf lens l :=
  getD_map_range _ _ _ h

theorem stopAt_ofLens (lens : List Nat) {l : Nat} (h : l < 16) : (Table.ofLens lens).stopAt l = stopOf lens l :=
  getD_map_range _ _ _ h

theorem offsetAt_ofLens (lens : List Nat) {l : Nat} (h : l < 16) : (Table.ofLens lens).offsetAt l = offsetOf lens l :=
  getD_map_range _ _ _ h

theorem startOf_succ (lens : List Nat) (l : Nat) : startOf lens (l + 1) = 2 * stopOf lens l := by
  rw [startOf, stopOf, Nat.shiftLeft_eq]; omega

/-- The range of a table that `build` made, as numbers. -/
theorem inRange_ofLens {lens : List Nat} {l x : Nat} (h : l < 16) :
    (Table.ofLens lens).inRange l x = true ↔
      0 < countOf lens l ∧ startOf lens l ≤ x ∧ x < stopOf lens l := by
  simp only [Table.inRange, countAt_ofLens lens h, startAt_ofLens lens h, stopAt_ofLens lens h, Bool.and_eq_true,
    decide_eq_true_eq, and_assoc]

theorem build_eq_some {lens : List Nat} {t : Table} (h : Table.build lens = some t) :
    t = Table.ofLens lens ∧ lensFit lens = true := by
  unfold Table.build at h
  split at h
  · next hf => cases h; exact ⟨rfl, hf⟩
  · cases h

/-- Validation, read off. -/
theorem lensFit_iff {lens : List Nat} :
    lensFit lens = true ↔ ∀ l, 1 ≤ l → l ≤ 15 → countOf lens l ≠ 0 → stopOf lens l ≤ 2 ^ l := by
  unfold lensFit
  rw [List.all_eq_true]
  constructor
  · intro h l h1 h15 hc
    have := h l (by simp [Config.maxCodeLen, List.mem_range'_1]; omega)
    simp only [Bool.or_eq_true, beq_iff_eq, decide_eq_true_eq] at this
    have hp : 0 < 2 ^ l := Nat.two_pow_pos l
    rcases this with h' | h'
    · exact absurd h' hc
    · omega
  · intro h l hl
    simp only [Config.maxCodeLen, List.mem_range'_1] at hl
    simp only [Bool.or_eq_true, beq_iff_eq, decide_eq_true_eq]
    by_cases hc : countOf lens l = 0
    · exact .inl hc
    · have := h l (by omega) (by omega) hc
      have hp : 0 < 2 ^ l := Nat.two_pow_pos l
      exact .inr (by omega)

/-- No range of a validated set leaves its code space. -/
theorem stopOf_le {lens : List Nat} (h : lensFit lens = true) : ∀ l, l ≤ 15 → stopOf lens l ≤ 2 ^ l := by
  intro l
  induction l with
  | zero => intro _; simp [stopOf, startOf, countOf]
  | succ l ih =>
    intro hl
    by_cases hc : countOf lens (l + 1) = 0
    · have := ih (by omega)
      rw [stopOf, startOf_succ, hc, Nat.pow_succ]; omega
    · exact lensFit_iff.1 h (l + 1) (by omega) hl hc

/-- Codes of a longer length start beyond every shorter range: canonical codes are prefix-free (41_huffman_table.md
R170). -/
theorem stopOf_mul_le_startOf (lens : List Nat) (l k : Nat) :
    stopOf lens l * 2 ^ (k + 1) ≤ startOf lens (l + k + 1) := by
  induction k with
  | zero => rw [startOf_succ]; simp; omega
  | succ k ih =>
    rw [show l + (k + 1) + 1 = (l + k + 1) + 1 by omega, startOf_succ, Nat.pow_succ']
    have : startOf lens (l + k + 1) ≤ stopOf lens (l + k + 1) := by simp [stopOf]
    calc stopOf lens l * (2 * 2 ^ (k + 1)) = 2 * (stopOf lens l * 2 ^ (k + 1)) := by ring
      _ ≤ 2 * startOf lens (l + k + 1) := by omega
      _ ≤ _ := by omega

/-- Where a number read MSB-first is a code of length `m`, none of its shorter beginnings is a code. -/
theorem shorter_not_inRange {lens : List Nat} {bytes : List Byte} {p l m : Nat} (hm : m < 16) (hl : l < m)
    (h : (Table.ofLens lens).inRange m (msbNat bytes p m) = true) :
    (Table.ofLens lens).inRange l (msbNat bytes p l) = false := by
  rw [inRange_ofLens hm] at h
  rw [← Bool.not_eq_true, inRange_ofLens (by omega)]
  rintro ⟨_, _, hx⟩
  obtain ⟨k, rfl⟩ : ∃ k, m = l + k + 1 := ⟨m - l - 1, by omega⟩
  have h1 := stopOf_mul_le_startOf lens l k
  have h2 : stopOf lens l * 2 ^ (k + 1) ≤ msbNat bytes p (l + (k + 1)) := Nat.le_trans h1 h.2.1
  have h3 := Nat.div_le_div_right (c := 2 ^ (k + 1)) h2
  rw [Nat.mul_div_cancel _ (Nat.two_pow_pos _), msbNat_shift] at h3
  omega

/-! ### The symbol sequence -/

theorem length_symsOfLength (len v : Nat) (lens : List Nat) :
    (symsOfLength len v lens).length = lens.countP (· == len) := by
  induction lens generalizing v with
  | nil => rfl
  | cons l ls ih =>
    rw [symsOfLength, List.countP_cons]
    split <;> simp_all

/-- A value of 11 bits is what its field holds (00_scope.md R7). -/
theorem value_of {v len : Nat} (h : v < 2 ^ 11) : (Sym.of v len).value.toNat = v := by
  rw [Sym.of, BitVec.toNat_ofNat, Nat.mod_eq_of_lt h]

/-- A length up to 15 is what its field holds (10_state.md R34). -/
theorem length_of {v len : Nat} (h : len < 16) : (Sym.of v len).length.toNat = len := by
  rw [Sym.of, BitVec.toNat_ofNat, Nat.mod_eq_of_lt h]

/-- A value of a length set has 11 bits. -/
theorem getElem?_lt {lens : List Nat} (hn : lens.length ≤ 2 ^ 11) {v l : Nat} (h : lens[v]? = some l) : v < 2 ^ 11 := by
  have := (List.getElem?_eq_some_iff.1 h).1
  omega

/-- A symbol is what its fields hold. -/
theorem sym_eq_of (s : Sym) : s = Sym.of s.value.toNat s.length.toNat := by
  cases s
  simp [Sym.of]

/-- A symbol of the sequence for one length is a value of that length. -/
theorem mem_symsOfLength {len v : Nat} {lens : List Nat} {s : Sym} (hl : len < 16) (hn : v + lens.length ≤ 2 ^ 11)
    (h : s ∈ symsOfLength len v lens) :
    s.length.toNat = len ∧ v ≤ s.value.toNat ∧ lens[s.value.toNat - v]? = some len := by
  induction lens generalizing v with
  | nil => simp [symsOfLength] at h
  | cons l ls ih =>
    rw [List.length_cons] at hn
    rw [symsOfLength] at h
    split at h
    · next hl =>
      have hl' : l = len := by simpa using hl
      rcases List.mem_cons.1 h with rfl | h
      · rw [value_of (by omega), length_of ‹_›]
        simp [hl']
      · obtain ⟨h1, h2, h3⟩ := ih (by omega) h
        refine ⟨h1, by omega, ?_⟩
        rw [show s.value.toNat - v = s.value.toNat - (v + 1) + 1 by omega, List.getElem?_cons_succ, h3]
    · obtain ⟨h1, h2, h3⟩ := ih (by omega) h
      refine ⟨h1, by omega, ?_⟩
      rw [show s.value.toNat - v = s.value.toNat - (v + 1) + 1 by omega, List.getElem?_cons_succ, h3]

/-- The number of symbols of the lengths `a .. a+k-1`. -/
theorem length_flatMap_range' (lens : List Nat) (a k : Nat) (ha : 1 ≤ a) :
    offsetOf lens a + ((List.range' a k).flatMap fun l => symsOfLength l 0 lens).length = offsetOf lens (a + k) := by
  induction k generalizing a with
  | zero => simp
  | succ k ih =>
    rw [List.range'_succ, List.flatMap_cons, List.length_append, length_symsOfLength]
    have h := ih (a + 1) (by omega)
    have h2 : offsetOf lens (a + 1) = offsetOf lens a + lens.countP (· == a) := by
      rw [offsetOf, countOf, if_neg (by simp; omega)]
    rw [show a + (k + 1) = a + 1 + k by omega, ← h, h2]
    omega

/-- The symbols of length `l` stand together, from `offset[l]` on. -/
theorem presentSyms_split (lens : List Nat) (hn : lens.length ≤ 2 ^ 11) {l : Nat} (h1 : 1 ≤ l) (h2 : l ≤ 15) :
    ∃ before after, presentSyms lens = before ++ (symsOfLength l 0 lens ++ after) ∧
      before.length = offsetOf lens l ∧ (∀ s ∈ before, s.length.toNat < l) ∧ ∀ s ∈ after, l < s.length.toNat := by
  have hsplit : List.range' 1 Config.maxCodeLen = List.range' 1 (l - 1) ++ (l :: List.range' (l + 1) (15 - l)) := by
    rw [← List.range'_succ]
    have : Config.maxCodeLen = (l - 1) + (15 - l + 1) := by simp [Config.maxCodeLen]; omega
    rw [this, ← List.range'_append_1, show 1 + (l - 1) = l by omega]
  refine ⟨(List.range' 1 (l - 1)).flatMap fun l => symsOfLength l 0 lens,
    (List.range' (l + 1) (15 - l)).flatMap fun l => symsOfLength l 0 lens, ?_, ?_, ?_, ?_⟩
  · rw [presentSyms, hsplit, List.flatMap_append, List.flatMap_cons]
  · have := length_flatMap_range' lens 1 (l - 1) (by omega)
    rw [show 1 + (l - 1) = l by omega] at this
    have h0 : offsetOf lens 1 = 0 := by simp [offsetOf, countOf]
    omega
  · intro s hs
    obtain ⟨l', hl', hs'⟩ := List.mem_flatMap.1 hs
    rw [List.mem_range'_1] at hl'
    have := mem_symsOfLength (by omega) (by omega) hs'
    omega
  · intro s hs
    obtain ⟨l', hl', hs'⟩ := List.mem_flatMap.1 hs
    rw [List.mem_range'_1] at hl'
    have := mem_symsOfLength (by omega) (by omega) hs'
    omega

/-- A present symbol is a value whose length is in `1..15`. -/
theorem mem_presentSyms {lens : List Nat} (hn : lens.length ≤ 2 ^ 11) {s : Sym} (h : s ∈ presentSyms lens) :
    1 ≤ s.length.toNat ∧ s.length.toNat ≤ 15 ∧ lens[s.value.toNat]? = some s.length.toNat := by
  obtain ⟨l, hl, hs⟩ := List.mem_flatMap.1 h
  rw [List.mem_range'_1] at hl
  simp only [Config.maxCodeLen] at hl
  have := mem_symsOfLength (by omega) (by omega) hs
  obtain ⟨h1, _, h3⟩ := this
  rw [Nat.sub_zero] at h3
  exact ⟨by omega, by omega, by rw [h3, h1]⟩

/-- The symbol at a place inside the symbols of length `l`. -/
theorem syms_getElem? {lens : List Nat} (hn : lens.length ≤ 2 ^ 11) {l k : Nat} (h1 : 1 ≤ l) (h2 : l ≤ 15) (hk : k < countOf lens l) :
    (presentSyms lens)[offsetOf lens l + k]? = (symsOfLength l 0 lens)[k]? := by
  obtain ⟨before, after, he, hb, _, _⟩ := presentSyms_split lens hn h1 h2
  have hl : (symsOfLength l 0 lens).length = countOf lens l := by
    rw [length_symsOfLength, countOf, if_neg (by simp; omega)]
  rw [he, List.getElem?_append_right (by omega), List.getElem?_append_left (by omega)]
  congr 1; omega

/-- Values rise along the symbols of one length. -/
theorem symsOfLength_pairwise {len v : Nat} {lens : List Nat} (hl : len < 16) (hn : v + lens.length ≤ 2 ^ 11) :
    (symsOfLength len v lens).Pairwise fun x y => x.value.toNat < y.value.toNat := by
  induction lens generalizing v with
  | nil => exact List.Pairwise.nil
  | cons l ls ih =>
    rw [List.length_cons] at hn
    rw [symsOfLength]
    split
    · refine List.pairwise_cons.2 ⟨fun y hy => ?_, ih (by omega)⟩
      have := (mem_symsOfLength hl (by omega) hy).2.1
      rw [value_of (by omega)]
      omega
    · exact ih (by omega)

theorem findSym_eq_some {v k i len : Nat} {ss : List Sym} (h : findSym v k ss = some (i, len)) :
    k ≤ i ∧ ss[i - k]? = some (Sym.of v len) := by
  induction ss generalizing k with
  | nil => simp [findSym] at h
  | cons s ss ih =>
    rw [findSym] at h
    split at h
    · next hv =>
      have hv' : s.value.toNat = v := by simpa using hv
      cases h
      simp [← hv', ← sym_eq_of s]
    · obtain ⟨h1, h2⟩ := ih h
      refine ⟨by omega, ?_⟩
      rw [show i - k = i - (k + 1) + 1 by omega, List.getElem?_cons_succ, h2]

/-- A value that is found is the value of a symbol, with its length. -/
theorem findSym_mem {v k i len : Nat} {ss : List Sym} (h : findSym v k ss = some (i, len)) :
    ∃ s ∈ ss, s.value.toNat = v ∧ s.length.toNat = len := by
  induction ss generalizing k with
  | nil => simp [findSym] at h
  | cons s ss ih =>
    rw [findSym] at h
    split at h
    · next hv =>
      cases h
      exact ⟨s, List.mem_cons_self, by simpa using hv, rfl⟩
    · obtain ⟨x, hx, h⟩ := ih h
      exact ⟨x, List.mem_cons_of_mem _ hx, h⟩

theorem findSym_isSome {v k : Nat} {ss : List Sym} {s : Sym} (h : s ∈ ss) (hv : s.value.toNat = v) :
    (findSym v k ss).isSome = true := by
  induction ss generalizing k with
  | nil => simp at h
  | cons x ss ih =>
    rw [findSym]
    split
    · rfl
    · next hx =>
      rcases List.mem_cons.1 h with rfl | h
      · simp [hv] at hx
      · exact ih h

/-- Every value with a length in `1..15` stands in the sequence. -/
theorem mem_presentSyms_of_length {lens : List Nat} {v l : Nat} (h1 : 1 ≤ l) (h2 : l ≤ 15) (h : lens[v]? = some l) :
    Sym.of v l ∈ presentSyms lens := by
  refine List.mem_flatMap.2 ⟨l, by simp [List.mem_range'_1, Config.maxCodeLen]; omega, ?_⟩
  have : ∀ (ls : List Nat) (w v : Nat), ls[v]? = some l → Sym.of (w + v) l ∈ symsOfLength l w ls := by
    intro ls
    induction ls with
    | nil => intro w v h; simp at h
    | cons x xs ih =>
      intro w v h
      rw [symsOfLength]
      cases v with
      | zero =>
        simp only [List.getElem?_cons_zero, Option.some.injEq] at h
        subst h; simp
      | succ v =>
        have := ih (w + 1) v (by simpa using h)
        rw [show w + 1 + v = w + (v + 1) by omega] at this
        split
        · exact List.mem_cons_of_mem _ this
        · exact this
  simpa using this lens 0 v h

/-- The place and the code of a value of a table that `build` made (41_huffman_table.md R165). -/
theorem codeOf_ofLens {lens : List Nat} (hn : lens.length ≤ 2 ^ 11) {v len code : Nat} (h : (Table.ofLens lens).codeOf v = some (len, code)) :
    1 ≤ len ∧ len ≤ 15 ∧ lens[v]? = some len ∧
      ∃ k, k < countOf lens len ∧ code = startOf lens len + k ∧
        (presentSyms lens)[offsetOf lens len + k]? = some (Sym.of v len) := by
  unfold Table.codeOf at h
  obtain ⟨⟨i, l⟩, hf, he⟩ := Option.map_eq_some_iff.1 h
  simp only [Prod.mk.injEq] at he
  obtain ⟨rfl, hc⟩ := he
  obtain ⟨_, hi⟩ := findSym_eq_some hf
  rw [Nat.sub_zero] at hi
  change (presentSyms lens)[i]? = _ at hi
  obtain ⟨s, hs, hv, hl⟩ : ∃ s ∈ presentSyms lens, s.value.toNat = v ∧ s.length.toNat = l := findSym_mem hf
  obtain ⟨h1, h2, h3⟩ := mem_presentSyms hn hs
  rw [hv, hl] at h3
  rw [hl] at h1 h2
  obtain ⟨before, after, hs, hb, hlt, hgt⟩ := presentSyms_split lens hn h1 h2
  have hlen : (symsOfLength l 0 lens).length = countOf lens l := by
    rw [length_symsOfLength, countOf, if_neg (by simp; omega)]
  have hge : offsetOf lens l ≤ i := by
    by_contra hlt'
    have hm : (presentSyms lens)[i]? = before[i]? := by
      rw [hs, List.getElem?_append_left (by omega)]
    rw [hm] at hi
    have := hlt _ (List.mem_of_getElem? hi)
    rw [length_of (by omega)] at this
    omega
  have hlt2 : i - offsetOf lens l < countOf lens l := by
    by_contra hge2
    have hm : (presentSyms lens)[i]? = after[i - offsetOf lens l - countOf lens l]? := by
      rw [hs, List.getElem?_append_right (by omega), List.getElem?_append_right (by omega)]
      congr 1; omega
    rw [hm] at hi
    have := hgt _ (List.mem_of_getElem? hi)
    rw [length_of (by omega)] at this
    omega
  refine ⟨h1, h2, h3, i - offsetOf lens l, hlt2, ?_, ?_⟩
  · rw [← hc, startAt_ofLens _ (by omega), offsetAt_ofLens _ (by omega)]
  · rw [show offsetOf lens l + (i - offsetOf lens l) = i by omega, hi]

/-- The code of a present value is inside the range of its length (41_huffman_table.md R165). -/
theorem code_inRange {lens : List Nat} (hn : lens.length ≤ 2 ^ 11) {v len code : Nat} (h : (Table.ofLens lens).codeOf v = some (len, code)) :
    (Table.ofLens lens).inRange len code = true := by
  obtain ⟨_, h2, _, k, hk, rfl, _⟩ := codeOf_ofLens hn h
  rw [inRange_ofLens (by omega), stopOf]
  omega

/-- The code of a present value fits its length. -/
theorem code_lt {lens : List Nat} (hn : lens.length ≤ 2 ^ 11) (hf : lensFit lens = true) {v len code : Nat}
    (h : (Table.ofLens lens).codeOf v = some (len, code)) : code < 2 ^ len := by
  obtain ⟨_, h2, _, k, hk, rfl, _⟩ := codeOf_ofLens hn h
  have := stopOf_le hf len h2
  rw [stopOf] at this
  omega

/-- A value has a code exactly if its length is in `1..15`. -/
theorem codeOf_isSome {lens : List Nat} (hn : lens.length ≤ 2 ^ 11) {v l : Nat} (h1 : 1 ≤ l) (h2 : l ≤ 15) (h : lens[v]? = some l) :
    ∃ code, (Table.ofLens lens).codeOf v = some (l, code) := by
  have hm := findSym_isSome (k := 0) (mem_presentSyms_of_length h1 h2 h) (value_of (getElem?_lt hn h))
  obtain ⟨⟨i, l'⟩, hi⟩ := Option.isSome_iff_exists.1 hm
  have hc : (Table.ofLens lens).codeOf v =
      some (l', (Table.ofLens lens).startAt l' + (i - (Table.ofLens lens).offsetAt l')) := by
    show (findSym v 0 (presentSyms lens)).map _ = _
    rw [hi]; rfl
  have := (codeOf_ofLens hn hc).2.2.1
  rw [h] at this
  cases this
  exact ⟨_, hc⟩

/-- `lmax` bounds every populated length, and is at most 15. -/
theorem le_lmaxOf {lens : List Nat} {l n : Nat} (hl : l ≤ n) (hc : countOf lens l ≠ 0) : l ≤ lmaxOf lens n := by
  induction n with
  | zero => omega
  | succ n ih =>
    rw [lmaxOf]
    split
    · next h0 =>
      have : l ≠ n + 1 := by
        rintro rfl
        simp at h0; exact hc h0
      exact ih (by omega)
    · exact hl

theorem lmaxOf_le (lens : List Nat) (n : Nat) : lmaxOf lens n ≤ n := by
  induction n with
  | zero => simp [lmaxOf]
  | succ n ih => rw [lmaxOf]; split <;> omega

theorem lmax_ofLens_le (lens : List Nat) : (Table.ofLens lens).lmax ≤ 15 := lmaxOf_le lens _

/-- An in-range number names a symbol. -/
theorem sym_of_inRange {lens : List Nat} (hn : lens.length ≤ 2 ^ 11) {l x : Nat} (hl : l < 16) (h : (Table.ofLens lens).inRange l x = true) :
    1 ≤ l ∧ ∃ v, (Table.ofLens lens).syms[(Table.ofLens lens).offsetAt l + (x - (Table.ofLens lens).startAt l)]? =
      some (Sym.of v l) ∧ v < 2 ^ 11 ∧ lens[v]? = some l := by
  have h' := (inRange_ofLens hl).1 h
  have h1 : 1 ≤ l := by
    by_contra h0
    have : l = 0 := by omega
    subst this
    simp [countOf] at h'
  refine ⟨h1, ?_⟩
  rw [offsetAt_ofLens _ hl, startAt_ofLens _ hl]
  change ∃ v, (presentSyms lens)[_]? = _ ∧ _
  have hk : x - startOf lens l < countOf lens l := by rw [stopOf] at h'; omega
  rw [syms_getElem? hn h1 (by omega) hk]
  have hlen : (symsOfLength l 0 lens).length = countOf lens l := by
    rw [length_symsOfLength, countOf, if_neg (by simp; omega)]
  have hlt : x - startOf lens l < (symsOfLength l 0 lens).length := by omega
  rw [List.getElem?_eq_getElem hlt]
  have hm := mem_symsOfLength hl (by omega) (List.getElem_mem hlt)
  rw [Nat.sub_zero] at hm
  obtain ⟨ha, _, hc⟩ := hm
  refine ⟨_, congrArg some ?_, BitVec.isLt _, hc⟩
  generalize (symsOfLength l 0 lens)[x - startOf lens l] = s at ha
  rw [← ha]
  exact sym_eq_of s

/-- The values of one table are found back from their codes: the symbol in range at a value's code is that value. -/
theorem sym_of_code {lens : List Nat} (hn : lens.length ≤ 2 ^ 11) {v len code : Nat} (h : (Table.ofLens lens).codeOf v = some (len, code)) :
    (Table.ofLens lens).syms[(Table.ofLens lens).offsetAt len + (code - (Table.ofLens lens).startAt len)]? =
      some (Sym.of v len) := by
  obtain ⟨_, h2, _, k, _, rfl, hs⟩ := codeOf_ofLens hn h
  rw [offsetAt_ofLens _ (by omega), startAt_ofLens _ (by omega), Nat.add_sub_cancel_left]
  exact hs

/-! ### One decode -/

/-- What the loop of `decode` can do, from length `len` on with the bits before it read: it finds the first length
whose bits are in range, or it runs out of input, or of lengths. -/
theorem decodeLoop_cases (t : Table) (bytes : List Byte) (p fuel len : Nat) (h1 : 1 ≤ len) :
    (∃ l s, len ≤ l ∧ l < len + fuel ∧ p + l ≤ 8 * bytes.length ∧ t.inRange l (msbNat bytes p l) = true ∧
      (∀ k, len ≤ k → k < l → t.inRange k (msbNat bytes p k) = false) ∧
      t.syms[t.offsetAt l + (msbNat bytes p l - t.startAt l)]? = some s ∧
      t.decodeLoop fuel len (msbNat bytes p (len - 1)) ⟨bytes, p + (len - 1)⟩ = .sym s.value.toNat ⟨bytes, p + l⟩) ∨
    (∃ l, len ≤ l ∧ l < len + fuel ∧ p + l ≤ 8 * bytes.length ∧ t.inRange l (msbNat bytes p l) = true ∧
      t.syms[t.offsetAt l + (msbNat bytes p l - t.startAt l)]? = none ∧
      t.decodeLoop fuel len (msbNat bytes p (len - 1)) ⟨bytes, p + (len - 1)⟩ =
        .stop .noMatchingCode ⟨bytes, p + l⟩) ∨
    (∃ l, len ≤ l ∧ l < len + fuel ∧ 8 * bytes.length < p + l ∧
      (len < l → p + (l - 1) ≤ 8 * bytes.length) ∧
      (∀ k, len ≤ k → k < l → t.inRange k (msbNat bytes p k) = false) ∧
      t.decodeLoop fuel len (msbNat bytes p (len - 1)) ⟨bytes, p + (len - 1)⟩ =
        .stop .truncated ⟨bytes, p + (l - 1)⟩) ∨
    ((∀ k, len ≤ k → k < len + fuel → t.inRange k (msbNat bytes p k) = false) ∧
      (0 < fuel → p + (len + fuel - 1) ≤ 8 * bytes.length) ∧
      t.decodeLoop fuel len (msbNat bytes p (len - 1)) ⟨bytes, p + (len - 1)⟩ =
        .stop .noMatchingCode ⟨bytes, p + (len + fuel - 1)⟩) := by
  induction fuel generalizing len with
  | zero =>
    refine .inr (.inr (.inr ⟨fun k hk hk' => by omega, by omega, ?_⟩))
    rw [Table.decodeLoop]
    congr 2
  | succ fuel ih =>
    rw [Table.decodeLoop, Cursor.readBit]
    by_cases hl : p + len ≤ 8 * bytes.length
    · have hr := readBits_ok (n := 1) (c := ⟨bytes, p + (len - 1)⟩) (by omega) (by simp only; omega)
      rw [hr]
      simp only
      have hacc : (msbNat bytes p (len - 1)) <<< 1 +
          (BitVec.ofNat 1 (fieldNat bytes (p + (len - 1)) 1)).toNat = msbNat bytes p len := by
        obtain ⟨m, rfl⟩ : ∃ m, len = m + 1 := ⟨len - 1, by omega⟩
        simp only [Nat.add_sub_cancel, msbNat, fieldNat, Nat.shiftLeft_eq, Nat.pow_zero, Nat.add_zero, Nat.zero_add]
        split <;> simp <;> omega
      rw [hacc, show p + (len - 1) + 1 = p + len by omega]
      by_cases hin : t.inRange len (msbNat bytes p len) = true
      · rw [if_pos hin]
        cases hs : t.syms[t.offsetAt len + (msbNat bytes p len - t.startAt len)]? with
        | none => exact .inr (.inl ⟨len, by omega, by omega, hl, hin, hs, rfl⟩)
        | some s => exact .inl ⟨len, s, by omega, by omega, hl, hin, fun k hk hk' => by omega, hs, rfl⟩
      · rw [if_neg hin]
        have hin' : t.inRange len (msbNat bytes p len) = false := by simpa using hin
        have := ih (len + 1) (by omega)
        rw [Nat.add_sub_cancel] at this
        rcases this with ⟨l, s, ha, hb, hc, hd, he, hf, hg⟩ | ⟨l, ha, hb, hc, hd, he, hg⟩ |
          ⟨l, ha, hb, hc, hd, he, hg⟩ | ⟨ha, hb, hg⟩
        · refine .inl ⟨l, s, by omega, by omega, hc, hd, fun k hk hk' => ?_, hf, hg⟩
          rcases Nat.lt_or_eq_of_le hk with h | rfl
          · exact he k h hk'
          · exact hin'
        · exact .inr (.inl ⟨l, by omega, by omega, hc, hd, he, hg⟩)
        · refine .inr (.inr (.inl ⟨l, by omega, by omega, hc, fun _ => ?_, fun k hk hk' => ?_, hg⟩))
          · rcases Nat.lt_or_eq_of_le ha with h | h
            · exact hd h
            · rw [← h]; simpa using hl
          · rcases Nat.lt_or_eq_of_le hk with h | rfl
            · exact he k h hk'
            · exact hin'
        · refine .inr (.inr (.inr ⟨fun k hk hk' => ?_, fun _ => ?_, ?_⟩))
          · rcases Nat.lt_or_eq_of_le hk with h | rfl
            · exact ha k h (by omega)
            · exact hin'
          · rcases Nat.eq_zero_or_pos fuel with rfl | h
            · simpa using hl
            · have := hb h; omega
          · rw [hg]; congr 2; omega
    · have hr := readBits_truncated (n := 1) (c := ⟨bytes, p + (len - 1)⟩) (by omega) (by simp only; omega)
      rw [hr]
      exact .inr (.inr (.inl ⟨len, by omega, by omega, by omega, fun h => by omega, fun k hk hk' => by omega, rfl⟩))

/-- Everything one decode with a table that `build` made can do (41_huffman_table.md R166 to R169). -/
theorem decode_ofLens_cases (lens : List Nat) (hn : lens.length ≤ 2 ^ 11) (c : Cursor) :
    (∃ l v, 1 ≤ l ∧ l ≤ (Table.ofLens lens).lmax ∧ c.pos + l ≤ 8 * c.bytes.length ∧ lens[v]? = some l ∧
      (Table.ofLens lens).inRange l (msbNat c.bytes c.pos l) = true ∧
      (Table.ofLens lens).syms[(Table.ofLens lens).offsetAt l +
        (msbNat c.bytes c.pos l - (Table.ofLens lens).startAt l)]? = some (Sym.of v l) ∧
      (Table.ofLens lens).decode c = .sym v { c with pos := c.pos + l }) ∨
    (∃ l, 1 ≤ l ∧ l ≤ (Table.ofLens lens).lmax ∧ 8 * c.bytes.length < c.pos + l ∧
      (1 < l → c.pos + (l - 1) ≤ 8 * c.bytes.length) ∧
      (∀ k, 1 ≤ k → k < l → (Table.ofLens lens).inRange k (msbNat c.bytes c.pos k) = false) ∧
      (Table.ofLens lens).decode c = .stop .truncated { c with pos := c.pos + (l - 1) }) ∨
    ((∀ k, 1 ≤ k → k ≤ (Table.ofLens lens).lmax →
        (Table.ofLens lens).inRange k (msbNat c.bytes c.pos k) = false) ∧
      (0 < (Table.ofLens lens).lmax → c.pos + (Table.ofLens lens).lmax ≤ 8 * c.bytes.length) ∧
      (Table.ofLens lens).decode c =
        .stop .noMatchingCode { c with pos := c.pos + (Table.ofLens lens).lmax }) := by
  obtain ⟨bytes, p⟩ := c
  have hmax := lmax_ofLens_le lens
  have h := decodeLoop_cases (Table.ofLens lens) bytes p (Table.ofLens lens).lmax 1 (by omega)
  have h0 : (Table.ofLens lens).decode ⟨bytes, p⟩ =
      (Table.ofLens lens).decodeLoop (Table.ofLens lens).lmax 1 (msbNat bytes p (1 - 1)) ⟨bytes, p + (1 - 1)⟩ := rfl
  rw [h0]
  rcases h with ⟨l, s, ha, hb, hc, hd, he, hf, hg⟩ | ⟨l, ha, hb, hc, hd, he, hg⟩ |
    ⟨l, ha, hb, hc, hd, he, hg⟩ | ⟨ha, hb, hg⟩
  · obtain ⟨_, v, hv, hlt, hlen⟩ := sym_of_inRange hn (by omega) hd
    rw [hf] at hv
    cases hv
    rw [value_of hlt] at hg
    exact .inl ⟨l, v, ha, by omega, hc, hlen, hd, hf, hg⟩
  · obtain ⟨_, v, hv, _⟩ := sym_of_inRange hn (by omega) hd
    rw [he] at hv
    cases hv
  · exact .inr (.inl ⟨l, ha, by omega, hc, hd, he, hg⟩)
  · refine .inr (.inr ⟨fun k hk hk' => ha k hk (by omega), fun h => ?_, ?_⟩)
    · have := hb h; simpa [Nat.add_sub_cancel_left] using this
    · rw [hg, Nat.add_sub_cancel_left]

end Sys2Proof
end

