-- ==== Sys2Proof/Laws/PerInstr.lean ====
section
/-! SUPPORT. Statements made for every instruction, one lemma per constructor. -/

namespace Sys2Proof.Laws.OperandRoundTrip

/-- The operand decoder of an alphabet. -/
def operand (cls : SymClass) (first : Bool) (v : Nat) (c : Cursor) : Decoded :=
  match cls with
  | .cl => decodeClOperand first v c
  | .litLen => decodeLitLenOperand v c
  | .dist => decodeDistOperand v c

/-- An instruction is recovered from its encoded fields: a symbol and its extra field, where that field's bits stand at
the cursor, or the fields of a header (30_encoding.md R101 to R108). -/
def Statement (i : Instr) : Prop :=
  match i.shape with
  | .coded cls v width extra =>
    extra < 2 ^ width ∧ width ≤ 13 ∧ ∀ (c : Cursor) (first : Bool), (cls = .cl → v = 16 → first = false) →
      BitsAt c.bytes c.pos (bitsLsb (BitVec.ofNat width extra)) →
      operand cls first v c = .instr i (c.pos + width)
  | .env cmf flg => i = .env cmf flg
  | .blk btype bfinal => i = blkInstr btype bfinal
  | .stored len nlen => i = .stored len nlen
  | .dynHdr hlit hdist hclen cllens => i = .dynHdr hlit hdist hclen cllens
  | .trailer value => i = .trailer value

/-- Reading the extra field of a symbol where its bits stand. -/
theorem read_extra {n : Nat} (x : BitVec n) (hn : n ≤ 13) (mk : BitVec n → Instr) (c : Cursor)
    (h : BitsAt c.bytes c.pos (bitsLsb (BitVec.ofNat n x.toNat))) :
    (withBits n c .nothing fun x c => .instr (mk x) c.pos) = .instr (mk x) (c.pos + n) := by
  rw [BitVec.ofNat_toNat, BitVec.setWidth_eq] at h
  rw [withBits_of_bitsAt (by omega) h]

theorem env (cmf flg : Byte) : Statement (.env cmf flg) := rfl
theorem blkStored (f : Bool) : Statement (.blkStored f) := rfl
theorem blkFixed (f : Bool) : Statement (.blkFixed f) := rfl
theorem blkDynamic (f : Bool) : Statement (.blkDynamic f) := rfl
theorem blkReserved (f : Bool) : Statement (.blkReserved f) := rfl
theorem stored (len nlen : BitVec 16) : Statement (.stored len nlen) := rfl
theorem dynHdr (hlit hdist : BitVec 5) (hclen : BitVec 4) (cllens : List (BitVec 3)) :
    Statement (.dynHdr hlit hdist hclen cllens) := rfl
theorem clLen (len : BitVec 4) : Statement (.clLen len) :=
  ⟨by simp, by omega, fun c first _ _ => by simp [operand, decodeClOperand, len.isLt]⟩
theorem clRep (x : BitVec 2) : Statement (.clRep x) :=
  ⟨x.isLt, by omega, fun c first hf h => by
    obtain rfl := hf rfl rfl
    exact read_extra x (by omega) .clRep c h⟩
theorem clZero3 (x : BitVec _) : Statement (.clZero3 x) :=
  ⟨x.isLt, by omega, fun c _ _ h => read_extra x (by omega) .clZero3 c h⟩
theorem clZero11 (x : BitVec _) : Statement (.clZero11 x) :=
  ⟨x.isLt, by omega, fun c _ _ h => read_extra x (by omega) .clZero11 c h⟩
theorem lit (v : Byte) : Statement (.lit v) :=
  ⟨by simp, by omega, fun c first _ _ => by simp [operand, decodeLitLenOperand, v.isLt]⟩
theorem eob : Statement .eob := ⟨by omega, by omega, fun _ _ _ _ => rfl⟩
theorem len257 : Statement .len257 := ⟨by omega, by omega, fun _ _ _ _ => rfl⟩
theorem len258 : Statement .len258 := ⟨by omega, by omega, fun _ _ _ _ => rfl⟩
theorem len259 : Statement .len259 := ⟨by omega, by omega, fun _ _ _ _ => rfl⟩
theorem len260 : Statement .len260 := ⟨by omega, by omega, fun _ _ _ _ => rfl⟩
theorem len261 : Statement .len261 := ⟨by omega, by omega, fun _ _ _ _ => rfl⟩
theorem len262 : Statement .len262 := ⟨by omega, by omega, fun _ _ _ _ => rfl⟩
theorem len263 : Statement .len263 := ⟨by omega, by omega, fun _ _ _ _ => rfl⟩
theorem len264 : Statement .len264 := ⟨by omega, by omega, fun _ _ _ _ => rfl⟩
theorem len265 (x : BitVec _) : Statement (.len265 x) :=
  ⟨x.isLt, by omega, fun c _ _ h => read_extra x (by omega) .len265 c h⟩
theorem len266 (x : BitVec _) : Statement (.len266 x) :=
  ⟨x.isLt, by omega, fun c _ _ h => read_extra x (by omega) .len266 c h⟩
theorem len267 (x : BitVec _) : Statement (.len267 x) :=
  ⟨x.isLt, by omega, fun c _ _ h => read_extra x (by omega) .len267 c h⟩
theorem len268 (x : BitVec _) : Statement (.len268 x) :=
  ⟨x.isLt, by omega, fun c _ _ h => read_extra x (by omega) .len268 c h⟩
theorem len269 (x : BitVec _) : Statement (.len269 x) :=
  ⟨x.isLt, by omega, fun c _ _ h => read_extra x (by omega) .len269 c h⟩
theorem len270 (x : BitVec _) : Statement (.len270 x) :=
  ⟨x.isLt, by omega, fun c _ _ h => read_extra x (by omega) .len270 c h⟩
theorem len271 (x : BitVec _) : Statement (.len271 x) :=
  ⟨x.isLt, by omega, fun c _ _ h => read_extra x (by omega) .len271 c h⟩
theorem len272 (x : BitVec _) : Statement (.len272 x) :=
  ⟨x.isLt, by omega, fun c _ _ h => read_extra x (by omega) .len272 c h⟩
theorem len273 (x : BitVec _) : Statement (.len273 x) :=
  ⟨x.isLt, by omega, fun c _ _ h => read_extra x (by omega) .len273 c h⟩
theorem len274 (x : BitVec _) : Statement (.len274 x) :=
  ⟨x.isLt, by omega, fun c _ _ h => read_extra x (by omega) .len274 c h⟩
theorem len275 (x : BitVec _) : Statement (.len275 x) :=
  ⟨x.isLt, by omega, fun c _ _ h => read_extra x (by omega) .len275 c h⟩
theorem len276 (x : BitVec _) : Statement (.len276 x) :=
  ⟨x.isLt, by omega, fun c _ _ h => read_extra x (by omega) .len276 c h⟩
theorem len277 (x : BitVec _) : Statement (.len277 x) :=
  ⟨x.isLt, by omega, fun c _ _ h => read_extra x (by omega) .len277 c h⟩
theorem len278 (x : BitVec _) : Statement (.len278 x) :=
  ⟨x.isLt, by omega, fun c _ _ h => read_extra x (by omega) .len278 c h⟩
theorem len279 (x : BitVec _) : Statement (.len279 x) :=
  ⟨x.isLt, by omega, fun c _ _ h => read_extra x (by omega) .len279 c h⟩
theorem len280 (x : BitVec _) : Statement (.len280 x) :=
  ⟨x.isLt, by omega, fun c _ _ h => read_extra x (by omega) .len280 c h⟩
theorem len281 (x : BitVec _) : Statement (.len281 x) :=
  ⟨x.isLt, by omega, fun c _ _ h => read_extra x (by omega) .len281 c h⟩
theorem len282 (x : BitVec _) : Statement (.len282 x) :=
  ⟨x.isLt, by omega, fun c _ _ h => read_extra x (by omega) .len282 c h⟩
theorem len283 (x : BitVec _) : Statement (.len283 x) :=
  ⟨x.isLt, by omega, fun c _ _ h => read_extra x (by omega) .len283 c h⟩
theorem len284 (x : BitVec _) : Statement (.len284 x) :=
  ⟨x.isLt, by omega, fun c _ _ h => read_extra x (by omega) .len284 c h⟩
theorem len285 : Statement .len285 := ⟨by omega, by omega, fun _ _ _ _ => rfl⟩
theorem len286 : Statement .len286 := ⟨by omega, by omega, fun _ _ _ _ => rfl⟩
theorem len287 : Statement .len287 := ⟨by omega, by omega, fun _ _ _ _ => rfl⟩
theorem dist0 : Statement .dist0 := ⟨by omega, by omega, fun _ _ _ _ => rfl⟩
theorem dist1 : Statement .dist1 := ⟨by omega, by omega, fun _ _ _ _ => rfl⟩
theorem dist2 : Statement .dist2 := ⟨by omega, by omega, fun _ _ _ _ => rfl⟩
theorem dist3 : Statement .dist3 := ⟨by omega, by omega, fun _ _ _ _ => rfl⟩
theorem dist4 (y : BitVec _) : Statement (.dist4 y) :=
  ⟨y.isLt, by omega, fun c _ _ h => read_extra y (by omega) .dist4 c h⟩
theorem dist5 (y : BitVec _) : Statement (.dist5 y) :=
  ⟨y.isLt, by omega, fun c _ _ h => read_extra y (by omega) .dist5 c h⟩
theorem dist6 (y : BitVec _) : Statement (.dist6 y) :=
  ⟨y.isLt, by omega, fun c _ _ h => read_extra y (by omega) .dist6 c h⟩
theorem dist7 (y : BitVec _) : Statement (.dist7 y) :=
  ⟨y.isLt, by omega, fun c _ _ h => read_extra y (by omega) .dist7 c h⟩
theorem dist8 (y : BitVec _) : Statement (.dist8 y) :=
  ⟨y.isLt, by omega, fun c _ _ h => read_extra y (by omega) .dist8 c h⟩
theorem dist9 (y : BitVec _) : Statement (.dist9 y) :=
  ⟨y.isLt, by omega, fun c _ _ h => read_extra y (by omega) .dist9 c h⟩
theorem dist10 (y : BitVec _) : Statement (.dist10 y) :=
  ⟨y.isLt, by omega, fun c _ _ h => read_extra y (by omega) .dist10 c h⟩
theorem dist11 (y : BitVec _) : Statement (.dist11 y) :=
  ⟨y.isLt, by omega, fun c _ _ h => read_extra y (by omega) .dist11 c h⟩
theorem dist12 (y : BitVec _) : Statement (.dist12 y) :=
  ⟨y.isLt, by omega, fun c _ _ h => read_extra y (by omega) .dist12 c h⟩
theorem dist13 (y : BitVec _) : Statement (.dist13 y) :=
  ⟨y.isLt, by omega, fun c _ _ h => read_extra y (by omega) .dist13 c h⟩
theorem dist14 (y : BitVec _) : Statement (.dist14 y) :=
  ⟨y.isLt, by omega, fun c _ _ h => read_extra y (by omega) .dist14 c h⟩
theorem dist15 (y : BitVec _) : Statement (.dist15 y) :=
  ⟨y.isLt, by omega, fun c _ _ h => read_extra y (by omega) .dist15 c h⟩
theorem dist16 (y : BitVec _) : Statement (.dist16 y) :=
  ⟨y.isLt, by omega, fun c _ _ h => read_extra y (by omega) .dist16 c h⟩
theorem dist17 (y : BitVec _) : Statement (.dist17 y) :=
  ⟨y.isLt, by omega, fun c _ _ h => read_extra y (by omega) .dist17 c h⟩
theorem dist18 (y : BitVec _) : Statement (.dist18 y) :=
  ⟨y.isLt, by omega, fun c _ _ h => read_extra y (by omega) .dist18 c h⟩
theorem dist19 (y : BitVec _) : Statement (.dist19 y) :=
  ⟨y.isLt, by omega, fun c _ _ h => read_extra y (by omega) .dist19 c h⟩
theorem dist20 (y : BitVec _) : Statement (.dist20 y) :=
  ⟨y.isLt, by omega, fun c _ _ h => read_extra y (by omega) .dist20 c h⟩
theorem dist21 (y : BitVec _) : Statement (.dist21 y) :=
  ⟨y.isLt, by omega, fun c _ _ h => read_extra y (by omega) .dist21 c h⟩
theorem dist22 (y : BitVec _) : Statement (.dist22 y) :=
  ⟨y.isLt, by omega, fun c _ _ h => read_extra y (by omega) .dist22 c h⟩
theorem dist23 (y : BitVec _) : Statement (.dist23 y) :=
  ⟨y.isLt, by omega, fun c _ _ h => read_extra y (by omega) .dist23 c h⟩
theorem dist24 (y : BitVec _) : Statement (.dist24 y) :=
  ⟨y.isLt, by omega, fun c _ _ h => read_extra y (by omega) .dist24 c h⟩
theorem dist25 (y : BitVec _) : Statement (.dist25 y) :=
  ⟨y.isLt, by omega, fun c _ _ h => read_extra y (by omega) .dist25 c h⟩
theorem dist26 (y : BitVec _) : Statement (.dist26 y) :=
  ⟨y.isLt, by omega, fun c _ _ h => read_extra y (by omega) .dist26 c h⟩
theorem dist27 (y : BitVec _) : Statement (.dist27 y) :=
  ⟨y.isLt, by omega, fun c _ _ h => read_extra y (by omega) .dist27 c h⟩
theorem dist28 (y : BitVec _) : Statement (.dist28 y) :=
  ⟨y.isLt, by omega, fun c _ _ h => read_extra y (by omega) .dist28 c h⟩
theorem dist29 (y : BitVec _) : Statement (.dist29 y) :=
  ⟨y.isLt, by omega, fun c _ _ h => read_extra y (by omega) .dist29 c h⟩
theorem dist30 : Statement .dist30 := ⟨by omega, by omega, fun _ _ _ _ => rfl⟩
theorem dist31 : Statement .dist31 := ⟨by omega, by omega, fun _ _ _ _ => rfl⟩
theorem trailer (v : Word) : Statement (.trailer v) := rfl

end Sys2Proof.Laws.OperandRoundTrip
end

