-- ==== Sys2Proof/Laws/Decode.lean ====
section
/-! SUPPORT. What the decoder can answer: which instruction from which bits, where it stands after it, and how it stops. -/

namespace Sys2Proof

/-! ### One symbol -/

/-- What one decode can do, whatever the table: find a symbol, meet the end of the input, or find none. -/
theorem Table.decode_cases (t : Table) (c : Cursor) :
    (∃ l v, 1 ≤ l ∧ l ≤ t.lmax ∧ c.pos + l ≤ 8 * c.bytes.length ∧ t.decode c = .sym v { c with pos := c.pos + l }) ∨
    (∃ l, 1 ≤ l ∧ l ≤ t.lmax ∧ 8 * c.bytes.length < c.pos + l ∧ (1 < l → c.pos + (l - 1) ≤ 8 * c.bytes.length) ∧
      t.decode c = .stop .truncated { c with pos := c.pos + (l - 1) }) ∨
    (∃ l, l ≤ t.lmax ∧ (0 < l → c.pos + l ≤ 8 * c.bytes.length) ∧
      t.decode c = .stop .noMatchingCode { c with pos := c.pos + l }) := by
  obtain ⟨bytes, p⟩ := c
  have h := decodeLoop_cases t bytes p t.lmax 1 (by omega)
  have h0 : t.decode ⟨bytes, p⟩ = t.decodeLoop t.lmax 1 (msbNat bytes p (1 - 1)) ⟨bytes, p + (1 - 1)⟩ := rfl
  rw [h0]
  rcases h with ⟨l, s, ha, hb, hc, _, _, _, hg⟩ | ⟨l, ha, hb, hc, _, _, hg⟩ | ⟨l, ha, hb, hc, hd, _, hg⟩ | ⟨_, hb, hg⟩
  · exact .inl ⟨l, _, ha, by omega, hc, hg⟩
  · exact .inr (.inr ⟨l, by omega, fun _ => hc, hg⟩)
  · exact .inr (.inl ⟨l, ha, by omega, hc, hd, hg⟩)
  · refine .inr (.inr ⟨t.lmax, le_rfl, fun h => ?_, ?_⟩)
    · have := hb h; simpa only [Nat.add_sub_cancel_left] using this
    · rw [hg, Nat.add_sub_cancel_left]

/-- Where the code of a value stands, a table that `build` made decodes it (41_huffman_table.md R166, R170). -/
theorem decode_of_code {lens : List Nat} (hn : lens.length ≤ 2 ^ 11) (hf : lensFit lens = true) {v len code : Nat} {c : Cursor}
    (h : (Table.ofLens lens).codeOf v = some (len, code)) (hb : BitsAt c.bytes c.pos (bitsMsb len code)) :
    (Table.ofLens lens).decode c = .sym v { c with pos := c.pos + len } := by
  obtain ⟨bytes, p⟩ := c
  obtain ⟨h1, h15, hv, _⟩ := codeOf_ofLens hn h
  obtain ⟨hl, hm⟩ := (bitsAt_bitsMsb (code_lt hn hf h)).1 hb
  have hin := code_inRange hn h
  rw [← hm] at hin
  have hmax : len ≤ (Table.ofLens lens).lmax :=
    le_lmaxOf (by simpa [Config.maxCodeLen] using h15) (by
      have := ((inRange_ofLens (by omega)).1 hin).1; omega)
  simp only at hl hm
  have key : ∀ k, 1 ≤ k → k < len → (Table.ofLens lens).inRange k (msbNat bytes p k) = false :=
    fun k _ hk => shorter_not_inRange (by omega) hk hin
  have h0 : (Table.ofLens lens).decode ⟨bytes, p⟩ =
      (Table.ofLens lens).decodeLoop (Table.ofLens lens).lmax 1 (msbNat bytes p (1 - 1)) ⟨bytes, p + (1 - 1)⟩ := rfl
  rw [h0]
  have one : ∀ l, 1 ≤ l → l ≤ (Table.ofLens lens).lmax → (Table.ofLens lens).inRange l (msbNat bytes p l) = true →
      (∀ k, 1 ≤ k → k < l → (Table.ofLens lens).inRange k (msbNat bytes p k) = false) → l = len := by
    intro l ha hb hi hlt
    rcases Nat.lt_trichotomy l len with h' | h' | h'
    · have := key l ha h'; rw [hi] at this; cases this
    · exact h'
    · have := hlt len h1 h'; rw [hin] at this; cases this
  rcases decodeLoop_cases (Table.ofLens lens) bytes p (Table.ofLens lens).lmax 1 (by omega) with
    ⟨l, s, ha, hb', hc, hd, he, hs, hg⟩ | ⟨l, ha, hb', hc, hd, he, hg⟩ | ⟨l, ha, hb', hc, _, he, hg⟩ | ⟨ha, _, hg⟩
  · obtain rfl := one l ha (by omega) hd he
    have hs' := sym_of_code hn h
    rw [← hm, hs] at hs'
    cases hs'
    rw [value_of (getElem?_lt hn hv)] at hg
    exact hg
  · have hmx := lmax_ofLens_le lens
    obtain ⟨_, v', hv', _⟩ := sym_of_inRange hn (by omega) hd
    rw [he] at hv'
    cases hv'
  · by_cases hlt : len < l
    · have := he len h1 hlt; rw [hin] at this; cases this
    · omega
  · have := ha len h1 (by omega); rw [hin] at this; cases this

/-- A symbol that a table that `build` made decodes is one whose code stands there (41_huffman_table.md R165, R170). -/
theorem code_of_decode {lens : List Nat} (hn : lens.length ≤ 2 ^ 11) (hf : lensFit lens = true) {v : Nat} {c c' : Cursor}
    (h : (Table.ofLens lens).decode c = .sym v c') :
    ∃ len code, (Table.ofLens lens).codeOf v = some (len, code) ∧ 1 ≤ len ∧ len ≤ (Table.ofLens lens).lmax ∧
      lens[v]? = some len ∧ BitsAt c.bytes c.pos (bitsMsb len code) ∧ c' = { c with pos := c.pos + len } := by
  rcases decode_ofLens_cases lens hn c with ⟨l, v', h1, hl, hp, hv, hin, hs, hd⟩ | ⟨l, _, _, _, _, _, hd⟩ | ⟨_, _, hd⟩
  · rw [hd] at h
    cases h
    have hmx := lmax_ofLens_le lens
    obtain ⟨code, hc⟩ := codeOf_isSome hn h1 (by omega) hv
    have hcode : msbNat c.bytes c.pos l = code := by
      obtain ⟨_, h15, _, k, hk, rfl, hk'⟩ := codeOf_ofLens hn hc
      have hin' := (inRange_ofLens (by omega)).1 hin
      rw [offsetAt_ofLens _ (by omega), startAt_ofLens _ (by omega)] at hs
      have hk2 : msbNat c.bytes c.pos l - startOf lens l < countOf lens l := by
        have := hin'.2.2; rw [stopOf] at this; omega
      have hs1 : (symsOfLength l 0 lens)[msbNat c.bytes c.pos l - startOf lens l]? = some (Sym.of v l) := by
        rw [← syms_getElem? hn h1 (by omega) hk2]; exact hs
      have hs2 : (symsOfLength l 0 lens)[k]? = some (Sym.of v l) := by
        rw [← syms_getElem? hn h1 (by omega) hk]; exact hk'
      have hp := symsOfLength_pairwise (len := l) (v := 0) (by omega) (by omega : 0 + lens.length ≤ 2 ^ 11)
      obtain ⟨ha, hva⟩ := List.getElem?_eq_some_iff.1 hs1
      obtain ⟨hb, hvb⟩ := List.getElem?_eq_some_iff.1 hs2
      have hlt : ∀ i j (hi : i < (symsOfLength l 0 lens).length) (hj : j < (symsOfLength l 0 lens).length), i < j →
          (symsOfLength l 0 lens)[i].value.toNat < (symsOfLength l 0 lens)[j].value.toNat :=
        fun i j hi hj hij => List.pairwise_iff_getElem.1 hp i j hi hj hij
      have : msbNat c.bytes c.pos l - startOf lens l = k := by
        rcases Nat.lt_trichotomy (msbNat c.bytes c.pos l - startOf lens l) k with h' | h' | h'
        · have := hlt _ _ ha hb h'; rw [hva, hvb] at this; exact absurd this (Nat.lt_irrefl _)
        · exact h'
        · have := hlt _ _ hb ha h'; rw [hva, hvb] at this; exact absurd this (Nat.lt_irrefl _)
      omega
    refine ⟨l, code, hc, h1, hl, hv, (bitsAt_bitsMsb (code_lt hn hf hc)).2 ⟨hp, hcode⟩, rfl⟩
  · rw [hd] at h; cases h
  · rw [hd] at h; cases h

/-- A symbol read that goes on to an instruction found a symbol. -/
theorem withSymbol_eq_instr {t : Table} {c : Cursor} {k : Nat → Cursor → Decoded} {i : Instr} {pos : Nat}
    (h : withSymbol t c k = .instr i pos) : ∃ v c', t.decode c = .sym v c' ∧ k v c' = .instr i pos := by
  unfold withSymbol at h
  split at h
  · next v c' hd => exact ⟨v, c', hd, h⟩
  · cases h

/-! ### The operands -/

/-- The extra field of a symbol, read off an instruction. -/
theorem extra_eq_instr {n : Nat} {c : Cursor} {mk : BitVec n → Instr} {i : Instr} {pos : Nat}
    (h : (withBits n c .nothing fun x c => .instr (mk x) c.pos) = .instr i pos) :
    ∃ x, i = mk x ∧ pos = c.pos + n ∧ BitsAt c.bytes c.pos (bitsLsb (BitVec.ofNat n x.toNat)) := by
  obtain ⟨x, hx, h⟩ := withBits_eq_instr h
  cases h
  exact ⟨x, rfl, rfl, by rwa [BitVec.ofNat_toNat, BitVec.setWidth_eq]⟩

theorem bitsAt_nil {bytes : List Byte} {p x : Nat} (h : p ≤ 8 * bytes.length) :
    BitsAt bytes p (bitsLsb (BitVec.ofNat 0 x)) := ⟨by simpa [length_bitsLsb] using h, fun k hk => by simp [bitsLsb] at hk⟩

/-- A literal/length operand read answers an instruction of that symbol, its extra field after the code. -/
theorem litLenOperand_eq_instr {v : Nat} {c : Cursor} {i : Instr} {pos : Nat} (hc : c.pos ≤ 8 * c.bytes.length)
    (h : decodeLitLenOperand v c = .instr i pos) :
    ∃ w x, i.shape = .coded .litLen v w x ∧ pos = c.pos + w ∧ BitsAt c.bytes c.pos (bitsLsb (BitVec.ofNat w x)) := by
  unfold decodeLitLenOperand at h
  split at h
  · next hv =>
    cases h
    exact ⟨0, 0, by simp [Instr.shape, Nat.mod_eq_of_lt hv], rfl, bitsAt_nil hc⟩
  · split at h <;>
      first
      | (cases h; exact ⟨0, 0, rfl, rfl, bitsAt_nil hc⟩)
      | (obtain ⟨x, rfl, hp, hb⟩ := extra_eq_instr h; exact ⟨_, _, rfl, hp, hb⟩)
      | cases h

/-- A distance operand read answers an instruction of that symbol, its extra field after the code. -/
theorem distOperand_eq_instr {v : Nat} {c : Cursor} {i : Instr} {pos : Nat} (hc : c.pos ≤ 8 * c.bytes.length)
    (h : decodeDistOperand v c = .instr i pos) :
    ∃ w x, i.shape = .coded .dist v w x ∧ pos = c.pos + w ∧ BitsAt c.bytes c.pos (bitsLsb (BitVec.ofNat w x)) := by
  unfold decodeDistOperand at h
  split at h <;>
    first
    | (cases h; exact ⟨0, 0, rfl, rfl, bitsAt_nil hc⟩)
    | (obtain ⟨x, rfl, hp, hb⟩ := extra_eq_instr h; exact ⟨_, _, rfl, hp, hb⟩)
    | cases h

/-- A code-length operand read answers an instruction of that symbol; symbol 16 with no previous length reads no extra
field, otherwise the extra field stands after the code. -/
theorem clOperand_eq_instr {first : Bool} {v : Nat} {c : Cursor} {i : Instr} {pos : Nat}
    (hc : c.pos ≤ 8 * c.bytes.length) (h : decodeClOperand first v c = .instr i pos) :
    ∃ w x, i.shape = .coded .cl v w x ∧
      ((first && v == 16) = true ∧ x = 0 ∧ pos = c.pos ∨
        (first && v == 16) = false ∧ pos = c.pos + w ∧ BitsAt c.bytes c.pos (bitsLsb (BitVec.ofNat w x))) := by
  unfold decodeClOperand at h
  split at h
  · next hv =>
    cases h
    refine ⟨0, 0, by simp [Instr.shape, Nat.mod_eq_of_lt hv], .inr ⟨?_, rfl, bitsAt_nil hc⟩⟩
    have : v ≠ 16 := by omega
    simp [this]
  · split at h
    · split at h
      · next hf =>
        cases h
        exact ⟨2, 0, rfl, .inl ⟨by simp [hf], rfl, rfl⟩⟩
      · next hf =>
        obtain ⟨x, rfl, hp, hb⟩ := extra_eq_instr h
        exact ⟨_, _, rfl, .inr ⟨by simp [hf], hp, hb⟩⟩
    · obtain ⟨x, rfl, hp, hb⟩ := extra_eq_instr h
      exact ⟨_, _, rfl, .inr ⟨by simp, hp, hb⟩⟩
    · obtain ⟨x, rfl, hp, hb⟩ := extra_eq_instr h
      exact ⟨_, _, rfl, .inr ⟨by simp, hp, hb⟩⟩
    · cases h

/-- Which stops an operand read can end in, and that the cursor stays where the failed read began. -/
theorem litLenOperand_eq_stop {v : Nat} {c : Cursor} {w : Stop} {p : Part} {pos : Nat}
    (h : decodeLitLenOperand v c = .stop w p pos) :
    p = .nothing ∧ pos = c.pos ∧ (w = .truncated ∨ 287 < v ∧ w = .undefinedSymbol) := by
  unfold decodeLitLenOperand at h
  split at h
  · cases h
  · split at h
    all_goals
      first
      | (cases h; done)
      | (rcases withBits_eq_stop (by omega) h with ⟨rfl, rfl, rfl, _⟩ | ⟨_, _, h⟩
         · exact ⟨rfl, rfl, .inl rfl⟩
         · cases h)
      | (cases h; exact ⟨rfl, rfl, .inr ⟨by simp only [imp_false] at *; omega, rfl⟩⟩)

theorem distOperand_eq_stop {v : Nat} {c : Cursor} {w : Stop} {p : Part} {pos : Nat}
    (h : decodeDistOperand v c = .stop w p pos) :
    p = .nothing ∧ pos = c.pos ∧ (w = .truncated ∨ 31 < v ∧ w = .undefinedSymbol) := by
  unfold decodeDistOperand at h
  split at h
  all_goals
    first
    | (cases h; done)
    | (rcases withBits_eq_stop (by omega) h with ⟨rfl, rfl, rfl, _⟩ | ⟨_, _, h⟩
       · exact ⟨rfl, rfl, .inl rfl⟩
       · cases h)
    | (cases h; exact ⟨rfl, rfl, .inr ⟨by simp only [imp_false] at *; omega, rfl⟩⟩)

theorem clOperand_eq_stop {first : Bool} {v : Nat} {c : Cursor} {w : Stop} {p : Part} {pos : Nat}
    (h : decodeClOperand first v c = .stop w p pos) :
    p = .nothing ∧ pos = c.pos ∧ (w = .truncated ∨ 18 < v ∧ w = .undefinedSymbol) := by
  unfold decodeClOperand at h
  split at h
  · cases h
  · split at h
    all_goals
      first
      | (cases h; done)
      | (rcases withBits_eq_stop (by omega) h with ⟨rfl, rfl, rfl, _⟩ | ⟨_, _, h⟩
         · exact ⟨rfl, rfl, .inl rfl⟩
         · cases h)
      | (cases h; exact ⟨rfl, rfl, .inr ⟨by simp only [imp_false] at *; omega, rfl⟩⟩)
      | (split at h
         · cases h
         · rcases withBits_eq_stop (by omega) h with ⟨rfl, rfl, rfl, _⟩ | ⟨_, _, h⟩
           · exact ⟨rfl, rfl, .inl rfl⟩
           · cases h)

/-! ### Where the decoder stands -/

/-- The least number of bits an instruction of a context takes (70_reset_and_hazards.md R414). -/
def Ctx.minBits : Ctx → Nat
  | .env => 16
  | .blkHdr => 3
  | .stored => 32
  | .dynHdr => 26
  | .clSym _ _ => 1
  | .litLen _ => 1
  | .dist _ => 1
  | .trailer => 32

/-- A decoding that started at `lo` never goes back, stays inside an input of `hi` bits, takes at least `need` bits for an
instruction, and never asks for a read over 32 bits. (Only a read the input is too short for can stop past an end that
lies before `lo`.) -/
def Decoded.Inside (lo hi need : Nat) : Decoded → Prop
  | .instr _ pos => lo + need ≤ pos ∧ pos ≤ hi
  | .stop w _ pos =>
    lo ≤ pos ∧ (lo ≤ hi → pos ≤ hi) ∧ (w ≠ .truncated → pos ≤ hi ∨ pos = lo) ∧ ∀ n, w ≠ .tooWide n

theorem withBits_inside {lo need n : Nat} {c : Cursor} {part : Part} {k : BitVec n → Cursor → Decoded} (hn : n ≤ 32)
    (hlo : lo ≤ c.pos) (hc : lo ≤ 8 * c.bytes.length → c.pos ≤ 8 * c.bytes.length)
    (hk : ∀ v, c.pos + n ≤ 8 * c.bytes.length →
      (k v { c with pos := c.pos + n }).Inside lo (8 * c.bytes.length) need) :
    (withBits n c part k).Inside lo (8 * c.bytes.length) need := by
  unfold withBits
  split
  · next v c' hr =>
    obtain ⟨_, hl, _, rfl⟩ := readBits_eq_ok hr
    exact hk v hl
  · next w hr =>
    obtain ⟨rfl, _⟩ := readBits_eq_error hn hr
    exact ⟨hlo, hc, fun h => absurd rfl h, by simp⟩

theorem withSymbol_inside {need : Nat} {t : Table} {bytes : List Byte} {p : Nat} {k : Nat → Cursor → Decoded}
    (hk : ∀ v l, 1 ≤ l → p + l ≤ 8 * bytes.length → (k v ⟨bytes, p + l⟩).Inside p (8 * bytes.length) need) :
    (withSymbol t ⟨bytes, p⟩ k).Inside p (8 * bytes.length) need := by
  unfold withSymbol
  rcases t.decode_cases ⟨bytes, p⟩ with ⟨l, v, h1, _, hl, hd⟩ | ⟨l, h1, _, hl, hp, hd⟩ | ⟨l, _, hl, hd⟩ <;> rw [hd] <;>
    simp only at *
  · exact hk v l h1 hl
  · refine ⟨by omega, fun h => ?_, fun h => absurd rfl h, by simp⟩
    rcases Nat.lt_or_eq_of_le h1 with h' | h'
    · exact hp h'
    · omega
  · have : p + l ≤ 8 * bytes.length ∨ p + l = p := by
      rcases Nat.eq_zero_or_pos l with rfl | h'
      · exact .inr rfl
      · exact .inl (hl h')
    exact ⟨by omega, fun h => by omega, fun _ => this, by simp⟩

theorem cllens_inside {lo need : Nat} {bytes : List Byte} (x y : BitVec 5) (z : BitVec 4) (k : Nat) (got : List (BitVec 3))
    (p : Nat) (hlo : lo + need ≤ p + 3 * k) (hl : lo ≤ p) (hc : p ≤ 8 * bytes.length) :
    (decodeCllens x y z k got ⟨bytes, p⟩).Inside lo (8 * bytes.length) need := by
  induction k generalizing got p with
  | zero => exact ⟨by simpa using hlo, hc⟩
  | succ k ih =>
    rw [decodeCllens]
    exact withBits_inside (c := ⟨bytes, p⟩) (by omega) hl (fun _ => hc) fun v hv =>
      ih _ (p + 3) (by omega) (by omega) hv

/-- An operand read stays inside, whatever its width. -/
theorem operand_inside {lo p : Nat} {bytes : List Byte} {d : Decoded} (hlo : lo + 1 ≤ p) (hp : p ≤ 8 * bytes.length)
    (hi : ∀ i pos, d = .instr i pos → p ≤ pos ∧ pos ≤ 8 * bytes.length)
    (hs : ∀ w q pos, d = .stop w q pos → pos = p ∧ ∀ n, w ≠ .tooWide n) : d.Inside lo (8 * bytes.length) 1 := by
  cases d with
  | instr i pos => have := hi i pos rfl; exact ⟨by omega, this.2⟩
  | stop w q pos => obtain ⟨rfl, hw⟩ := hs w q pos rfl; exact ⟨by omega, fun _ => hp, fun _ => .inl hp, hw⟩

/-- Every answer of the decoder stays inside the input. -/
theorem decode_inside (ctx : Ctx) (off : Nat) (bytes : List Byte) :
    (decode ctx off bytes).Inside off (8 * bytes.length) ctx.minBits := by
  have hal := le_alignUp off
  have hal' : off ≤ 8 * bytes.length → alignUp off ≤ 8 * bytes.length := alignUp_le
  cases ctx with
  | env =>
    rw [decode, decodeEnv]
    split
    · exact ⟨le_rfl, id, fun h => absurd rfl h, by simp⟩
    · exact withBits_inside (c := ⟨bytes, off⟩) (by omega) le_rfl id fun _ h1 =>
        withBits_inside (c := ⟨bytes, off + 8⟩) (by omega) (by simp) (fun _ => h1) fun _ h2 => ⟨by simp [Ctx.minBits], h2⟩
  | blkHdr =>
    exact withBits_inside (c := ⟨bytes, off⟩) (by omega) le_rfl id fun _ h1 =>
      withBits_inside (c := ⟨bytes, off + 1⟩) (by omega) (by simp) (fun _ => h1) fun _ h2 => ⟨by simp [Ctx.minBits], h2⟩
  | stored =>
    exact withBits_inside (c := ⟨bytes, alignUp off⟩) (by omega) hal hal' fun _ h1 =>
      withBits_inside (c := ⟨bytes, alignUp off + 16⟩) (by omega) (by simp only; omega) (fun _ => h1) fun _ h2 =>
        ⟨by simp only [Ctx.minBits]; omega, h2⟩
  | dynHdr =>
    exact withBits_inside (c := ⟨bytes, off⟩) (by omega) le_rfl id fun _ h1 =>
      withBits_inside (c := ⟨bytes, off + 5⟩) (by omega) (by simp) (fun _ => h1) fun _ h2 =>
        withBits_inside (c := ⟨bytes, off + 5 + 5⟩) (by omega) (by simp only; omega) (fun _ => h2) fun _ h3 =>
          cllens_inside _ _ _ _ _ _ (by simp only [Ctx.minBits]; omega) (by simp only; omega) h3
  | clSym t first =>
    refine withSymbol_inside fun v l h1 hl => operand_inside (p := off + l) (by omega) hl (fun i pos hd => ?_) fun w q pos hd => ?_
    · obtain ⟨w, x, _, hp⟩ := clOperand_eq_instr (c := ⟨bytes, off + l⟩) hl hd
      rcases hp with ⟨_, _, rfl⟩ | ⟨_, rfl, hb⟩
      · exact ⟨le_rfl, hl⟩
      · have := hb.1; rw [length_bitsLsb] at this; exact ⟨by simp, this⟩
    · obtain ⟨_, rfl, hw⟩ := clOperand_eq_stop hd
      refine ⟨rfl, fun n => ?_⟩
      rcases hw with rfl | ⟨_, rfl⟩ <;> simp
  | litLen t =>
    refine withSymbol_inside fun v l h1 hl => operand_inside (p := off + l) (by omega) hl (fun i pos hd => ?_) fun w q pos hd => ?_
    · obtain ⟨w, x, _, rfl, hb⟩ := litLenOperand_eq_instr (c := ⟨bytes, off + l⟩) hl hd
      have := hb.1; rw [length_bitsLsb] at this; exact ⟨by simp, this⟩
    · obtain ⟨_, rfl, hw⟩ := litLenOperand_eq_stop hd
      refine ⟨rfl, fun n => ?_⟩
      rcases hw with rfl | ⟨_, rfl⟩ <;> simp
  | dist t =>
    refine withSymbol_inside fun v l h1 hl => operand_inside (p := off + l) (by omega) hl (fun i pos hd => ?_) fun w q pos hd => ?_
    · obtain ⟨w, x, _, rfl, hb⟩ := distOperand_eq_instr (c := ⟨bytes, off + l⟩) hl hd
      have := hb.1; rw [length_bitsLsb] at this; exact ⟨by simp, this⟩
    · obtain ⟨_, rfl, hw⟩ := distOperand_eq_stop hd
      refine ⟨rfl, fun n => ?_⟩
      rcases hw with rfl | ⟨_, rfl⟩ <;> simp
  | trailer =>
    exact withBits_inside (c := ⟨bytes, alignUp off⟩) (by omega) hal hal' fun _ h1 =>
      withBits_inside (c := ⟨bytes, alignUp off + 8⟩) (by omega) (by simp only; omega) (fun _ => h1) fun _ h2 =>
        withBits_inside (c := ⟨bytes, alignUp off + 8 + 8⟩) (by omega) (by simp only; omega) (fun _ => h2) fun _ h3 =>
          withBits_inside (c := ⟨bytes, alignUp off + 8 + 8 + 8⟩) (by omega) (by simp only; omega) (fun _ => h3) fun _ h4 =>
            ⟨by simp only [Ctx.minBits]; omega, h4⟩

/-! ### The headers -/

theorem decodeEnv_of_bits {bytes : List Byte} {off : Nat} {cmf flg : Byte}
    (h : BitsAt bytes off (bitsLsb cmf ++ bitsLsb flg)) : decodeEnv ⟨bytes, off⟩ = .instr (.env cmf flg) (off + 16) := by
  obtain ⟨h1, h2⟩ := bitsAt_append.1 h
  have hl := h.1
  simp only [List.length_append, length_bitsLsb] at hl h2
  rw [decodeEnv, if_neg (by simp only [Cursor.remainingBytes]; omega), withBits_of_bitsAt (by omega) h1,
    withBits_of_bitsAt (by omega) h2]

theorem decodeEnv_eq_instr {bytes : List Byte} {off : Nat} {i : Instr} {pos : Nat}
    (h : decodeEnv ⟨bytes, off⟩ = .instr i pos) :
    ∃ cmf flg, i = .env cmf flg ∧ pos = off + 16 ∧ BitsAt bytes off (bitsLsb cmf ++ bitsLsb flg) := by
  unfold decodeEnv at h
  split at h
  · cases h
  · obtain ⟨cmf, h1, h⟩ := withBits_eq_instr h
    obtain ⟨flg, h2, h⟩ := withBits_eq_instr h
    cases h
    exact ⟨cmf, flg, rfl, rfl, bitsAt_append.2 ⟨h1, by simpa [length_bitsLsb] using h2⟩⟩

theorem decodeBlkHdr_of_bits {bytes : List Byte} {off : Nat} {f : Bool} {t : BitVec 2}
    (h : BitsAt bytes off (f :: bitsLsb t)) : decodeBlkHdr ⟨bytes, off⟩ = .instr (blkInstr t f) (off + 3) := by
  have hf : bitsLsb (BitVec.ofBool f) = [f] := by cases f <;> rfl
  obtain ⟨h1, h2⟩ := bitsAt_append (xs := [f]).1 h
  rw [← hf] at h1
  have hb : (BitVec.ofBool f == 1) = f := by cases f <;> rfl
  rw [decodeBlkHdr, withBits_of_bitsAt (by omega) h1, withBits_of_bitsAt (by omega) h2, hb]

theorem decodeBlkHdr_eq_instr {bytes : List Byte} {off : Nat} {i : Instr} {pos : Nat}
    (h : decodeBlkHdr ⟨bytes, off⟩ = .instr i pos) :
    ∃ f t, i = blkInstr t f ∧ pos = off + 3 ∧ BitsAt bytes off (f :: bitsLsb t) := by
  obtain ⟨b, h1, h⟩ := withBits_eq_instr h
  obtain ⟨t, h2, h⟩ := withBits_eq_instr h
  cases h
  have hb : bitsLsb b = [b == 1] := by
    have : b = 0 ∨ b = 1 := by
      have := b.isLt
      rcases (by omega : b.toNat = 0 ∨ b.toNat = 1) with h | h
      · exact .inl (BitVec.eq_of_toNat_eq h)
      · exact .inr (BitVec.eq_of_toNat_eq h)
    rcases this with rfl | rfl <;> rfl
  rw [hb] at h1
  exact ⟨b == 1, t, rfl, rfl, bitsAt_append (xs := [b == 1]).2 ⟨h1, h2⟩⟩

theorem decodeStored_of_bits {bytes : List Byte} {off : Nat} {len nlen : BitVec 16}
    (h : BitsAt bytes (alignUp off) (bitsLsb len ++ bitsLsb nlen)) :
    decodeStored ⟨bytes, off⟩ = .instr (.stored len nlen) (alignUp off + 32) := by
  obtain ⟨h1, h2⟩ := bitsAt_append.1 h
  rw [length_bitsLsb] at h2
  rw [decodeStored, withBits_of_bitsAt (by omega) h1, withBits_of_bitsAt (by omega) h2]
  rfl

theorem decodeStored_eq_instr {bytes : List Byte} {off : Nat} {i : Instr} {pos : Nat}
    (h : decodeStored ⟨bytes, off⟩ = .instr i pos) :
    ∃ len nlen, i = .stored len nlen ∧ pos = alignUp off + 32 ∧
      BitsAt bytes (alignUp off) (bitsLsb len ++ bitsLsb nlen) := by
  obtain ⟨len, h1, h⟩ := withBits_eq_instr h
  obtain ⟨nlen, h2, h⟩ := withBits_eq_instr h
  cases h
  exact ⟨len, nlen, rfl, rfl, bitsAt_append.2 ⟨h1, by simpa [length_bitsLsb, Cursor.align] using h2⟩⟩

theorem decodeCllens_of_bits {bytes : List Byte} {x y : BitVec 5} {z : BitVec 4} (ls got : List (BitVec 3)) {p : Nat}
    (h : BitsAt bytes p (ls.flatMap bitsLsb)) :
    decodeCllens x y z ls.length got ⟨bytes, p⟩ = .instr (.dynHdr x y z (got ++ ls)) (p + 3 * ls.length) := by
  induction ls generalizing got p with
  | nil => simp [decodeCllens]
  | cons l ls ih =>
    rw [List.flatMap_cons] at h
    obtain ⟨h1, h2⟩ := bitsAt_append.1 h
    rw [length_bitsLsb] at h2
    rw [List.length_cons, decodeCllens, withBits_of_bitsAt (by omega) h1, ih (got ++ [l]) h2]
    simp only [List.append_assoc, List.singleton_append]
    congr 1; omega

theorem decodeCllens_eq_instr {bytes : List Byte} {x y : BitVec 5} {z : BitVec 4} (k : Nat) (got : List (BitVec 3))
    {p : Nat} (hp : p ≤ 8 * bytes.length) {i : Instr} {pos : Nat}
    (h : decodeCllens x y z k got ⟨bytes, p⟩ = .instr i pos) :
    ∃ ls : List (BitVec 3), ls.length = k ∧ i = .dynHdr x y z (got ++ ls) ∧ pos = p + 3 * k ∧
      BitsAt bytes p (ls.flatMap bitsLsb) := by
  induction k generalizing got p with
  | zero =>
    cases h
    exact ⟨[], rfl, by simp, rfl, by simpa using hp, fun k hk => by simp at hk⟩
  | succ k ih =>
    obtain ⟨l, h1, h⟩ := withBits_eq_instr h
    have hl := h1.1
    rw [length_bitsLsb] at hl
    obtain ⟨ls, hk, rfl, rfl, h2⟩ := ih (got ++ [l]) hl h
    refine ⟨l :: ls, by simp [hk], by simp, by simp only; omega, ?_⟩
    rw [List.flatMap_cons]
    exact bitsAt_append.2 ⟨h1, by rwa [length_bitsLsb]⟩

theorem decodeDynHdr_of_bits {bytes : List Byte} {off : Nat} {x y : BitVec 5} {z : BitVec 4} {ls : List (BitVec 3)}
    (hz : ls.length = z.toNat + 4)
    (h : BitsAt bytes off (bitsLsb x ++ (bitsLsb y ++ (bitsLsb z ++ ls.flatMap bitsLsb)))) :
    decodeDynHdr ⟨bytes, off⟩ = .instr (.dynHdr x y z ls) (off + 14 + 3 * ls.length) := by
  obtain ⟨h1, h⟩ := bitsAt_append.1 h
  obtain ⟨h2, h⟩ := bitsAt_append.1 h
  obtain ⟨h3, h⟩ := bitsAt_append.1 h
  simp only [length_bitsLsb] at h2 h3 h
  rw [decodeDynHdr, withBits_of_bitsAt (by omega) h1, withBits_of_bitsAt (by omega) h2,
    withBits_of_bitsAt (by omega) h3, ← hz, decodeCllens_of_bits ls [] h]
  simp only [List.nil_append]

theorem decodeDynHdr_eq_instr {bytes : List Byte} {off : Nat} {i : Instr} {pos : Nat}
    (h : decodeDynHdr ⟨bytes, off⟩ = .instr i pos) :
    ∃ x y z ls, ls.length = z.toNat + 4 ∧ i = .dynHdr x y z ls ∧ pos = off + 14 + 3 * ls.length ∧
      BitsAt bytes off (bitsLsb x ++ (bitsLsb y ++ (bitsLsb z ++ ls.flatMap bitsLsb))) := by
  obtain ⟨x, h1, h⟩ := withBits_eq_instr h
  obtain ⟨y, h2, h⟩ := withBits_eq_instr h
  obtain ⟨z, h3, h⟩ := withBits_eq_instr h
  have hl := h3.1
  rw [length_bitsLsb] at hl
  obtain ⟨ls, hk, rfl, rfl, h4⟩ := decodeCllens_eq_instr _ [] hl h
  refine ⟨x, y, z, ls, hk, by simp, by simp only [hk], ?_⟩
  refine bitsAt_append.2 ⟨h1, bitsAt_append.2 ⟨?_, bitsAt_append.2 ⟨?_, ?_⟩⟩⟩ <;>
    simpa only [length_bitsLsb] using ‹_›

/-- A trailer word from its bytes, first byte most significant (20_memory.md R83). -/
theorem bigEndian_word (v : Word) :
    BitVec.ofNat 32 (bigEndian [v.extractLsb' 24 8, v.extractLsb' 16 8, v.extractLsb' 8 8, v.extractLsb' 0 8]) = v := by
  apply BitVec.eq_of_toNat_eq
  have := v.isLt
  simp only [bigEndian, List.foldl, BitVec.extractLsb'_toNat, Nat.shiftRight_eq_div_pow, BitVec.toNat_ofNat]
  omega

theorem extract_bigEndian (b0 b1 b2 b3 : Byte) :
    (BitVec.ofNat 32 (bigEndian [b0, b1, b2, b3])).extractLsb' 24 8 = b0 ∧
      (BitVec.ofNat 32 (bigEndian [b0, b1, b2, b3])).extractLsb' 16 8 = b1 ∧
      (BitVec.ofNat 32 (bigEndian [b0, b1, b2, b3])).extractLsb' 8 8 = b2 ∧
      (BitVec.ofNat 32 (bigEndian [b0, b1, b2, b3])).extractLsb' 0 8 = b3 := by
  have h0 := b0.isLt
  have h1 := b1.isLt
  have h2 := b2.isLt
  have h3 := b3.isLt
  refine ⟨?_, ?_, ?_, ?_⟩ <;> apply BitVec.eq_of_toNat_eq <;>
    simp only [bigEndian, List.foldl, BitVec.extractLsb'_toNat, Nat.shiftRight_eq_div_pow, BitVec.toNat_ofNat] <;> omega

theorem decodeTrailer_of_bits {bytes : List Byte} {off : Nat} {v : Word}
    (h : BitsAt bytes (alignUp off) (bitsLsb (v.extractLsb' 24 8) ++ (bitsLsb (v.extractLsb' 16 8) ++
      (bitsLsb (v.extractLsb' 8 8) ++ bitsLsb (v.extractLsb' 0 8))))) :
    decodeTrailer ⟨bytes, off⟩ = .instr (.trailer v) (alignUp off + 32) := by
  obtain ⟨h1, h⟩ := bitsAt_append.1 h
  obtain ⟨h2, h⟩ := bitsAt_append.1 h
  obtain ⟨h3, h4⟩ := bitsAt_append.1 h
  simp only [length_bitsLsb] at h2 h3 h4
  rw [decodeTrailer, withBits_of_bitsAt (by omega) h1, withBits_of_bitsAt (by omega) h2,
    withBits_of_bitsAt (by omega) h3, withBits_of_bitsAt (by omega) h4, bigEndian_word]
  rfl

theorem decodeTrailer_eq_instr {bytes : List Byte} {off : Nat} {i : Instr} {pos : Nat}
    (h : decodeTrailer ⟨bytes, off⟩ = .instr i pos) :
    ∃ v : Word, i = .trailer v ∧ pos = alignUp off + 32 ∧
      BitsAt bytes (alignUp off) (bitsLsb (v.extractLsb' 24 8) ++ (bitsLsb (v.extractLsb' 16 8) ++
        (bitsLsb (v.extractLsb' 8 8) ++ bitsLsb (v.extractLsb' 0 8)))) := by
  obtain ⟨b0, h0, h⟩ := withBits_eq_instr h
  obtain ⟨b1, h1, h⟩ := withBits_eq_instr h
  obtain ⟨b2, h2, h⟩ := withBits_eq_instr h
  obtain ⟨b3, h3, h⟩ := withBits_eq_instr h
  cases h
  obtain ⟨e0, e1, e2, e3⟩ := extract_bigEndian b0 b1 b2 b3
  refine ⟨_, rfl, rfl, ?_⟩
  rw [e0, e1, e2, e3]
  refine bitsAt_append.2 ⟨h0, bitsAt_append.2 ⟨?_, bitsAt_append.2 ⟨?_, ?_⟩⟩⟩ <;>
    simpa only [length_bitsLsb] using ‹_›

/-- The class of what is decoded is the context's (30_encoding.md R110). -/
theorem decode_class {ctx : Ctx} {off : Nat} {bytes : List Byte} {i : Instr} {pos : Nat}
    (hd : decode ctx off bytes = .instr i pos) :
    match ctx with
    | .env => ∃ cmf flg, i = .env cmf flg
    | .blkHdr => ∃ f t, i = blkInstr t f
    | .stored => ∃ len nlen, i = .stored len nlen
    | .dynHdr => ∃ x y z ls, ls.length = z.toNat + 4 ∧ i = .dynHdr x y z ls
    | .clSym _ _ => ∃ v w x, i.shape = .coded .cl v w x
    | .litLen _ => ∃ v w x, i.shape = .coded .litLen v w x
    | .dist _ => ∃ v w x, i.shape = .coded .dist v w x
    | .trailer => ∃ v, i = .trailer v := by
  cases ctx with
  | env => obtain ⟨a, b, h, _⟩ := decodeEnv_eq_instr hd; exact ⟨a, b, h⟩
  | blkHdr => obtain ⟨a, b, h, _⟩ := decodeBlkHdr_eq_instr hd; exact ⟨a, b, h⟩
  | stored => obtain ⟨a, b, h, _⟩ := decodeStored_eq_instr hd; exact ⟨a, b, h⟩
  | dynHdr => obtain ⟨a, b, c, d, h1, h2, _⟩ := decodeDynHdr_eq_instr hd; exact ⟨a, b, c, d, h1, h2⟩
  | clSym t first =>
    obtain ⟨v, c', hs, ho⟩ := withSymbol_eq_instr hd
    rcases t.decode_cases ⟨bytes, off⟩ with ⟨l, v', _, _, hl, he⟩ | ⟨_, _, _, _, _, he⟩ | ⟨_, _, _, he⟩ <;>
      rw [hs] at he <;> cases he
    obtain ⟨w, x, hx, _⟩ := clOperand_eq_instr (c := ⟨bytes, off + l⟩) hl ho
    exact ⟨v, w, x, hx⟩
  | litLen t =>
    obtain ⟨v, c', hs, ho⟩ := withSymbol_eq_instr hd
    rcases t.decode_cases ⟨bytes, off⟩ with ⟨l, v', _, _, hl, he⟩ | ⟨_, _, _, _, _, he⟩ | ⟨_, _, _, he⟩ <;>
      rw [hs] at he <;> cases he
    obtain ⟨w, x, hx, _⟩ := litLenOperand_eq_instr (c := ⟨bytes, off + l⟩) hl ho
    exact ⟨v, w, x, hx⟩
  | dist t =>
    obtain ⟨v, c', hs, ho⟩ := withSymbol_eq_instr hd
    rcases t.decode_cases ⟨bytes, off⟩ with ⟨l, v', _, _, hl, he⟩ | ⟨_, _, _, _, _, he⟩ | ⟨_, _, _, he⟩ <;>
      rw [hs] at he <;> cases he
    obtain ⟨w, x, hx, _⟩ := distOperand_eq_instr (c := ⟨bytes, off + l⟩) hl ho
    exact ⟨v, w, x, hx⟩
  | trailer => obtain ⟨a, h, _⟩ := decodeTrailer_eq_instr hd; exact ⟨a, h⟩

end Sys2Proof
end

