-- ==== Sys2Proof/Laws/Memory.lean ====
section
/-! SUPPORT. The laws of the byte spaces: read after write, the canonical form, ranges. -/

namespace Sys2Proof.Machine

@[simp] theorem read_nil (a : Nat) : Memory.read [] a = none := rfl

theorem read_cons (k : Nat) (b : Byte) (m : Memory) (a : Nat) :
    Memory.read ((k, b) :: m) a = if k = a then some b else Memory.read m a := by
  simp [Memory.read]

/-- A byte just written is read back. -/
@[simp] theorem read_write_same (m : Memory) (a : Nat) (b : Byte) : Memory.read (Memory.write m a b) a = some b := by
  induction m with
  | nil => simp [Memory.write, read_cons]
  | cons x m ih =>
    obtain ⟨k, c⟩ := x
    rw [Memory.write]
    split
    · simp [read_cons]
    · split
      · simp [read_cons]
      · rename_i h1 h2
        have : k ≠ a := fun e => h2 (by simp [e])
        simp [read_cons, this, ih]

/-- A write leaves every other address as it was. -/
theorem read_write_ne (m : Memory) {a a' : Nat} (b : Byte) (h : a' ≠ a) :
    Memory.read (Memory.write m a b) a' = Memory.read m a' := by
  induction m with
  | nil => simp [Memory.write, read_cons, Ne.symm h]
  | cons x m ih =>
    obtain ⟨k, c⟩ := x
    rw [Memory.write]
    split
    · simp [read_cons, Ne.symm h]
    · split
      · rename_i h1 h2
        have hk : a = k := by simpa using h2
        subst hk
        simp [read_cons, Ne.symm h]
      · simp [read_cons, ih]

theorem read_write (m : Memory) (a a' : Nat) (b : Byte) :
    Memory.read (Memory.write m a b) a' = if a' = a then some b else Memory.read m a' := by
  split
  · next h => subst h; simp
  · next h => exact read_write_ne m b h

/-- Every address a write lists was listed before, or is the one written. -/
theorem mem_write {m : Memory} {a : Nat} {b : Byte} {x : Host.Cell} (h : x ∈ Memory.write m a b) :
    x ∈ m ∨ x = (a, b) := by
  induction m with
  | nil => simpa [Memory.write] using h
  | cons y m ih =>
    obtain ⟨k, c⟩ := y
    rw [Memory.write] at h
    split at h
    · simp only [List.mem_cons] at h ⊢; tauto
    · split at h
      · simp only [List.mem_cons] at h ⊢; tauto
      · simp only [List.mem_cons] at h ⊢
        rcases h with h | h
        · exact .inl (.inl h)
        · rcases ih h with h | h
          · exact .inl (.inr h)
          · exact .inr h

/-- Writing keeps the canonical form. -/
theorem write_wf {m : Memory} (h : Memory.wf m) (a : Nat) (b : Byte) : Memory.wf (Memory.write m a b) := by
  induction m with
  | nil => simp [Memory.write]
  | cons x m ih =>
    obtain ⟨k, c⟩ := x
    have hm := List.pairwise_cons.1 h
    rw [Memory.write]
    split
    · next hk =>
      refine List.pairwise_cons.2 ⟨fun y hy => ?_, h⟩
      rcases List.mem_cons.1 hy with rfl | hy
      · exact hk
      · exact Nat.lt_trans hk (hm.1 y hy)
    · split
      · next h2 =>
        have hk : a = k := by simpa using h2
        subst hk
        exact List.pairwise_cons.2 ⟨fun y hy => hm.1 y hy, hm.2⟩
      · next h1 h2 =>
        have hk : a ≠ k := by simpa using h2
        refine List.pairwise_cons.2 ⟨fun y hy => ?_, ih hm.2⟩
        rcases mem_write hy with hy | rfl
        · exact hm.1 y hy
        · show k < a
          omega

theorem writeAll_wf {m : Memory} (h : Memory.wf m) (a : Nat) (bs : List Byte) : Memory.wf (Memory.writeAll m a bs) := by
  induction bs generalizing m a with
  | nil => exact h
  | cons b bs ih => exact ih (write_wf h a b) (a + 1)

theorem nil_wf : Memory.wf [] := List.Pairwise.nil

/-- Reading after writing consecutive bytes. -/
theorem read_writeAll (m : Memory) (a : Nat) (bs : List Byte) (x : Nat) :
    Memory.read (Memory.writeAll m a bs) x =
      if a ≤ x ∧ x < a + bs.length then bs[x - a]? else Memory.read m x := by
  induction bs generalizing m a with
  | nil => simp [Memory.writeAll]
  | cons b bs ih =>
    rw [Memory.writeAll, ih, List.length_cons]
    by_cases h : x = a
    · subst h
      simp
    · by_cases h2 : a + 1 ≤ x ∧ x < a + 1 + bs.length
      · have : x - a = (x - (a + 1)) + 1 := by omega
        rw [if_pos h2, if_pos (by omega), this, List.getElem?_cons_succ]
      · rw [if_neg h2, if_neg (by omega), read_write_ne _ _ h]

theorem readRun_length_le (m : Memory) (a k : Nat) : (Memory.readRun m a k).length ≤ k := by
  induction k generalizing a with
  | zero => simp [Memory.readRun]
  | succ k ih =>
    rw [Memory.readRun]
    split
    · simp
    · simpa using ih (a + 1)

/-- Where the bytes are written, a run has them all. -/
theorem readRun_length_eq {m : Memory} {a k : Nat} (h : ∀ j, j < k → (Memory.read m (a + j)).isSome = true) :
    (Memory.readRun m a k).length = k := by
  induction k generalizing a with
  | zero => rfl
  | succ k ih =>
    rw [Memory.readRun]
    have h0 := h 0 (by omega)
    rw [Nat.add_zero] at h0
    obtain ⟨b, hb⟩ := Option.isSome_iff_exists.1 h0
    rw [hb]
    have := ih (a := a + 1) fun j hj => by
      have := h (j + 1) (by omega)
      rwa [show a + (j + 1) = a + 1 + j by omega] at this
    simp [this]

theorem readRun_get? (m : Memory) (a k j : Nat) (h : j < (Memory.readRun m a k).length) :
    (Memory.readRun m a k)[j]? = Memory.read m (a + j) := by
  induction k generalizing a j with
  | zero => simp [Memory.readRun] at h
  | succ k ih =>
    rw [Memory.readRun] at h ⊢
    split at h
    · simp at h
    · next b hb =>
      cases j with
      | zero => simp [hb]
      | succ j =>
        have := ih (a + 1) j (by simpa using h)
        simpa [Nat.add_assoc, Nat.add_comm 1 j] using this

/-- A range is read exactly if it has all its bytes. -/
theorem readRange_eq_some {m : Memory} {a k : Nat} {bs : List Byte} :
    Memory.readRange m a k = some bs ↔
      bs.length = k ∧ ∀ j, j < k → Memory.read m (a + j) = bs[j]? := by
  induction k generalizing a bs with
  | zero =>
    cases bs <;> simp [Memory.readRange]
  | succ k ih =>
    rw [Memory.readRange]
    constructor
    · intro h
      split at h
      · cases h
      · next b hb =>
        obtain ⟨bs', h', rfl⟩ := Option.map_eq_some_iff.1 h
        obtain ⟨hl, hr⟩ := ih.1 h'
        refine ⟨by simp [hl], fun j hj => ?_⟩
        cases j with
        | zero => simpa using hb
        | succ j =>
          have := hr j (by omega)
          simpa [Nat.add_assoc, Nat.add_comm 1 j] using this
    · rintro ⟨hl, hr⟩
      cases bs with
      | nil => simp at hl
      | cons b bs =>
        have h0 := hr 0 (by omega)
        simp only [Nat.add_zero, List.getElem?_cons_zero] at h0
        rw [h0]
        have : Memory.readRange m (a + 1) k = some bs := ih.2 ⟨by simpa using hl, fun j hj => by
          have := hr (j + 1) (by omega)
          simpa [Nat.add_assoc, Nat.add_comm 1 j] using this⟩
        simp [this]

theorem readRange_isSome {m : Memory} {a k : Nat} (h : ∀ j, j < k → (Memory.read m (a + j)).isSome = true) :
    (Memory.readRange m a k).isSome = true := by
  induction k generalizing a with
  | zero => rfl
  | succ k ih =>
    rw [Memory.readRange]
    have h0 := h 0 (by omega)
    rw [Nat.add_zero] at h0
    obtain ⟨b, hb⟩ := Option.isSome_iff_exists.1 h0
    rw [hb]
    have := ih (a := a + 1) fun j hj => by
      have := h (j + 1) (by omega)
      rwa [show a + (j + 1) = a + 1 + j by omega] at this
    simpa using this

end Sys2Proof.Machine
end

