-- ==== Sys2Proof/Laws/State.lean ====
section
/-! SUPPORT. One lemma per field for every named update of the state. -/

namespace Sys2Proof.Machine

@[simp] theorem goto_inMem (s : State) (f : Fsm) : (s.goto f).inMem = s.inMem := rfl
@[simp] theorem goto_outMem (s : State) (f : Fsm) : (s.goto f).outMem = s.outMem := rfl
@[simp] theorem goto_pc (s : State) (f : Fsm) : (s.goto f).pc = s.pc := rfl
@[simp] theorem goto_endOffset (s : State) (f : Fsm) : (s.goto f).endOffset = s.endOffset := rfl
@[simp] theorem goto_outLen (s : State) (f : Fsm) : (s.goto f).outLen = s.outLen := rfl
@[simp] theorem goto_litTab (s : State) (f : Fsm) : (s.goto f).litTab = s.litTab := rfl
@[simp] theorem goto_distTab (s : State) (f : Fsm) : (s.goto f).distTab = s.distTab := rfl
@[simp] theorem goto_clTab (s : State) (f : Fsm) : (s.goto f).clTab = s.clTab := rfl
@[simp] theorem goto_bfinal (s : State) (f : Fsm) : (s.goto f).bfinal = s.bfinal := rfl
@[simp] theorem goto_btype (s : State) (f : Fsm) : (s.goto f).btype = s.btype := rfl
@[simp] theorem goto_hlit (s : State) (f : Fsm) : (s.goto f).hlit = s.hlit := rfl
@[simp] theorem goto_hdist (s : State) (f : Fsm) : (s.goto f).hdist = s.hdist := rfl
@[simp] theorem goto_hclen (s : State) (f : Fsm) : (s.goto f).hclen = s.hclen := rfl
@[simp] theorem goto_clLen (s : State) (f : Fsm) : (s.goto f).clLen = s.clLen := rfl
@[simp] theorem goto_lens (s : State) (f : Fsm) : (s.goto f).lens = s.lens := rfl
@[simp] theorem goto_slen (s : State) (f : Fsm) : (s.goto f).slen = s.slen := rfl
@[simp] theorem goto_snlen (s : State) (f : Fsm) : (s.goto f).snlen = s.snlen := rfl
@[simp] theorem goto_mlen (s : State) (f : Fsm) : (s.goto f).mlen = s.mlen := rfl
@[simp] theorem goto_mdist (s : State) (f : Fsm) : (s.goto f).mdist = s.mdist := rfl
@[simp] theorem goto_distNext (s : State) (f : Fsm) : (s.goto f).distNext = s.distNext := rfl
@[simp] theorem goto_fsm (s : State) (f : Fsm) : (s.goto f).fsm = f := rfl
@[simp] theorem goto_err (s : State) (f : Fsm) : (s.goto f).err = s.err := rfl
@[simp] theorem goto_s1 (s : State) (f : Fsm) : (s.goto f).s1 = s.s1 := rfl
@[simp] theorem goto_s2 (s : State) (f : Fsm) : (s.goto f).s2 = s.s2 := rfl
@[simp] theorem goto_adlerRead (s : State) (f : Fsm) : (s.goto f).adlerRead = s.adlerRead := rfl
@[simp] theorem goto_inLen (s : State) (f : Fsm) : (s.goto f).inLen = s.inLen := rfl
@[simp] theorem goto_outLimit (s : State) (f : Fsm) : (s.goto f).outLimit = s.outLimit := rfl
@[simp] theorem goto_limitBy (s : State) (f : Fsm) : (s.goto f).limitBy = s.limitBy := rfl
@[simp] theorem goto_freeReads (s : State) (f : Fsm) : (s.goto f).freeReads = s.freeReads := rfl

@[simp] theorem raise_inMem (s : State) (e : ErrKind) : (s.raise e).inMem = s.inMem := rfl
@[simp] theorem raise_outMem (s : State) (e : ErrKind) : (s.raise e).outMem = s.outMem := rfl
@[simp] theorem raise_pc (s : State) (e : ErrKind) : (s.raise e).pc = s.pc := rfl
@[simp] theorem raise_endOffset (s : State) (e : ErrKind) : (s.raise e).endOffset = s.endOffset := rfl
@[simp] theorem raise_outLen (s : State) (e : ErrKind) : (s.raise e).outLen = s.outLen := rfl
@[simp] theorem raise_litTab (s : State) (e : ErrKind) : (s.raise e).litTab = none := rfl
@[simp] theorem raise_distTab (s : State) (e : ErrKind) : (s.raise e).distTab = none := rfl
@[simp] theorem raise_clTab (s : State) (e : ErrKind) : (s.raise e).clTab = none := rfl
@[simp] theorem raise_bfinal (s : State) (e : ErrKind) : (s.raise e).bfinal = s.bfinal := rfl
@[simp] theorem raise_btype (s : State) (e : ErrKind) : (s.raise e).btype = s.btype := rfl
@[simp] theorem raise_hlit (s : State) (e : ErrKind) : (s.raise e).hlit = s.hlit := rfl
@[simp] theorem raise_hdist (s : State) (e : ErrKind) : (s.raise e).hdist = s.hdist := rfl
@[simp] theorem raise_hclen (s : State) (e : ErrKind) : (s.raise e).hclen = s.hclen := rfl
@[simp] theorem raise_clLen (s : State) (e : ErrKind) : (s.raise e).clLen = s.clLen := rfl
@[simp] theorem raise_lens (s : State) (e : ErrKind) : (s.raise e).lens = s.lens := rfl
@[simp] theorem raise_slen (s : State) (e : ErrKind) : (s.raise e).slen = s.slen := rfl
@[simp] theorem raise_snlen (s : State) (e : ErrKind) : (s.raise e).snlen = s.snlen := rfl
@[simp] theorem raise_mlen (s : State) (e : ErrKind) : (s.raise e).mlen = s.mlen := rfl
@[simp] theorem raise_mdist (s : State) (e : ErrKind) : (s.raise e).mdist = s.mdist := rfl
@[simp] theorem raise_distNext (s : State) (e : ErrKind) : (s.raise e).distNext = false := rfl
@[simp] theorem raise_fsm (s : State) (e : ErrKind) : (s.raise e).fsm = .error := rfl
@[simp] theorem raise_err (s : State) (e : ErrKind) : (s.raise e).err = e := rfl
@[simp] theorem raise_s1 (s : State) (e : ErrKind) : (s.raise e).s1 = s.s1 := rfl
@[simp] theorem raise_s2 (s : State) (e : ErrKind) : (s.raise e).s2 = s.s2 := rfl
@[simp] theorem raise_adlerRead (s : State) (e : ErrKind) : (s.raise e).adlerRead = s.adlerRead := rfl
@[simp] theorem raise_inLen (s : State) (e : ErrKind) : (s.raise e).inLen = s.inLen := rfl
@[simp] theorem raise_outLimit (s : State) (e : ErrKind) : (s.raise e).outLimit = s.outLimit := rfl
@[simp] theorem raise_limitBy (s : State) (e : ErrKind) : (s.raise e).limitBy = s.limitBy := rfl
@[simp] theorem raise_freeReads (s : State) (e : ErrKind) : (s.raise e).freeReads = s.freeReads := rfl

@[simp] theorem start_inMem (s : State) : (s.start).inMem = s.inMem := rfl
@[simp] theorem start_outMem (s : State) : (s.start).outMem = s.outMem := rfl
@[simp] theorem start_pc (s : State) : (s.start).pc = 0 := rfl
@[simp] theorem start_endOffset (s : State) : (s.start).endOffset = s.inLen.toNat := rfl
@[simp] theorem start_outLen (s : State) : (s.start).outLen = 0 := rfl
@[simp] theorem start_litTab (s : State) : (s.start).litTab = none := rfl
@[simp] theorem start_distTab (s : State) : (s.start).distTab = none := rfl
@[simp] theorem start_clTab (s : State) : (s.start).clTab = none := rfl
@[simp] theorem start_bfinal (s : State) : (s.start).bfinal = s.bfinal := rfl
@[simp] theorem start_btype (s : State) : (s.start).btype = s.btype := rfl
@[simp] theorem start_hlit (s : State) : (s.start).hlit = s.hlit := rfl
@[simp] theorem start_hdist (s : State) : (s.start).hdist = s.hdist := rfl
@[simp] theorem start_hclen (s : State) : (s.start).hclen = s.hclen := rfl
@[simp] theorem start_clLen (s : State) : (s.start).clLen = s.clLen := rfl
@[simp] theorem start_lens (s : State) : (s.start).lens = s.lens := rfl
@[simp] theorem start_slen (s : State) : (s.start).slen = s.slen := rfl
@[simp] theorem start_snlen (s : State) : (s.start).snlen = s.snlen := rfl
@[simp] theorem start_mlen (s : State) : (s.start).mlen = s.mlen := rfl
@[simp] theorem start_mdist (s : State) : (s.start).mdist = s.mdist := rfl
@[simp] theorem start_distNext (s : State) : (s.start).distNext = false := rfl
@[simp] theorem start_fsm (s : State) : (s.start).fsm = .env := rfl
@[simp] theorem start_err (s : State) : (s.start).err = .none := rfl
@[simp] theorem start_s1 (s : State) : (s.start).s1 = 1 := rfl
@[simp] theorem start_s2 (s : State) : (s.start).s2 = 0 := rfl
@[simp] theorem start_adlerRead (s : State) : (s.start).adlerRead = 0 := rfl
@[simp] theorem start_inLen (s : State) : (s.start).inLen = s.inLen := rfl
@[simp] theorem start_outLimit (s : State) : (s.start).outLimit = s.outLimit := rfl
@[simp] theorem start_limitBy (s : State) : (s.start).limitBy = s.limitBy := rfl
@[simp] theorem start_freeReads (s : State) : (s.start).freeReads = s.freeReads := rfl

@[simp] theorem pushOut_inMem (s : State) (b : Byte) : (s.pushOut b).inMem = s.inMem := rfl
@[simp] theorem pushOut_outMem (s : State) (b : Byte) : (s.pushOut b).outMem = Memory.write s.outMem s.outLen b := rfl
@[simp] theorem pushOut_pc (s : State) (b : Byte) : (s.pushOut b).pc = s.pc := rfl
@[simp] theorem pushOut_endOffset (s : State) (b : Byte) : (s.pushOut b).endOffset = s.endOffset := rfl
@[simp] theorem pushOut_outLen (s : State) (b : Byte) : (s.pushOut b).outLen = s.outLen + 1 := rfl
@[simp] theorem pushOut_litTab (s : State) (b : Byte) : (s.pushOut b).litTab = s.litTab := rfl
@[simp] theorem pushOut_distTab (s : State) (b : Byte) : (s.pushOut b).distTab = s.distTab := rfl
@[simp] theorem pushOut_clTab (s : State) (b : Byte) : (s.pushOut b).clTab = s.clTab := rfl
@[simp] theorem pushOut_bfinal (s : State) (b : Byte) : (s.pushOut b).bfinal = s.bfinal := rfl
@[simp] theorem pushOut_btype (s : State) (b : Byte) : (s.pushOut b).btype = s.btype := rfl
@[simp] theorem pushOut_hlit (s : State) (b : Byte) : (s.pushOut b).hlit = s.hlit := rfl
@[simp] theorem pushOut_hdist (s : State) (b : Byte) : (s.pushOut b).hdist = s.hdist := rfl
@[simp] theorem pushOut_hclen (s : State) (b : Byte) : (s.pushOut b).hclen = s.hclen := rfl
@[simp] theorem pushOut_clLen (s : State) (b : Byte) : (s.pushOut b).clLen = s.clLen := rfl
@[simp] theorem pushOut_lens (s : State) (b : Byte) : (s.pushOut b).lens = s.lens := rfl
@[simp] theorem pushOut_slen (s : State) (b : Byte) : (s.pushOut b).slen = s.slen := rfl
@[simp] theorem pushOut_snlen (s : State) (b : Byte) : (s.pushOut b).snlen = s.snlen := rfl
@[simp] theorem pushOut_mlen (s : State) (b : Byte) : (s.pushOut b).mlen = s.mlen := rfl
@[simp] theorem pushOut_mdist (s : State) (b : Byte) : (s.pushOut b).mdist = s.mdist := rfl
@[simp] theorem pushOut_distNext (s : State) (b : Byte) : (s.pushOut b).distNext = s.distNext := rfl
@[simp] theorem pushOut_fsm (s : State) (b : Byte) : (s.pushOut b).fsm = s.fsm := rfl
@[simp] theorem pushOut_err (s : State) (b : Byte) : (s.pushOut b).err = s.err := rfl
@[simp] theorem pushOut_s1 (s : State) (b : Byte) : (s.pushOut b).s1 = s.s1 := rfl
@[simp] theorem pushOut_s2 (s : State) (b : Byte) : (s.pushOut b).s2 = s.s2 := rfl
@[simp] theorem pushOut_adlerRead (s : State) (b : Byte) : (s.pushOut b).adlerRead = s.adlerRead := rfl
@[simp] theorem pushOut_inLen (s : State) (b : Byte) : (s.pushOut b).inLen = s.inLen := rfl
@[simp] theorem pushOut_outLimit (s : State) (b : Byte) : (s.pushOut b).outLimit = s.outLimit := rfl
@[simp] theorem pushOut_limitBy (s : State) (b : Byte) : (s.pushOut b).limitBy = s.limitBy := rfl
@[simp] theorem pushOut_freeReads (s : State) (b : Byte) : (s.pushOut b).freeReads = s.freeReads := rfl

@[simp] theorem endOfBlock_inMem (s : State) : (s.endOfBlock).inMem = s.inMem := rfl
@[simp] theorem endOfBlock_outMem (s : State) : (s.endOfBlock).outMem = s.outMem := rfl
@[simp] theorem endOfBlock_pc (s : State) : (s.endOfBlock).pc = s.pc := rfl
@[simp] theorem endOfBlock_endOffset (s : State) : (s.endOfBlock).endOffset = s.endOffset := rfl
@[simp] theorem endOfBlock_outLen (s : State) : (s.endOfBlock).outLen = s.outLen := rfl
@[simp] theorem endOfBlock_litTab (s : State) : (s.endOfBlock).litTab = none := rfl
@[simp] theorem endOfBlock_distTab (s : State) : (s.endOfBlock).distTab = none := rfl
@[simp] theorem endOfBlock_clTab (s : State) : (s.endOfBlock).clTab = s.clTab := rfl
@[simp] theorem endOfBlock_bfinal (s : State) : (s.endOfBlock).bfinal = s.bfinal := rfl
@[simp] theorem endOfBlock_btype (s : State) : (s.endOfBlock).btype = s.btype := rfl
@[simp] theorem endOfBlock_hlit (s : State) : (s.endOfBlock).hlit = s.hlit := rfl
@[simp] theorem endOfBlock_hdist (s : State) : (s.endOfBlock).hdist = s.hdist := rfl
@[simp] theorem endOfBlock_hclen (s : State) : (s.endOfBlock).hclen = s.hclen := rfl
@[simp] theorem endOfBlock_clLen (s : State) : (s.endOfBlock).clLen = s.clLen := rfl
@[simp] theorem endOfBlock_lens (s : State) : (s.endOfBlock).lens = s.lens := rfl
@[simp] theorem endOfBlock_slen (s : State) : (s.endOfBlock).slen = s.slen := rfl
@[simp] theorem endOfBlock_snlen (s : State) : (s.endOfBlock).snlen = s.snlen := rfl
@[simp] theorem endOfBlock_mlen (s : State) : (s.endOfBlock).mlen = s.mlen := rfl
@[simp] theorem endOfBlock_mdist (s : State) : (s.endOfBlock).mdist = s.mdist := rfl
@[simp] theorem endOfBlock_distNext (s : State) : (s.endOfBlock).distNext = s.distNext := rfl
@[simp] theorem endOfBlock_fsm (s : State) : (s.endOfBlock).fsm = if s.bfinal then .trailer else .blkHdr := rfl
@[simp] theorem endOfBlock_err (s : State) : (s.endOfBlock).err = s.err := rfl
@[simp] theorem endOfBlock_s1 (s : State) : (s.endOfBlock).s1 = s.s1 := rfl
@[simp] theorem endOfBlock_s2 (s : State) : (s.endOfBlock).s2 = s.s2 := rfl
@[simp] theorem endOfBlock_adlerRead (s : State) : (s.endOfBlock).adlerRead = s.adlerRead := rfl
@[simp] theorem endOfBlock_inLen (s : State) : (s.endOfBlock).inLen = s.inLen := rfl
@[simp] theorem endOfBlock_outLimit (s : State) : (s.endOfBlock).outLimit = s.outLimit := rfl
@[simp] theorem endOfBlock_limitBy (s : State) : (s.endOfBlock).limitBy = s.limitBy := rfl
@[simp] theorem endOfBlock_freeReads (s : State) : (s.endOfBlock).freeReads = s.freeReads := rfl

@[simp] theorem setDynHdr_inMem (s : State) (x y : BitVec 5) (z : BitVec 4) (l : List (BitVec 3)) : (s.setDynHdr x y z l).inMem = s.inMem := rfl
@[simp] theorem setDynHdr_outMem (s : State) (x y : BitVec 5) (z : BitVec 4) (l : List (BitVec 3)) : (s.setDynHdr x y z l).outMem = s.outMem := rfl
@[simp] theorem setDynHdr_pc (s : State) (x y : BitVec 5) (z : BitVec 4) (l : List (BitVec 3)) : (s.setDynHdr x y z l).pc = s.pc := rfl
@[simp] theorem setDynHdr_endOffset (s : State) (x y : BitVec 5) (z : BitVec 4) (l : List (BitVec 3)) : (s.setDynHdr x y z l).endOffset = s.endOffset := rfl
@[simp] theorem setDynHdr_outLen (s : State) (x y : BitVec 5) (z : BitVec 4) (l : List (BitVec 3)) : (s.setDynHdr x y z l).outLen = s.outLen := rfl
@[simp] theorem setDynHdr_litTab (s : State) (x y : BitVec 5) (z : BitVec 4) (l : List (BitVec 3)) : (s.setDynHdr x y z l).litTab = s.litTab := rfl
@[simp] theorem setDynHdr_distTab (s : State) (x y : BitVec 5) (z : BitVec 4) (l : List (BitVec 3)) : (s.setDynHdr x y z l).distTab = s.distTab := rfl
@[simp] theorem setDynHdr_clTab (s : State) (x y : BitVec 5) (z : BitVec 4) (l : List (BitVec 3)) : (s.setDynHdr x y z l).clTab = s.clTab := rfl
@[simp] theorem setDynHdr_bfinal (s : State) (x y : BitVec 5) (z : BitVec 4) (l : List (BitVec 3)) : (s.setDynHdr x y z l).bfinal = s.bfinal := rfl
@[simp] theorem setDynHdr_btype (s : State) (x y : BitVec 5) (z : BitVec 4) (l : List (BitVec 3)) : (s.setDynHdr x y z l).btype = s.btype := rfl
@[simp] theorem setDynHdr_hlit (s : State) (x y : BitVec 5) (z : BitVec 4) (l : List (BitVec 3)) : (s.setDynHdr x y z l).hlit = hlitOf x := rfl
@[simp] theorem setDynHdr_hdist (s : State) (x y : BitVec 5) (z : BitVec 4) (l : List (BitVec 3)) : (s.setDynHdr x y z l).hdist = hdistOf y := rfl
@[simp] theorem setDynHdr_hclen (s : State) (x y : BitVec 5) (z : BitVec 4) (l : List (BitVec 3)) : (s.setDynHdr x y z l).hclen = hclenOf z := rfl
@[simp] theorem setDynHdr_clLen (s : State) (x y : BitVec 5) (z : BitVec 4) (l : List (BitVec 3)) : (s.setDynHdr x y z l).clLen = clLenOf l := rfl
@[simp] theorem setDynHdr_lens (s : State) (x y : BitVec 5) (z : BitVec 4) (l : List (BitVec 3)) : (s.setDynHdr x y z l).lens = s.lens := rfl
@[simp] theorem setDynHdr_slen (s : State) (x y : BitVec 5) (z : BitVec 4) (l : List (BitVec 3)) : (s.setDynHdr x y z l).slen = s.slen := rfl
@[simp] theorem setDynHdr_snlen (s : State) (x y : BitVec 5) (z : BitVec 4) (l : List (BitVec 3)) : (s.setDynHdr x y z l).snlen = s.snlen := rfl
@[simp] theorem setDynHdr_mlen (s : State) (x y : BitVec 5) (z : BitVec 4) (l : List (BitVec 3)) : (s.setDynHdr x y z l).mlen = s.mlen := rfl
@[simp] theorem setDynHdr_mdist (s : State) (x y : BitVec 5) (z : BitVec 4) (l : List (BitVec 3)) : (s.setDynHdr x y z l).mdist = s.mdist := rfl
@[simp] theorem setDynHdr_distNext (s : State) (x y : BitVec 5) (z : BitVec 4) (l : List (BitVec 3)) : (s.setDynHdr x y z l).distNext = s.distNext := rfl
@[simp] theorem setDynHdr_fsm (s : State) (x y : BitVec 5) (z : BitVec 4) (l : List (BitVec 3)) : (s.setDynHdr x y z l).fsm = s.fsm := rfl
@[simp] theorem setDynHdr_err (s : State) (x y : BitVec 5) (z : BitVec 4) (l : List (BitVec 3)) : (s.setDynHdr x y z l).err = s.err := rfl
@[simp] theorem setDynHdr_s1 (s : State) (x y : BitVec 5) (z : BitVec 4) (l : List (BitVec 3)) : (s.setDynHdr x y z l).s1 = s.s1 := rfl
@[simp] theorem setDynHdr_s2 (s : State) (x y : BitVec 5) (z : BitVec 4) (l : List (BitVec 3)) : (s.setDynHdr x y z l).s2 = s.s2 := rfl
@[simp] theorem setDynHdr_adlerRead (s : State) (x y : BitVec 5) (z : BitVec 4) (l : List (BitVec 3)) : (s.setDynHdr x y z l).adlerRead = s.adlerRead := rfl
@[simp] theorem setDynHdr_inLen (s : State) (x y : BitVec 5) (z : BitVec 4) (l : List (BitVec 3)) : (s.setDynHdr x y z l).inLen = s.inLen := rfl
@[simp] theorem setDynHdr_outLimit (s : State) (x y : BitVec 5) (z : BitVec 4) (l : List (BitVec 3)) : (s.setDynHdr x y z l).outLimit = s.outLimit := rfl
@[simp] theorem setDynHdr_limitBy (s : State) (x y : BitVec 5) (z : BitVec 4) (l : List (BitVec 3)) : (s.setDynHdr x y z l).limitBy = s.limitBy := rfl
@[simp] theorem setDynHdr_freeReads (s : State) (x y : BitVec 5) (z : BitVec 4) (l : List (BitVec 3)) : (s.setDynHdr x y z l).freeReads = s.freeReads := rfl

@[simp] theorem seek_inMem (s : State) (p : Nat) : (s.seek p).inMem = s.inMem := rfl
@[simp] theorem seek_outMem (s : State) (p : Nat) : (s.seek p).outMem = s.outMem := rfl
@[simp] theorem seek_pc (s : State) (p : Nat) : (s.seek p).pc = 8 * s.byteOffset + p := rfl
@[simp] theorem seek_endOffset (s : State) (p : Nat) : (s.seek p).endOffset = s.endOffset := rfl
@[simp] theorem seek_outLen (s : State) (p : Nat) : (s.seek p).outLen = s.outLen := rfl
@[simp] theorem seek_litTab (s : State) (p : Nat) : (s.seek p).litTab = s.litTab := rfl
@[simp] theorem seek_distTab (s : State) (p : Nat) : (s.seek p).distTab = s.distTab := rfl
@[simp] theorem seek_clTab (s : State) (p : Nat) : (s.seek p).clTab = s.clTab := rfl
@[simp] theorem seek_bfinal (s : State) (p : Nat) : (s.seek p).bfinal = s.bfinal := rfl
@[simp] theorem seek_btype (s : State) (p : Nat) : (s.seek p).btype = s.btype := rfl
@[simp] theorem seek_hlit (s : State) (p : Nat) : (s.seek p).hlit = s.hlit := rfl
@[simp] theorem seek_hdist (s : State) (p : Nat) : (s.seek p).hdist = s.hdist := rfl
@[simp] theorem seek_hclen (s : State) (p : Nat) : (s.seek p).hclen = s.hclen := rfl
@[simp] theorem seek_clLen (s : State) (p : Nat) : (s.seek p).clLen = s.clLen := rfl
@[simp] theorem seek_lens (s : State) (p : Nat) : (s.seek p).lens = s.lens := rfl
@[simp] theorem seek_slen (s : State) (p : Nat) : (s.seek p).slen = s.slen := rfl
@[simp] theorem seek_snlen (s : State) (p : Nat) : (s.seek p).snlen = s.snlen := rfl
@[simp] theorem seek_mlen (s : State) (p : Nat) : (s.seek p).mlen = s.mlen := rfl
@[simp] theorem seek_mdist (s : State) (p : Nat) : (s.seek p).mdist = s.mdist := rfl
@[simp] theorem seek_distNext (s : State) (p : Nat) : (s.seek p).distNext = s.distNext := rfl
@[simp] theorem seek_fsm (s : State) (p : Nat) : (s.seek p).fsm = s.fsm := rfl
@[simp] theorem seek_err (s : State) (p : Nat) : (s.seek p).err = s.err := rfl
@[simp] theorem seek_s1 (s : State) (p : Nat) : (s.seek p).s1 = s.s1 := rfl
@[simp] theorem seek_s2 (s : State) (p : Nat) : (s.seek p).s2 = s.s2 := rfl
@[simp] theorem seek_adlerRead (s : State) (p : Nat) : (s.seek p).adlerRead = s.adlerRead := rfl
@[simp] theorem seek_inLen (s : State) (p : Nat) : (s.seek p).inLen = s.inLen := rfl
@[simp] theorem seek_outLimit (s : State) (p : Nat) : (s.seek p).outLimit = s.outLimit := rfl
@[simp] theorem seek_limitBy (s : State) (p : Nat) : (s.seek p).limitBy = s.limitBy := rfl
@[simp] theorem seek_freeReads (s : State) (p : Nat) : (s.seek p).freeReads = s.freeReads := rfl

end Sys2Proof.Machine
end

