-- ==== Sys2Proof/Laws/Ops.lean ====
section
/-! SUPPORT. What each shared operation can do, said once. -/

namespace Sys2Proof.Machine

/-! ### Following a next outcome -/

theorem andThen_eq_next {r : Result} {k : State → Result} {t : State} (h : andThen r k = .next t) :
    ∃ s, r = .next s ∧ k s = .next t := by
  cases r with
  | next s => exact ⟨s, rfl, h⟩
  | fault f => cases h
  | refused f => cases h

/-! ### The output limit -/

/-- An append of `k` bytes fits: what is appended ends at or below a limit that is a number (44_output_buffer.md R324). -/
theorem overLimit_eq_false_iff {s : State} {k : Nat} :
    s.overLimit k = false ↔ ∀ n, s.limit = some n → s.outLen + k ≤ n := by
  unfold State.overLimit
  cases s.limit with
  | none => simp
  | some n => simp

/-- The limit is what its source says (00_scope.md R13, 10_state.md R49). -/
theorem limit_congr {s t : State} (h : (t.outLimit, t.limitBy) = (s.outLimit, s.limitBy)) : t.limit = s.limit := by
  obtain ⟨h1, h2⟩ := Prod.mk.inj h
  rw [State.limit, State.limit, h1, h2]

/-! ### The copy loops -/

/-- The copy loop as a whole: it appends bytes one at a time, each read from the output as it stands by then. -/
theorem copyBytes_spec (k src : Nat) (s : State) (hsrc : src < s.outLen)
    (hw : ∀ a, a < s.outLen → (Memory.read s.outMem a).isSome = true) :
    ∃ m : Memory,
      copyBytes k src s = .next { s with outMem := m, outLen := s.outLen + k } ∧
      (∀ j, j < k → Memory.read m (s.outLen + j) = Memory.read m (src + j)) ∧
      (∀ a, a < s.outLen ∨ s.outLen + k ≤ a → Memory.read m a = Memory.read s.outMem a) ∧
      (∀ a, a < s.outLen + k → (Memory.read m a).isSome = true) ∧
      (Memory.wf s.outMem → Memory.wf m) := by
  induction k generalizing src s with
  | zero => exact ⟨s.outMem, rfl, fun j hj => by omega, fun a _ => rfl, hw, id⟩
  | succ k ih =>
    obtain ⟨b, hb⟩ := Option.isSome_iff_exists.1 (hw src hsrc)
    have hw' : ∀ a, a < (s.pushOut b).outLen → (Memory.read (s.pushOut b).outMem a).isSome = true := by
      intro a ha
      simp only [pushOut_outLen, pushOut_outMem] at ha ⊢
      rw [read_write]
      split
      · rfl
      · exact hw a (by omega)
    obtain ⟨m, he, hj, ha, hs, hwf⟩ := ih (src + 1) (s.pushOut b) (by simp only [pushOut_outLen]; omega) hw'
    simp only [pushOut_outLen, pushOut_outMem] at hj ha hs hwf
    refine ⟨m, ?_, fun j hj' => ?_, fun a ha' => ?_, fun a ha' => hs a (by omega), fun h => hwf (write_wf h _ _)⟩
    · rw [copyBytes, hb]
      simp only
      rw [he, State.pushOut]
      simp only [Nat.add_assoc, Nat.add_comm 1 k]
    · cases j with
      | zero =>
        rw [Nat.add_zero, Nat.add_zero, ha s.outLen (.inl (by omega)), read_write_same,
          ha src (.inl (by omega)), read_write_ne _ _ (by omega), hb]
      | succ j =>
        have := hj j (by omega)
        rwa [show s.outLen + 1 + j = s.outLen + (j + 1) by omega, show src + 1 + j = src + (j + 1) by omega] at this
    · rw [ha a (by omega), read_write_ne _ _ (by omega)]

/-- A copy that repeats with period `dist` (44_output_buffer.md R328). -/
theorem periodic_of_shift {m : Memory} {n dist k : Nat} (hd : 0 < dist) (hn : dist ≤ n)
    (h : ∀ j, j < k → Memory.read m (n + j) = Memory.read m (n - dist + j)) :
    ∀ j, j < k → Memory.read m (n + j) = Memory.read m (n - dist + j % dist) := by
  intro j
  induction j using Nat.strongRecOn with
  | _ j ih =>
    intro hj
    by_cases hlt : j < dist
    · rw [h j hj, Nat.mod_eq_of_lt hlt]
    · rw [h j hj, show n - dist + j = n + (j - dist) by omega, ih (j - dist) (by omega) (by omega),
        Nat.mod_eq_sub_mod (by omega : dist ≤ j)]

/-- The stored copy as a whole. -/
theorem storedBytes_spec (k : Nat) (s : State)
    (hw : ∀ j, j < k → (Memory.read s.inMem (s.byteOffset + j)).isSome = true) :
    ∃ m : Memory,
      storedBytes k s = .next { s with outMem := m, outLen := s.outLen + k, pc := s.pc + 8 * k } ∧
      (∀ j, j < k → Memory.read m (s.outLen + j) = Memory.read s.inMem (s.byteOffset + j)) ∧
      (∀ a, a < s.outLen ∨ s.outLen + k ≤ a → Memory.read m a = Memory.read s.outMem a) ∧
      (Memory.wf s.outMem → Memory.wf m) := by
  induction k generalizing s with
  | zero => exact ⟨s.outMem, rfl, fun j hj => by omega, fun a _ => rfl, id⟩
  | succ k ih =>
    have h0 := hw 0 (by omega)
    rw [Nat.add_zero] at h0
    obtain ⟨b, hb⟩ := Option.isSome_iff_exists.1 h0
    have hoff : State.byteOffset { s.pushOut b with pc := s.pc + 8 } = s.byteOffset + 1 := by
      simp only [State.byteOffset]; omega
    obtain ⟨m, he, hj, ha, hwf⟩ := ih { s.pushOut b with pc := s.pc + 8 } (fun j hj => by
      rw [hoff]
      have := hw (j + 1) (by omega)
      rwa [show s.byteOffset + (j + 1) = s.byteOffset + 1 + j by omega] at this)
    rw [hoff] at hj
    simp only [pushOut_outLen, pushOut_outMem, pushOut_inMem] at hj ha hwf
    refine ⟨m, ?_, fun j hj' => ?_, fun a ha' => ?_, fun h => hwf (write_wf h _ _)⟩
    · rw [storedBytes, hb]
      simp only
      rw [he]
      simp only [State.pushOut]
      congr 2 <;> omega
    · cases j with
      | zero => rw [Nat.add_zero, Nat.add_zero, ha s.outLen (.inl (by omega)), read_write_same, hb]
      | succ j =>
        have := hj j (by omega)
        rwa [show s.outLen + 1 + j = s.outLen + (j + 1) by omega,
          show s.byteOffset + 1 + j = s.byteOffset + (j + 1) by omega] at this
    · rw [ha a (by omega), read_write_ne _ _ (by omega)]

/-- Everything the stored copy can do, whatever is written. -/
theorem storedBytes_cases (k : Nat) (s : State) :
    storedBytes k s = .fault .inputUnwritten ∨
      ∀ j, j < k → (Memory.read s.inMem (s.byteOffset + j)).isSome = true := by
  induction k generalizing s with
  | zero => exact .inr fun j hj => by omega
  | succ k ih =>
    rw [storedBytes]
    cases hb : Memory.read s.inMem s.byteOffset with
    | none => exact .inl rfl
    | some b =>
      simp only
      have hoff : State.byteOffset { s.pushOut b with pc := s.pc + 8 } = s.byteOffset + 1 := by
        simp only [State.byteOffset]; omega
      rcases ih { s.pushOut b with pc := s.pc + 8 } with h | h
      · exact .inl h
      · refine .inr fun j hj => ?_
        rw [hoff] at h
        cases j with
        | zero => simp [hb]
        | succ j =>
          have := h j (by omega)
          simpa [Nat.add_assoc, Nat.add_comm 1 j] using this

/-! ### The parts of a block -/

/-- The registers of a dynamic header. -/
theorem toNat_hlitOf (x : BitVec 5) : (hlitOf x).toNat = x.toNat + 257 := by
  have := x.isLt
  simp only [hlitOf, BitVec.toNat_add, BitVec.truncate_eq_setWidth, BitVec.toNat_setWidth]
  simp; omega

theorem toNat_hdistOf (x : BitVec 5) : (hdistOf x).toNat = x.toNat + 1 := by
  have := x.isLt
  simp only [hdistOf, BitVec.toNat_add, BitVec.truncate_eq_setWidth, BitVec.toNat_setWidth]
  simp; omega

theorem toNat_hclenOf (x : BitVec 4) : (hclenOf x).toNat = x.toNat + 4 := by
  have := x.isLt
  simp only [hclenOf, BitVec.toNat_add, BitVec.truncate_eq_setWidth, BitVec.toNat_setWidth]
  simp; omega

theorem length_clLenOf (l : List (BitVec 3)) : (clLenOf l).length = 19 := by
  unfold clLenOf
  generalize perm.zip l = ps
  suffices h : ∀ (ps : List (Nat × BitVec 3)) (acc : List (BitVec 3)),
      (ps.foldl (fun acc p => acc.set p.1 p.2) acc).length = acc.length by
    rw [h]; simp
  intro ps
  induction ps with
  | nil => intro acc; rfl
  | cons p ps ih => intro acc; simp [ih]

/-- Everything installing the tables can do (42_dynamic_table.md R201). -/
theorem installTables_cases (s : State) :
    s.installTables = s.raise .invalidTable ∨
      ∃ lit dist, Table.build ((s.lens.map BitVec.toNat).take s.hlit.toNat) = some lit ∧
        Table.build ((s.lens.map BitVec.toNat).drop s.hlit.toNat) = some dist ∧
        s.installTables = { s with litTab := some lit, distTab := some dist, clTab := none, fsm := .symbol } := by
  unfold State.installTables
  simp only
  split
  · exact .inl rfl
  · next lit hl =>
    split
    · exact .inl rfl
    · next dist hd => exact .inr ⟨lit, dist, hl, hd, rfl⟩

/-! ### The view of the input -/

theorem windowSize_le (s : State) : s.windowSize ≤ 10 := by simp [State.windowSize, Config.windowBytes]

theorem window_length_le (s : State) : s.window.length ≤ s.windowSize := readRun_length_le _ _ _

/-- The view never reaches past the end of the input. -/
theorem window_in_input (s : State) (h : s.pc ≤ 8 * s.endOffset) :
    s.byteOffset + s.window.length ≤ s.endOffset := by
  have h1 := window_length_le s
  have h2 : s.windowSize ≤ s.remainingBytes := by simp [State.windowSize]
  simp only [State.remainingBytes, State.byteOffset] at *
  omega

/-- Where the host has written the input, the view is not cut. -/
theorem windowCut_false {s : State} (hw : s.InputWritten) : s.windowCut = false := by
  have : s.window.length = s.windowSize := by
    refine readRun_length_eq fun j hj => hw _ ?_
    simp only [State.windowSize, State.remainingBytes] at hj
    omega
  simp [State.windowCut, this]

end Sys2Proof.Machine
end

