-- ==== Sys2Proof/Laws/Exec.lean ====
section
/-! SUPPORT. What the meanings can do: the families of symbols by their encoded fields, and the outcomes of each shared
meaning. -/

namespace Sys2Proof.Machine

/-! ### The symbols by their fields -/

theorem exec_of_length {i : Instr} {v w x : Nat} (h : i.shape = .coded .litLen v w x) (h1 : 257 ≤ v) (h2 : v ≤ 285)
    (s : State) : exec i s = lengthSymbol (v - 257) x s := by
  cases i <;> simp only [Instr.shape, Shape.coded.injEq, reduceCtorEq, false_and] at h <;>
    obtain ⟨-, rfl, rfl, rfl⟩ := h <;> first | rfl | omega

theorem exec_of_distance {i : Instr} {v w y : Nat} (h : i.shape = .coded .dist v w y) (h1 : v < 30) (s : State) :
    exec i s = distanceSymbol v y s := by
  cases i <;> simp only [Instr.shape, Shape.coded.injEq, reduceCtorEq, false_and] at h <;>
    obtain ⟨-, rfl, rfl, rfl⟩ := h <;> first | rfl | omega

theorem exec_of_undefined {i : Instr} {v w x : Nat}
    (h : i.shape = .coded .litLen v w x ∧ 286 ≤ v ∨ i.shape = .coded .dist v w x ∧ 30 ≤ v) (s : State) :
    exec i s = .next (s.raise .logicError) := by
  rcases h with ⟨h, hv⟩ | ⟨h, hv⟩ <;>
    (cases i <;> simp only [Instr.shape, Shape.coded.injEq, reduceCtorEq, false_and] at h <;>
      obtain ⟨-, rfl, rfl, rfl⟩ := h <;> first | rfl | omega)

/-- A literal/length symbol is a literal, the end of block, a length, or undefined. -/
theorem litLen_cases {i : Instr} {v w x : Nat} (h : i.shape = .coded .litLen v w x) :
    (∃ b, i = .lit b) ∨ i = .eob ∨ (257 ≤ v ∧ v ≤ 285) ∨ 286 ≤ v := by
  cases i <;> simp only [Instr.shape, Shape.coded.injEq, reduceCtorEq, false_and] at h <;>
    obtain ⟨-, rfl, rfl, rfl⟩ := h <;> first | exact .inl ⟨_, rfl⟩ | exact .inr (.inl rfl) | exact .inr (.inr (by omega))

theorem cl_cases {i : Instr} {v w x : Nat} (h : i.shape = .coded .cl v w x) :
    (∃ l, i = .clLen l) ∨ (∃ y, i = .clRep y) ∨ (∃ y, i = .clZero3 y) ∨ ∃ y, i = .clZero11 y := by
  cases i <;> simp only [Instr.shape, Shape.coded.injEq, reduceCtorEq, false_and] at h <;> simp

/-- Lengths are 3..258 (43_block_decoder.md R303). -/
theorem length_range {i : Instr} {v w x : Nat} (h : i.shape = .coded .litLen v w x) (h1 : 257 ≤ v) (h2 : v ≤ 285) :
    3 ≤ rowBase lenTab (v - 257) + x ∧ rowBase lenTab (v - 257) + x ≤ 258 := by
  cases i <;> simp only [Instr.shape, Shape.coded.injEq, reduceCtorEq, false_and] at h <;>
    obtain ⟨-, rfl, rfl, rfl⟩ := h <;>
    first
    | omega
    | (rename_i x; have := x.isLt; simp [rowBase, lenTab]; omega)
    | simp [rowBase, lenTab]

/-- Distances are 1..32768 (43_block_decoder.md R303). -/
theorem distance_range {i : Instr} {v w y : Nat} (h : i.shape = .coded .dist v w y) (h1 : v < 30) :
    1 ≤ rowBase distTab v + y ∧ rowBase distTab v + y ≤ 32768 := by
  cases i <;> simp only [Instr.shape, Shape.coded.injEq, reduceCtorEq, false_and] at h <;>
    obtain ⟨-, rfl, rfl, rfl⟩ := h <;>
    first
    | omega
    | (rename_i y; have := y.isLt; simp [rowBase, distTab]; omega)
    | simp [rowBase, distTab]

/-! ### Outcomes of the shared meanings -/

/-- Everything a copy that goes on can do. -/
theorem copyBytes_eq_next {k src : Nat} {s t : State} (h : copyBytes k src s = .next t) :
    ∃ m, t = { s with outMem := m, outLen := s.outLen + k } ∧
      (∀ a, a < s.outLen ∨ s.outLen + k ≤ a → Memory.read m a = Memory.read s.outMem a) ∧
      ((∀ a, a < s.outLen → (Memory.read s.outMem a).isSome = true) →
        ∀ a, a < s.outLen + k → (Memory.read m a).isSome = true) ∧
      (Memory.wf s.outMem → Memory.wf m) := by
  induction k generalizing src s with
  | zero => cases h; exact ⟨_, rfl, fun _ _ => rfl, id, id⟩
  | succ k ih =>
    rw [copyBytes] at h
    split at h
    · cases h
    · next b hb =>
      obtain ⟨m, rfl, ha, hw, hwf⟩ := ih h
      refine ⟨m, by simp [State.pushOut, Nat.add_assoc, Nat.add_comm 1 k], fun a h' => ?_, fun hs a h' => ?_,
        fun hs => hwf (write_wf hs _ _)⟩
      · rw [ha a (by simp only [pushOut_outLen]; omega), pushOut_outMem, read_write_ne _ _ (by omega)]
      · refine hw (fun a ha' => ?_) a (by simp only [pushOut_outLen]; omega)
        rw [pushOut_outMem, read_write]
        split
        · rfl
        · exact hs a (by simp only [pushOut_outLen] at ha'; omega)

/-- Everything a stored copy that goes on can do. -/
theorem storedBytes_eq_next {k : Nat} {s t : State} (h : storedBytes k s = .next t) :
    ∃ m, t = { s with outMem := m, outLen := s.outLen + k, pc := s.pc + 8 * k } ∧
      (∀ a, a < s.outLen ∨ s.outLen + k ≤ a → Memory.read m a = Memory.read s.outMem a) ∧
      ((∀ a, a < s.outLen → (Memory.read s.outMem a).isSome = true) →
        ∀ a, a < s.outLen + k → (Memory.read m a).isSome = true) ∧
      (Memory.wf s.outMem → Memory.wf m) := by
  rcases storedBytes_cases k s with h' | hi
  · rw [h'] at h; cases h
  · obtain ⟨m, he, hj, ha, hwf⟩ := storedBytes_spec k s hi
    rw [he] at h
    cases h
    refine ⟨m, rfl, ha, fun hs a h' => ?_, hwf⟩
    by_cases hlt : a < s.outLen
    · rw [ha a (.inl hlt)]; exact hs a hlt
    · rw [show a = s.outLen + (a - s.outLen) by omega, hj _ (by omega)]
      exact hi _ (by omega)

/-- Everything a distance symbol that goes on can do: it raises an error with nothing appended, or it appends `mlen`
bytes. -/
theorem distanceSymbol_eq_next {row y : Nat} {s t : State} (h : distanceSymbol row y s = .next t) :
    (∃ e, (e = .invalidBlock ∨ e = .outOfMemory) ∧
      t = State.raise { s with mdist := BitVec.ofNat 16 (rowBase distTab row + y), distNext := false } e) ∨
    ∃ m, t = { s with
        mdist := BitVec.ofNat 16 (rowBase distTab row + y), distNext := false, fsm := .symbol, outMem := m,
        outLen := s.outLen + s.mlen.toNat } ∧
      s.overLimit s.mlen.toNat = false ∧
      (∀ a, a < s.outLen ∨ s.outLen + s.mlen.toNat ≤ a → Memory.read m a = Memory.read s.outMem a) ∧
      ((∀ a, a < s.outLen → (Memory.read s.outMem a).isSome = true) →
        ∀ a, a < s.outLen + s.mlen.toNat → (Memory.read m a).isSome = true) ∧
      (Memory.wf s.outMem → Memory.wf m) := by
  unfold distanceSymbol at h
  simp only at h
  split at h
  · cases h; exact .inl ⟨.invalidBlock, .inl rfl, rfl⟩
  · unfold appendCopy at h
    split at h
    · cases h; exact .inl ⟨.outOfMemory, .inr rfl, rfl⟩
    · next hl =>
      obtain ⟨m, rfl, ha, hw, hwf⟩ := copyBytes_eq_next h
      exact .inr ⟨m, rfl, (Bool.not_eq_true _).mp hl, ha, hw, hwf⟩

/-- Everything a literal that goes on can do. -/
theorem execLit_eq_next {v : Byte} {s t : State} (h : execLit v s = .next t) :
    t = s.raise .outOfMemory ∨
      t = { s with outMem := Memory.write s.outMem s.outLen v, outLen := s.outLen + 1, fsm := .symbol } ∧
        s.overLimit 1 = false := by
  unfold execLit appendByte at h
  split at h
  · cases h; exact .inl rfl
  · next hl => cases h; exact .inr ⟨rfl, (Bool.not_eq_true _).mp hl⟩

/-- Everything a stored block that goes on can do. -/
theorem execStored_eq_next {len nlen : BitVec 16} {s t : State} (h : execStored len nlen s = .next t) :
    (∃ e, (e = .invalidBlock ∨ e = .truncatedInput ∨ e = .outOfMemory) ∧
      t = State.raise { s with slen := len, snlen := nlen } e) ∨
    ∃ m, t = State.endOfBlock { s with
        slen := len, snlen := nlen, outMem := m, outLen := s.outLen + len.toNat, pc := s.pc + 8 * len.toNat } ∧
      len.toNat ≤ s.remainingBytes ∧ s.overLimit len.toNat = false ∧
      (∀ a, a < s.outLen ∨ s.outLen + len.toNat ≤ a → Memory.read m a = Memory.read s.outMem a) ∧
      ((∀ a, a < s.outLen → (Memory.read s.outMem a).isSome = true) →
        ∀ a, a < s.outLen + len.toNat → (Memory.read m a).isSome = true) ∧
      (Memory.wf s.outMem → Memory.wf m) := by
  unfold execStored at h
  simp only at h
  split at h
  · cases h; exact .inl ⟨_, .inl rfl, rfl⟩
  · split at h
    · cases h; exact .inl ⟨_, .inr (.inl rfl), rfl⟩
    · next hr =>
      split at h
      · cases h; exact .inl ⟨_, .inr (.inr rfl), rfl⟩
      · next hl =>
        obtain ⟨u, hu, he⟩ := andThen_eq_next h
        obtain ⟨m, rfl, ha, hw, hwf⟩ := storedBytes_eq_next hu
        cases he
        refine .inr ⟨m, rfl, ?_, (Bool.not_eq_true _).mp hl, ha, hw, hwf⟩
        have : ¬ s.remainingBytes < len.toNat := hr
        omega

/-- Everything a code-length symbol can do (42_dynamic_table.md R194 to R200). -/
theorem cl_cases_exec {i : Instr} {v w x : Nat} (h : i.shape = .coded .cl v w x) (s : State) :
    exec i s = .next (s.raise .invalidTable) ∨
      ∃ r l, 1 ≤ r ∧ exec i s = .next (State.lensFilled { s with lens := s.lens ++ List.replicate r l }) ∧
        (s.n < s.lensTotal → s.n + r ≤ s.lensTotal) := by
  have run : ∀ r l, 1 ≤ r → s.fillRun r l = s.raise .invalidTable ∨
      s.fillRun r l = State.lensFilled { s with lens := s.lens ++ List.replicate r l } ∧ s.n + r ≤ s.lensTotal := by
    intro r l _
    unfold State.fillRun
    split
    · exact .inl rfl
    · exact .inr ⟨rfl, by omega⟩
  rcases cl_cases h with ⟨l, rfl⟩ | ⟨y, rfl⟩ | ⟨y, rfl⟩ | ⟨y, rfl⟩
  · exact .inr ⟨1, l, le_rfl, rfl, fun h => h⟩
  · cases hl : s.lens.getLast? with
    | none => exact .inl (by simp only [exec, execClRep, hl])
    | some l =>
      rcases run (repCount y) l (by simp [repCount]; omega) with h | ⟨h, hr⟩
      · exact .inl (by simp only [exec, execClRep, hl, h])
      · exact .inr ⟨_, l, by simp [repCount]; omega, by simp only [exec, execClRep, hl, h], fun _ => hr⟩
  · rcases run (zero3Count y) 0 (by simp [zero3Count]; omega) with h | ⟨h, hr⟩
    · exact .inl (by show Host.Outcome.next _ = _; rw [h])
    · exact .inr ⟨_, 0, by simp [zero3Count]; omega, by show Host.Outcome.next _ = _; rw [h], fun _ => hr⟩
  · rcases run (zero11Count y) 0 (by simp [zero11Count]; omega) with h | ⟨h, hr⟩
    · exact .inl (by show Host.Outcome.next _ = _; rw [h])
    · exact .inr ⟨_, 0, by simp [zero11Count]; omega, by show Host.Outcome.next _ = _; rw [h], fun _ => hr⟩

/-- Everything a filled sequence can lead to: more symbols, the tables, or an error. -/
theorem lensFilled_cases (s : State) :
    (s.n ≠ s.lensTotal ∧ s.lensFilled = s.goto .dynLens) ∨
      s.lensFilled = s.raise .invalidTable ∨
      ∃ lit dist, s.n = s.lensTotal ∧ Table.build ((s.lens.map BitVec.toNat).take s.hlit.toNat) = some lit ∧
        Table.build ((s.lens.map BitVec.toNat).drop s.hlit.toNat) = some dist ∧
        s.lensFilled = { s with litTab := some lit, distTab := some dist, clTab := none, fsm := .symbol } := by
  unfold State.lensFilled
  split
  · next hn =>
    rcases installTables_cases s with h | ⟨lit, dist, h1, h2, h3⟩
    · exact .inr (.inl h)
    · exact .inr (.inr ⟨lit, dist, hn, h1, h2, h3⟩)
  · next hn => exact .inl ⟨hn, rfl⟩

/-- Everything a dynamic header can do. -/
theorem execDynHdr_cases (x y : BitVec 5) (z : BitVec 4) (ls : List (BitVec 3)) (s : State) :
    execDynHdr x y z ls s = .next ((s.setDynHdr x y z ls).raise .invalidTable) ∨
      ∃ t, Table.build ((clLenOf ls).map BitVec.toNat) = some t ∧
        execDynHdr x y z ls s = .next { s.setDynHdr x y z ls with clTab := some t, lens := [], fsm := .dynLens } := by
  unfold execDynHdr
  simp only [setDynHdr_clLen]
  split
  · exact .inl rfl
  · next t ht => exact .inr ⟨t, ht, rfl⟩

/-- Everything a trailer that goes on can do. -/
theorem execTrailer_eq_next {v : Word} {s t : State} (h : execTrailer v s = .next t) :
    ∃ bs, Memory.readRange s.outMem 0 s.outLen = some bs ∧
      (t = State.goto { s with
          adlerRead := v, s1 := BitVec.ofNat 16 (adlerSums bs).1, s2 := BitVec.ofNat 16 (adlerSums bs).2 } .done ∨
        t = State.raise { s with
          adlerRead := v, s1 := BitVec.ofNat 16 (adlerSums bs).1, s2 := BitVec.ofNat 16 (adlerSums bs).2 }
          .checksumMismatch) := by
  unfold execTrailer at h
  split at h
  · cases h
  · next bs hb =>
    simp only at h
    split at h <;> cases h
    · exact ⟨bs, hb, .inl rfl⟩
    · exact ⟨bs, hb, .inr rfl⟩

/-- Everything an envelope header can do. -/
theorem execEnv_cases (cmf flg : Byte) (s : State) :
    execEnv cmf flg s = .next (s.goto .blkHdr) ∨
      ∃ e, (e = .badEnvelope ∨ e = .unsupportedMethod ∨ e = .unsupportedFeature) ∧
        execEnv cmf flg s = .next (s.raise e) := by
  unfold execEnv
  split
  · exact .inr ⟨_, .inl rfl, rfl⟩
  · split
    · exact .inr ⟨_, .inr (.inl rfl), rfl⟩
    · split
      · exact .inr ⟨_, .inl rfl, rfl⟩
      · split
        · exact .inr ⟨_, .inr (.inr rfl), rfl⟩
        · exact .inl rfl

/-- The accumulators stay reduced (45_envelope_checksum.md R350). -/
theorem adlerSums_lt (bs : List Byte) : (adlerSums bs).1 < 65521 ∧ (adlerSums bs).2 < 65521 := by
  unfold adlerSums
  suffices h : ∀ (bs : List Byte) (acc : Nat × Nat), acc.1 < 65521 ∧ acc.2 < 65521 →
      (bs.foldl adlerStep acc).1 < 65521 ∧ (bs.foldl adlerStep acc).2 < 65521 from h bs (1, 0) (by omega)
  intro bs
  induction bs with
  | nil => intro acc h; exact h
  | cons b bs ih =>
    intro acc _
    refine ih _ ?_
    simp only [adlerStep, Config.adlerMod]
    omega

/-! ### A copy that runs -/

/-- The copy of a distance symbol, where the output is written, reaches back that far and has room
(43_block_decoder.md R234 to R236, 44_output_buffer.md R328). -/
theorem distanceSymbol_copies {row y : Nat} {s : State} (h1 : 1 ≤ rowBase distTab row + y)
    (h16 : rowBase distTab row + y < 2 ^ 16) (hd : rowBase distTab row + y ≤ s.outLen)
    (hl : s.overLimit s.mlen.toNat = false)
    (hw : ∀ a, a < s.outLen → (Memory.read s.outMem a).isSome = true) :
    ∃ m : Memory,
      distanceSymbol row y s = .next { s with
        outMem := m, outLen := s.outLen + s.mlen.toNat, mdist := BitVec.ofNat 16 (rowBase distTab row + y),
        distNext := false, fsm := .symbol } ∧
      (∀ j, j < s.mlen.toNat → Memory.read m (s.outLen + j) =
        Memory.read s.outMem (s.outLen - (rowBase distTab row + y) + j % (rowBase distTab row + y))) ∧
      ∀ a, a < s.outLen ∨ s.outLen + s.mlen.toNat ≤ a → Memory.read m a = Memory.read s.outMem a := by
  generalize hdist : rowBase distTab row + y = dist at *
  have htn : (BitVec.ofNat 16 dist).toNat = dist := by rw [BitVec.toNat_ofNat, Nat.mod_eq_of_lt h16]
  obtain ⟨m, he, hj, ha, _, _⟩ := copyBytes_spec s.mlen.toNat (s.outLen - dist)
    { s with mdist := BitVec.ofNat 16 dist, distNext := false, fsm := .symbol } (by simp only; omega) hw
  have hp := periodic_of_shift (m := m) (n := s.outLen) (dist := dist) h1 hd hj
  refine ⟨m, ?_, fun j hj' => ?_, ha⟩
  · have hno : State.overLimit { s with mdist := BitVec.ofNat 16 dist, distNext := false, fsm := .symbol }
        s.mlen.toNat = false := hl
    simp only [distanceSymbol, appendCopy, hdist, htn, if_neg (Nat.not_lt.2 hd), hno, Bool.false_eq_true, if_false, he]
  · have := Nat.mod_lt j (by omega : dist > 0)
    rw [hp j hj', ha _ (.inl (by simp only; omega))]

/-- A distance symbol copies back from its distance. -/
theorem copiesBack_of_distance {i : Instr} {v w y : Nat} (h : i.shape = .coded .dist v w y) (hv : v < 30) :
    CopiesBack i (rowBase distTab v + y) := by
  have hr := distance_range h hv
  intro s hd hl hw
  rw [exec_of_distance h hv]
  exact distanceSymbol_copies hr.1 (by omega) hd hl hw

end Sys2Proof.Machine
end

