-- ==== Sys2Proof/Laws/Step.lean ====
section
/-! SUPPORT. What a fetch and a step can do. -/

namespace Sys2Proof.Machine

/-- The state before an instruction runs is in no control state, or in one of these: what the fetch selects. -/
theorem select_cases (s : State) :
    (s.select = .quiet ∧ s.busy = false) ∨ (s.select = .noTable ∧ s.busy = true) ∨
      ∃ c, s.select = .ctx c ∧ s.busy = true := by
  have slot : ∀ (o : Option Table) (mk : Table → Ctx),
      Select.fromSlot o mk = .noTable ∨ ∃ c, Select.fromSlot o mk = .ctx c := by
    intro o mk
    cases o with
    | none => exact .inl rfl
    | some t => exact .inr ⟨_, rfl⟩
  unfold State.select State.busy
  cases s.fsm <;> simp [Fsm.busy]
  · exact slot _ _
  · split <;> exact slot _ _

/-- The slot a context's table comes from, and the control state it is selected in. -/
theorem select_eq_ctx {s : State} {c : Ctx} (h : s.select = .ctx c) :
    match c with
    | .env => s.fsm = .env
    | .blkHdr => s.fsm = .blkHdr
    | .stored => s.fsm = .stored
    | .dynHdr => s.fsm = .dynHdr
    | .clSym t first => s.fsm = .dynLens ∧ s.clTab = some t ∧ first = (s.n == 0)
    | .litLen t => s.fsm = .symbol ∧ s.distNext = false ∧ s.litTab = some t
    | .dist t => s.fsm = .symbol ∧ s.distNext = true ∧ s.distTab = some t
    | .trailer => s.fsm = .trailer := by
  unfold State.select at h
  split at h <;> first | (cases h; done) | (cases h; assumption) | skip
  · unfold Select.fromSlot at h
    split at h
    · next t ht => cases h; exact ⟨by assumption, ht, rfl⟩
    · cases h
  · split at h <;> unfold Select.fromSlot at h <;> split at h <;> cases h
    · exact ⟨by assumption, by assumption, by assumption⟩
    · next hd _ _ _ => exact ⟨by assumption, by simpa using hd, by assumption⟩

/-- Everything a stopped fetch that goes on can do: an error with the registers of the completed reads, at the cursor
they reached. -/
theorem stopFetch_eq_next {w : Stop} {p : Part} {pos : Nat} {s t : State} (h : stopFetch w p pos s = .next t) :
    (w = .truncated ∧ s.windowCut = false ∧ t = State.raise ((s.seek pos).applyPart p) .truncatedInput) ∨
      (w = .noMatchingCode ∧ t = State.raise ((s.seek pos).applyPart p) .noMatchingCode) ∨
      (w = .undefinedSymbol ∧ t = State.raise ((s.seek pos).applyPart p) .logicError) := by
  unfold stopFetch at h
  split at h
  · split at h
    · cases h
    · next hc => cases h; exact .inl ⟨rfl, by simpa using hc, rfl⟩
  · cases h; exact .inr (.inl ⟨rfl, rfl⟩)
  · cases h; exact .inr (.inr ⟨rfl, rfl⟩)
  · cases h

/-- The cursor after a fetch is where the decoder stands. -/
theorem seek_pc_bounds (s : State) {pos : Nat} (h : s.bitOffset ≤ pos) : s.pc ≤ (s.seek pos).pc := by
  simp only [seek_pc, State.byteOffset, State.bitOffset] at *
  omega

/-- Inside the view is inside the input. -/
theorem seek_pc_le (s : State) {pos : Nat} (hc : s.pc ≤ 8 * s.endOffset) (h : pos ≤ 8 * s.window.length) :
    (s.seek pos).pc ≤ 8 * s.endOffset := by
  have := window_in_input s hc
  simp only [seek_pc]
  omega

/-- The bit offset is inside the view, unless the input was never written where the cursor stands. -/
theorem bitOffset_le (s : State) (hc : s.pc ≤ 8 * s.endOffset) (hw : s.windowCut = false) :
    s.bitOffset ≤ 8 * s.window.length := by
  have h1 : ¬ s.window.length < s.windowSize := by simpa [State.windowCut] using hw
  simp only [State.windowSize, State.remainingBytes, Config.windowBytes, State.byteOffset, State.bitOffset] at *
  omega

/-- Everything a fetch that goes on can do. -/
theorem fetchExec_eq_next {s t : State} (h : fetchExec s = .next t) :
    (s.select = .quiet ∧ t = s) ∨
    (∃ c i pos, s.select = .ctx c ∧ decode c s.bitOffset s.window = .instr i pos ∧ exec i (s.seek pos) = .next t) ∨
    ∃ c w p pos, s.select = .ctx c ∧ decode c s.bitOffset s.window = .stop w p pos ∧ stopFetch w p pos s = .next t := by
  unfold fetchExec at h
  split at h
  · next hs => cases h; exact .inl ⟨hs, rfl⟩
  · cases h
  · next c hs =>
    split at h
    · next i pos hd => exact .inr (.inl ⟨c, i, pos, hs, hd, h⟩)
    · next w p pos hd => exact .inr (.inr ⟨c, w, p, pos, hs, hd, h⟩)

/-- Everything a step that goes on can do: one fetch, and a second one if a distance symbol is next. -/
theorem step_eq_next {s t : State} (h : step s = .next t) :
    ∃ u, fetchExec s = .next u ∧ (u.distNext = false ∧ t = u ∨ u.distNext = true ∧ fetchExec u = .next t) := by
  unfold step at h
  cases hu : fetchExec s with
  | next u =>
    rw [hu, finishElement] at h
    split at h
    · next hd => exact ⟨u, rfl, .inr ⟨hd, h⟩⟩
    · next hd => cases h; exact ⟨_, rfl, .inl ⟨by simpa using hd, rfl⟩⟩
  | fault f => rw [hu] at h; cases h
  | refused r => rw [hu] at h; cases h

/-- The registers of completed reads, and no other field. -/
theorem applyPart_fields (s : State) (p : Part) :
    ∃ f x y z l len v, s.applyPart p =
      { s with bfinal := f, hlit := x, hdist := y, hclen := z, clLen := l, slen := len, adlerRead := v } ∧
      (s.clLen.length = 19 → l.length = 19) := by
  cases p with
  | nothing => exact ⟨_, _, _, _, _, _, _, rfl, id⟩
  | blk f => exact ⟨_, _, _, _, _, _, _, rfl, id⟩
  | slen len => exact ⟨_, _, _, _, _, _, _, rfl, id⟩
  | hlit x => exact ⟨_, _, _, _, _, _, _, rfl, id⟩
  | hdist x y => exact ⟨_, _, _, _, _, _, _, rfl, id⟩
  | cllens x y z l => exact ⟨_, _, _, _, _, _, _, rfl, fun _ => length_clLenOf l⟩
  | adler v => exact ⟨_, _, _, _, _, _, _, rfl, id⟩

/-! ### What any instruction leaves alone -/

/-- From `s` to `t` the input and the host's parameters are the same, the cursor has not gone back, and the output has
only grown at its end. -/
structure Steady (s t : State) : Prop where
  inMem : t.inMem = s.inMem
  endOffset : t.endOffset = s.endOffset
  inLen : t.inLen = s.inLen
  limit : (t.outLimit, t.limitBy) = (s.outLimit, s.limitBy)
  freeReads : t.freeReads = s.freeReads
  pc : s.pc ≤ t.pc
  outLen : s.outLen ≤ t.outLen
  out : ∀ a, a < s.outLen ∨ t.outLen ≤ a → Memory.read t.outMem a = Memory.read s.outMem a
  outWf : Memory.wf s.outMem → Memory.wf t.outMem
  outWritten : (∀ a, a < s.outLen → (Memory.read s.outMem a).isSome = true) →
    ∀ a, a < t.outLen → (Memory.read t.outMem a).isSome = true

theorem Steady.refl (s : State) : Steady s s :=
  ⟨rfl, rfl, rfl, rfl, rfl, le_rfl, le_rfl, fun _ _ => rfl, id, id⟩

theorem Steady.trans {s t u : State} (h : Steady s t) (h' : Steady t u) : Steady s u where
  inMem := h'.inMem.trans h.inMem
  endOffset := h'.endOffset.trans h.endOffset
  inLen := h'.inLen.trans h.inLen
  limit := h'.limit.trans h.limit
  freeReads := h'.freeReads.trans h.freeReads
  pc := h.pc.trans h'.pc
  outLen := h.outLen.trans h'.outLen
  out a ha := by
    have h1 := h.outLen
    have h2 := h'.outLen
    rw [h'.out a (by omega), h.out a (by omega)]
  outWf hw := h'.outWf (h.outWf hw)
  outWritten hw := h'.outWritten (h.outWritten hw)

/-- A change of registers only. -/
theorem Steady.of_eq {s t : State} (h1 : t.inMem = s.inMem) (h2 : t.endOffset = s.endOffset) (h3 : t.inLen = s.inLen)
    (h4 : (t.outLimit, t.limitBy) = (s.outLimit, s.limitBy)) (h5 : t.freeReads = s.freeReads) (h6 : t.pc = s.pc) (h7 : t.outLen = s.outLen)
    (h8 : t.outMem = s.outMem) : Steady s t :=
  ⟨h1, h2, h3, h4, h5, h6 ▸ le_rfl, h7 ▸ le_rfl, fun a _ => by rw [h8], by rw [h8]; exact id, by rw [h7, h8]; exact id⟩

theorem lensFilled_steady (s : State) : Steady s s.lensFilled := by
  rcases lensFilled_cases s with ⟨_, h⟩ | h | ⟨_, _, _, _, _, h⟩ <;> rw [h] <;>
    exact .of_eq rfl rfl rfl rfl rfl rfl rfl rfl

/-- Every instruction that goes on is steady. -/
theorem exec_steady {i : Instr} {s t : State} (h : exec i s = .next t) : Steady s t := by
  have plain : ∀ u : State, Host.Outcome.next u = (.next t : Result) → u.inMem = s.inMem → u.endOffset = s.endOffset →
      u.inLen = s.inLen → (u.outLimit, u.limitBy) = (s.outLimit, s.limitBy) →
      u.freeReads = s.freeReads → u.pc = s.pc → u.outLen = s.outLen → u.outMem = s.outMem →
      Steady s t := by
    intro u he h1 h2 h3 h4 h5 h6 h7 h8
    cases he
    exact .of_eq h1 h2 h3 h4 h5 h6 h7 h8
  cases hs : i.shape with
  | env a b =>
    cases i <;> simp only [Instr.shape, reduceCtorEq] at hs
    rcases execEnv_cases _ _ s with he | ⟨_, _, he⟩ <;> exact plain _ (he.symm.trans h) rfl rfl rfl rfl rfl rfl rfl rfl
  | blk a b =>
    cases i <;> simp only [Instr.shape, reduceCtorEq] at hs <;> exact plain _ h rfl rfl rfl rfl rfl rfl rfl rfl
  | stored a b =>
    cases i <;> simp only [Instr.shape, reduceCtorEq] at hs
    rcases execStored_eq_next h with ⟨e, _, rfl⟩ | ⟨m, rfl, _, _, ho, hw, hwf⟩
    · exact .of_eq rfl rfl rfl rfl rfl rfl rfl rfl
    · exact ⟨rfl, rfl, rfl, rfl, rfl, Nat.le_add_right _ _, Nat.le_add_right _ _, ho, hwf, hw⟩
  | dynHdr a b c d =>
    cases i <;> simp only [Instr.shape, reduceCtorEq] at hs
    rcases execDynHdr_cases _ _ _ _ s with he | ⟨_, _, he⟩ <;>
      exact plain _ (he.symm.trans h) rfl rfl rfl rfl rfl rfl rfl rfl
  | trailer v =>
    cases i <;> simp only [Instr.shape, reduceCtorEq] at hs
    obtain ⟨bs, _, rfl | rfl⟩ := execTrailer_eq_next h <;> exact .of_eq rfl rfl rfl rfl rfl rfl rfl rfl
  | coded cls v w x =>
    cases cls with
    | cl =>
      rcases cl_cases_exec hs s with he | ⟨r, l, _, he, _⟩
      · exact plain _ (he.symm.trans h) rfl rfl rfl rfl rfl rfl rfl rfl
      · rw [he] at h
        cases h
        exact Steady.trans (t := { s with lens := s.lens ++ List.replicate r l })
          (.of_eq rfl rfl rfl rfl rfl rfl rfl rfl) (lensFilled_steady _)
    | litLen =>
      rcases litLen_cases hs with ⟨b, rfl⟩ | rfl | ⟨h1, h2⟩ | hu
      · rcases execLit_eq_next h with rfl | ⟨rfl, _⟩
        · exact .of_eq rfl rfl rfl rfl rfl rfl rfl rfl
        · refine ⟨rfl, rfl, rfl, rfl, rfl, le_rfl, Nat.le_succ _, fun a ha => read_write_ne _ _ ?_,
            fun hw => write_wf hw _ _, fun hw a ha => ?_⟩
          · simp only at ha; omega
          · simp only at ha ⊢
            rw [read_write]
            split
            · rfl
            · exact hw a (by omega)
      · exact plain _ h rfl rfl rfl rfl rfl rfl rfl rfl
      · rw [exec_of_length hs h1 h2] at h
        exact plain _ h rfl rfl rfl rfl rfl rfl rfl rfl
      · rw [exec_of_undefined (.inl ⟨hs, hu⟩)] at h
        exact plain _ h rfl rfl rfl rfl rfl rfl rfl rfl
    | dist =>
      by_cases hv : v < 30
      · rw [exec_of_distance hs hv] at h
        rcases distanceSymbol_eq_next h with ⟨e, _, rfl⟩ | ⟨m, rfl, _, ho, hw, hwf⟩
        · exact .of_eq rfl rfl rfl rfl rfl rfl rfl rfl
        · exact ⟨rfl, rfl, rfl, rfl, rfl, le_rfl, Nat.le_add_right _ _, ho, hwf, hw⟩
      · rw [exec_of_undefined (.inr ⟨hs, by omega⟩)] at h
        exact plain _ h rfl rfl rfl rfl rfl rfl rfl rfl

end Sys2Proof.Machine
end

