-- ==== Sys2Proof/Laws/Inv.lean ====
section
/-! SUPPORT. The parts of the invariant that do not depend on the control state, and what an error keeps of it. -/

namespace Sys2Proof.Machine

/-- The invariant's clauses that no control state, table slot or error register enters. -/
structure Base (s : State) : Prop where
  inWf : Memory.wf s.inMem
  outWf : Memory.wf s.outMem
  cursor : s.pc ≤ 8 * s.endOffset
  outWritten : ∀ a, a < s.outLen → (Memory.read s.outMem a).isSome = true
  clLenSize : s.clLen.length = 19
  sums : s.s1.toNat < 65521 ∧ s.s2.toNat < 65521

theorem State.Inv.base {s : State} (h : s.Inv) : Base s :=
  ⟨h.inWf, h.outWf, h.cursor, h.outWritten, h.clLenSize, h.sums⟩

/-- Raising an error in any state whose spaces and cursor are sound meets the invariant. -/
theorem raise_inv {s : State} {e : ErrKind} (he : e ≠ .none) (h : Base s) : (s.raise e).Inv where
  inWf := h.inWf
  outWf := h.outWf
  cursor := h.cursor
  endIsLen := by simp [State.busy, State.raise, Fsm.busy]
  outWritten := h.outWritten
  outBounded := by simp [State.busy, State.raise, Fsm.busy]
  slots := rfl
  litBuilt := by simp [State.raise]
  distBuilt := by simp [State.raise]
  clBuilt := by simp [State.raise]
  lensOpen := by simp [State.raise]
  clLenSize := h.clLenSize
  errIff := by simp [State.raise, he]
  sums := h.sums
  midElement := by simp [State.raise]

/-- The slots, read off the invariant. -/
theorem State.Inv.slots_iff {s : State} (h : s.Inv) :
    s.litTab.isSome = (s.fsm == .symbol) ∧ s.distTab.isSome = (s.fsm == .symbol) ∧
      s.clTab.isSome = (s.fsm == .dynLens) := by
  have := h.slots
  simp only [State.slotsOk, Bool.and_eq_true, beq_iff_eq] at this
  exact ⟨this.1.1, this.1.2, this.2⟩

/-- After an instruction is fetched, the cursor is still inside the input. -/
theorem seek_base {s : State} (h : s.Inv) {c : Ctx} {i : Instr} {pos : Nat}
    (hd : decode c s.bitOffset s.window = .instr i pos) : Base (s.seek pos) := by
  have hb := decode_inside c s.bitOffset s.window
  rw [hd] at hb
  exact { h.base with cursor := seek_pc_le s h.cursor hb.2 }

/-- A bound on the number of lengths may be widened. -/
theorem builtFrom_mono {t : Table} {k k' : Nat} (h : t.BuiltFrom k) (hk : k ≤ k') : t.BuiltFrom k' :=
  let ⟨lens, hl, hb⟩ := h
  ⟨lens, hl.trans hk, hb⟩

/-- `FIXED_LIT` is built from the lengths of 41_huffman_table.md R175. -/
theorem fixedLit_built : Table.fixedLit.BuiltFrom 288 :=
  ⟨fixedLitLens, by decide +kernel, by decide +kernel, by decide +kernel⟩

/-- `FIXED_DIST` is built from the lengths of 41_huffman_table.md R177. -/
theorem fixedDist_built : Table.fixedDist.BuiltFrom 32 :=
  ⟨fixedDistLens, by decide +kernel, by decide +kernel, by decide +kernel⟩

end Sys2Proof.Machine
end

