-- ==== Sys2Proof/Tests/Slice0.lean ====
section
/-! SUPPORT. The model's own tests: ill-formed terms, words written out from the encodings, single steps with the
results of 95_test_vectors.md and of the rules' own examples, and a witness for each statement with hypotheses. -/

namespace Sys2Proof.Tests

set_option Elab.async false

open Sys2Proof.Machine

/-! ### Helpers -/

/-- The outcome is a next state with this property. -/
def nextSat (r : Result) (p : State → Bool) : Bool :=
  match r with
  | .next t => p t
  | .fault _ => false
  | .refused _ => false

theorem exists_next {r : Result} {p : State → Bool} (h : nextSat r p = true) : ∃ t, r = .next t ∧ p t = true := by
  cases r with
  | next t => exact ⟨t, rfl, h⟩
  | fault f => simp [nextSat] at h
  | refused f => simp [nextSat] at h

theorem eq_next {r : Result} {t : State} (h : nextSat r (· == t) = true) : r = .next t :=
  let ⟨_, hu, he⟩ := exists_next h
  (eq_of_beq he) ▸ hu

/-- The outcome is this error. -/
def raises (r : Result) (e : ErrKind) : Bool := nextSat r fun t => t.err == e && t.fsm == .error

/-- Stream bits from 0 and 1. -/
def bits (l : List Nat) : List Bool := l.map (· == 1)

/-- What a context decodes from stream bits at bit 0, zero bits after them. -/
def dec (ctx : Ctx) (l : List Nat) : Option Instr :=
  match decode ctx 0 (packBytes 10 (bits l)) with
  | .instr i _ => some i
  | .stop _ _ _ => none

/-- The tables of the tests: `cl_tab` of 42_dynamic_table.md R193's example, and a one-symbol table of code `0`. -/
def clExample : Table := Table.ofLens [3, 3, 2, 3, 0, 0, 0, 0, 0, 0, 0, 0, 0, 0, 0, 0, 0, 3, 2]
def oneSymbol : Table := Table.ofLens [1]

/-- A state of a run over some input bytes, in a control state, as the invariant wants it. -/
def stateAt (f : Fsm) (bytes : List Byte) : State :=
  { State.reset with
    fsm := f
    inMem := Memory.writeAll [] 0 bytes
    endOffset := (BitVec.ofNat 32 bytes.length).toNat
    inLen := BitVec.ofNat 32 bytes.length
    outLimit := 16
    hlit := 257
    hdist := 1
    err := if f = .error then .truncatedInput else .none
    litTab := if f = .symbol then some Table.fixedLit else none
    distTab := if f = .symbol then some Table.fixedDist else none
    clTab := if f = .dynLens then some oneSymbol else none }

/-- The same state with some output. -/
def withOut (s : State) (bytes : List Byte) : State :=
  { s with outMem := Memory.writeAll [] 0 bytes, outLen := bytes.length }

/-- The output up to `out_len`. -/
def State.out (s : State) : Option (List Byte) := Memory.readRange s.outMem 0 s.outLen

/-! ### Well-formedness: ill-formed terms are refused -/

theorem test_wf_refuses_short_cllens : Instr.wf (.dynHdr 0 0 0 [1, 1, 1]) = false := by decide
theorem test_wf_refuses_long_cllens : Instr.wf (.dynHdr 7 3 1 [1, 1, 1, 0, 0, 0]) = false := by decide
theorem test_wf_accepts_cllens : Instr.wf (.dynHdr 7 3 1 [1, 1, 1, 0, 0]) = true := by decide
theorem test_accepts_refuses_another_class :
    Ctx.accepts .env (.trailer 1) = false ∧ Ctx.accepts .trailer (.env 0x78 0x9C) = false ∧
      Ctx.accepts .blkHdr (.stored 0 0xFFFF) = false ∧ Ctx.accepts .stored (.blkFixed true) = false ∧
      Ctx.accepts .dynHdr (.blkDynamic true) = false ∧ Ctx.accepts (.litLen Table.fixedLit) .dist0 = false ∧
      Ctx.accepts (.dist Table.fixedDist) .eob = false := by decide +kernel
theorem test_accepts_refuses_a_symbol_without_code :
    Ctx.accepts (.clSym clExample false) (.clLen 4) = false ∧ Ctx.accepts (.dist oneSymbol) .dist1 = false ∧
      Ctx.accepts (.litLen oneSymbol) (.lit 1) = false := by decide +kernel
theorem test_accepts_refuses_extra_of_first_repeat :
    Ctx.accepts (.clSym (Table.ofLens (List.replicate 16 0 ++ [1])) true) (.clRep 1) = false ∧
      Ctx.accepts (.clSym (Table.ofLens (List.replicate 16 0 ++ [1])) true) (.clRep 0) = true := by decide +kernel

/-! ### Decoding: words written out bit by bit, in stream order -/

/-- 30_encoding.md R101: CMF 0x78, FLG 0x9C, each least significant bit first. -/
theorem test_decode_env :
    dec .env [0,0,0,1,1,1,1,0, 0,0,1,1,1,0,0,1] = some (.env 0x78 0x9C) := by decide +kernel
/-- 30_encoding.md R102: BFINAL, then BTYPE least significant bit first. -/
theorem test_decode_blk :
    [dec .blkHdr [1,0,0], dec .blkHdr [0,1,0], dec .blkHdr [1,0,1], dec .blkHdr [0,1,1]] =
      [some (.blkStored true), some (.blkFixed false), some (.blkDynamic true), some (.blkReserved false)] := by
  decide +kernel
/-- 30_encoding.md R103 and V40.10: LEN 5, NLEN 0xFFFA, after padding that is skipped. -/
theorem test_decode_stored :
    decode .stored 3 [0xF8, 0x05, 0x00, 0xFA, 0xFF] = .instr (.stored 5 0xFFFA) 40 := by decide +kernel
/-- 30_encoding.md R104: HLIT 7, HDIST 2, HCLEN 1, then five 3-bit lengths. -/
theorem test_decode_dynHdr :
    dec .dynHdr [1,1,1,0,0, 0,1,0,0,0, 1,0,0,0, 1,0,0, 0,1,0, 1,1,0, 0,0,1, 1,1,1] =
      some (.dynHdr 7 2 1 [1, 2, 3, 4, 7]) := by decide +kernel
/-- 42_dynamic_table.md R193's codes: 2:00, 18:01, 0:100, 1:101, 3:110, 17:111, extra fields least significant bit
first (30_encoding.md R105). -/
theorem test_decode_cl :
    [dec (.clSym clExample false) [0,0], dec (.clSym clExample false) [1,1,0],
      dec (.clSym clExample false) [1,1,1, 1,0,0], dec (.clSym clExample false) [0,1, 0,1,1,0,1,0,1]] =
      [some (.clLen 2), some (.clLen 3), some (.clZero3 1), some (.clZero11 86)] := by decide +kernel
/-- 30_encoding.md R105; 42_dynamic_table.md R199: the first symbol 16 reads no extra field. -/
theorem test_decode_clRep :
    dec (.clSym (Table.ofLens (List.replicate 16 0 ++ [1])) false) [0, 0,1] = some (.clRep 2) ∧
      decode (.clSym (Table.ofLens (List.replicate 16 0 ++ [1])) true) 0 [0x06] = .instr (.clRep 0) 1 := by
  decide +kernel
/-- 41_huffman_table.md R176: literals 0, 143, 144, 255 and the end of block. -/
theorem test_decode_lit_eob :
    [dec (.litLen Table.fixedLit) [0,0,1,1,0,0,0,0], dec (.litLen Table.fixedLit) [1,0,1,1,1,1,1,1],
      dec (.litLen Table.fixedLit) [1,1,0,0,1,0,0,0,0], dec (.litLen Table.fixedLit) [1,1,1,1,1,1,1,1,1],
      dec (.litLen Table.fixedLit) [0,0,0,0,0,0,0]] =
      [some (.lit 0), some (.lit 143), some (.lit 144), some (.lit 255), some .eob] := by decide +kernel

/-- 43_block_decoder.md R240 to R268, R237, R238: the fixed code, most significant bit first, then the extra
field, least significant bit first. -/
theorem test_decode_len_257_to_264 :
    [dec (.litLen Table.fixedLit) [0,0,0,0,0,0,1],
      dec (.litLen Table.fixedLit) [0,0,0,0,0,1,0],
      dec (.litLen Table.fixedLit) [0,0,0,0,0,1,1],
      dec (.litLen Table.fixedLit) [0,0,0,0,1,0,0],
      dec (.litLen Table.fixedLit) [0,0,0,0,1,0,1],
      dec (.litLen Table.fixedLit) [0,0,0,0,1,1,0],
      dec (.litLen Table.fixedLit) [0,0,0,0,1,1,1],
      dec (.litLen Table.fixedLit) [0,0,0,1,0,0,0]] =
      [some .len257, some .len258, some .len259, some .len260, some .len261, some .len262, some .len263, some .len264] := by decide +kernel
/-- 43_block_decoder.md R240 to R268, R237, R238: the fixed code, most significant bit first, then the extra
field, least significant bit first. -/
theorem test_decode_len_265_to_272 :
    [dec (.litLen Table.fixedLit) [0,0,0,1,0,0,1, 1],
      dec (.litLen Table.fixedLit) [0,0,0,1,0,1,0, 1],
      dec (.litLen Table.fixedLit) [0,0,0,1,0,1,1, 1],
      dec (.litLen Table.fixedLit) [0,0,0,1,1,0,0, 1],
      dec (.litLen Table.fixedLit) [0,0,0,1,1,0,1, 1,0],
      dec (.litLen Table.fixedLit) [0,0,0,1,1,1,0, 1,1],
      dec (.litLen Table.fixedLit) [0,0,0,1,1,1,1, 1,0],
      dec (.litLen Table.fixedLit) [0,0,1,0,0,0,0, 1,1]] =
      [some (.len265 1), some (.len266 1), some (.len267 1), some (.len268 1), some (.len269 1), some (.len270 3), some (.len271 1), some (.len272 3)] := by decide +kernel
/-- 43_block_decoder.md R240 to R268, R237, R238: the fixed code, most significant bit first, then the extra
field, least significant bit first. -/
theorem test_decode_len_273_to_280 :
    [dec (.litLen Table.fixedLit) [0,0,1,0,0,0,1, 1,0,0],
      dec (.litLen Table.fixedLit) [0,0,1,0,0,1,0, 1,1,1],
      dec (.litLen Table.fixedLit) [0,0,1,0,0,1,1, 1,0,0],
      dec (.litLen Table.fixedLit) [0,0,1,0,1,0,0, 1,1,1],
      dec (.litLen Table.fixedLit) [0,0,1,0,1,0,1, 1,0,0,0],
      dec (.litLen Table.fixedLit) [0,0,1,0,1,1,0, 1,1,1,1],
      dec (.litLen Table.fixedLit) [0,0,1,0,1,1,1, 1,0,0,0],
      dec (.litLen Table.fixedLit) [1,1,0,0,0,0,0,0, 1,1,1,1]] =
      [some (.len273 1), some (.len274 7), some (.len275 1), some (.len276 7), some (.len277 1), some (.len278 15), some (.len279 1), some (.len280 15)] := by decide +kernel
/-- 43_block_decoder.md R240 to R268, R237, R238: the fixed code, most significant bit first, then the extra
field, least significant bit first. -/
theorem test_decode_len_281_to_287 :
    [dec (.litLen Table.fixedLit) [1,1,0,0,0,0,0,1, 1,0,0,0,0],
      dec (.litLen Table.fixedLit) [1,1,0,0,0,0,1,0, 1,1,1,1,1],
      dec (.litLen Table.fixedLit) [1,1,0,0,0,0,1,1, 1,0,0,0,0],
      dec (.litLen Table.fixedLit) [1,1,0,0,0,1,0,0, 1,1,1,1,1],
      dec (.litLen Table.fixedLit) [1,1,0,0,0,1,0,1],
      dec (.litLen Table.fixedLit) [1,1,0,0,0,1,1,0],
      dec (.litLen Table.fixedLit) [1,1,0,0,0,1,1,1]] =
      [some (.len281 1), some (.len282 31), some (.len283 1), some (.len284 31), some .len285, some .len286, some .len287] := by decide +kernel
/-- 43_block_decoder.md R270 to R301: the fixed code, most significant bit first, then the extra field, least
significant bit first. -/
theorem test_decode_dist_0_to_7 :
    [dec (.dist Table.fixedDist) [0,0,0,0,0],
      dec (.dist Table.fixedDist) [0,0,0,0,1],
      dec (.dist Table.fixedDist) [0,0,0,1,0],
      dec (.dist Table.fixedDist) [0,0,0,1,1],
      dec (.dist Table.fixedDist) [0,0,1,0,0, 1],
      dec (.dist Table.fixedDist) [0,0,1,0,1, 1],
      dec (.dist Table.fixedDist) [0,0,1,1,0, 1,1],
      dec (.dist Table.fixedDist) [0,0,1,1,1, 1,0]] =
      [some .dist0, some .dist1, some .dist2, some .dist3, some (.dist4 1), some (.dist5 1), some (.dist6 3), some (.dist7 1)] := by decide +kernel
/-- 43_block_decoder.md R270 to R301: the fixed code, most significant bit first, then the extra field, least
significant bit first. -/
theorem test_decode_dist_8_to_15 :
    [dec (.dist Table.fixedDist) [0,1,0,0,0, 1,1,1],
      dec (.dist Table.fixedDist) [0,1,0,0,1, 1,0,0],
      dec (.dist Table.fixedDist) [0,1,0,1,0, 1,1,1,1],
      dec (.dist Table.fixedDist) [0,1,0,1,1, 1,0,0,0],
      dec (.dist Table.fixedDist) [0,1,1,0,0, 1,1,1,1,1],
      dec (.dist Table.fixedDist) [0,1,1,0,1, 1,0,0,0,0],
      dec (.dist Table.fixedDist) [0,1,1,1,0, 1,1,1,1,1,1],
      dec (.dist Table.fixedDist) [0,1,1,1,1, 1,0,0,0,0,0]] =
      [some (.dist8 7), some (.dist9 1), some (.dist10 15), some (.dist11 1), some (.dist12 31), some (.dist13 1), some (.dist14 63), some (.dist15 1)] := by decide +kernel
/-- 43_block_decoder.md R270 to R301: the fixed code, most significant bit first, then the extra field, least
significant bit first. -/
theorem test_decode_dist_16_to_23 :
    [dec (.dist Table.fixedDist) [1,0,0,0,0, 1,1,1,1,1,1,1],
      dec (.dist Table.fixedDist) [1,0,0,0,1, 1,0,0,0,0,0,0],
      dec (.dist Table.fixedDist) [1,0,0,1,0, 1,1,1,1,1,1,1,1],
      dec (.dist Table.fixedDist) [1,0,0,1,1, 1,0,0,0,0,0,0,0],
      dec (.dist Table.fixedDist) [1,0,1,0,0, 1,1,1,1,1,1,1,1,1],
      dec (.dist Table.fixedDist) [1,0,1,0,1, 1,0,0,0,0,0,0,0,0],
      dec (.dist Table.fixedDist) [1,0,1,1,0, 1,1,1,1,1,1,1,1,1,1],
      dec (.dist Table.fixedDist) [1,0,1,1,1, 1,0,0,0,0,0,0,0,0,0]] =
      [some (.dist16 127), some (.dist17 1), some (.dist18 255), some (.dist19 1), some (.dist20 511), some (.dist21 1), some (.dist22 1023), some (.dist23 1)] := by decide +kernel
/-- 43_block_decoder.md R270 to R301: the fixed code, most significant bit first, then the extra field, least
significant bit first. -/
theorem test_decode_dist_24_to_31 :
    [dec (.dist Table.fixedDist) [1,1,0,0,0, 1,1,1,1,1,1,1,1,1,1,1],
      dec (.dist Table.fixedDist) [1,1,0,0,1, 1,0,0,0,0,0,0,0,0,0,0],
      dec (.dist Table.fixedDist) [1,1,0,1,0, 1,1,1,1,1,1,1,1,1,1,1,1],
      dec (.dist Table.fixedDist) [1,1,0,1,1, 1,0,0,0,0,0,0,0,0,0,0,0],
      dec (.dist Table.fixedDist) [1,1,1,0,0, 1,1,1,1,1,1,1,1,1,1,1,1,1],
      dec (.dist Table.fixedDist) [1,1,1,0,1, 1,0,0,0,0,0,0,0,0,0,0,0,0],
      dec (.dist Table.fixedDist) [1,1,1,1,0],
      dec (.dist Table.fixedDist) [1,1,1,1,1]] =
      [some (.dist24 2047), some (.dist25 1), some (.dist26 4095), some (.dist27 1), some (.dist28 8191), some (.dist29 1), some .dist30, some .dist31] := by decide +kernel
/-- 30_encoding.md R107: four bytes, the first one most significant, at the next byte boundary. -/
theorem test_decode_trailer :
    decode .trailer 6 [0x00, 0x06, 0x2C, 0x02, 0x15] = .instr (.trailer 0x062C0215) 40 := by decide +kernel
/-- 95_test_vectors.md L3 P2: the block bits `110 01110001 0001000 00000 0000000`. -/
theorem test_encode_p2 :
    encode .blkHdr 16 (.blkFixed true) ++ encode (.litLen Table.fixedLit) 19 (.lit 0x41) ++
      encode (.litLen Table.fixedLit) 27 .len264 ++ encode (.dist Table.fixedDist) 34 .dist0 ++
      encode (.litLen Table.fixedLit) 39 .eob =
      bits [1,1,0, 0,1,1,1,0,0,0,1, 0,0,0,1,0,0,0, 0,0,0,0,0, 0,0,0,0,0,0,0] := by decide +kernel
/-- 95_test_vectors.md L3 P1: from bit 19, LEN and NLEN stand after five bits of padding. -/
theorem test_encode_stored :
    packBytes 5 (bits [1,0,0] ++ encode .stored 19 (.stored 5 0xFFFA)) = [0x01, 0x05, 0x00, 0xFA, 0xFF] := by
  decide +kernel

/-! ### The cursor and the tables: 95_test_vectors.md L2.1, L2.2 -/

theorem test_v40_reads :
    ((Cursor.mk [0x12, 0x34, 0x56, 0x78, 0x9A] 5).readBits 32).toOption = some (0xD3C2B1A0, ⟨[0x12, 0x34, 0x56, 0x78, 0x9A], 37⟩) ∧
      ((Cursor.mk [0x73, 0x44, 0x00] 3).readBits 16).toOption = some (0x088E, ⟨[0x73, 0x44, 0x00], 19⟩) ∧
      ((Cursor.mk [0xAB, 0xCD] 8).readBits 9).toOption = none ∧
      ((Cursor.mk [0xFF, 0x01] 7).readBits 2).toOption = some (3, ⟨[0xFF, 0x01], 9⟩) := by decide +kernel
theorem test_v41_build :
    (Table.ofLens [3, 3, 3, 3, 3, 2, 4, 4]).syms.map (fun s => s.value.toNat) = [5, 0, 1, 2, 3, 4, 6, 7] ∧
      ((Table.ofLens [3, 3, 3, 3, 3, 2, 4, 4]).start.take 5, (Table.ofLens [3, 3, 3, 3, 3, 2, 4, 4]).stop.take 5) =
        ([0, 0, 0, 2, 14], [0, 0, 1, 7, 16]) ∧
      Table.build [1, 1, 1] = none ∧ Table.build [2, 2, 2, 2, 2] = none ∧ (Table.build [1, 2, 3]).isSome = true := by
  decide +kernel
theorem test_v41_decode :
    (Table.ofLens [3, 3, 3, 3, 3, 2, 4, 4]).decode ⟨[0x03], 0⟩ = .sym 4 ⟨[0x03], 3⟩ ∧
      (Table.ofLens [1, 2]).decode ⟨[0x03], 0⟩ = .stop .noMatchingCode ⟨[0x03], 2⟩ ∧
      (Table.ofLens [1, 2]).decode ⟨[0x80], 7⟩ = .stop .truncated ⟨[0x80], 8⟩ ∧
      (Table.ofLens [0, 0]).decode ⟨[0x80], 0⟩ = .stop .noMatchingCode ⟨[0x80], 0⟩ := by decide +kernel

/-! ### The instructions: one step each -/

/-- V45.1, V45.3: the accepted envelopes. -/
theorem test_env_accepts :
    nextSat (step (stateAt .env [0x78, 0x9C, 0x00])) (fun t => t.fsm == .blkHdr && t.pc == 16) &&
      nextSat (exec (.env 0x78 0xDA) (stateAt .env [])) (fun t => t.fsm == .blkHdr) = true := by decide +kernel
/-- V45.5 to V45.13: the order of the checks. -/
theorem test_env_rejects :
    [raises (exec (.env 0x78 0xFF) (stateAt .env [])) .badEnvelope,
      raises (exec (.env 0x79 0x18) (stateAt .env [])) .unsupportedMethod,
      raises (exec (.env 0x88 0x1C) (stateAt .env [])) .badEnvelope,
      raises (exec (.env 0x78 0xBB) (stateAt .env [])) .unsupportedFeature,
      raises (exec (.env 0x89 0x14) (stateAt .env [])) .unsupportedMethod,
      raises (exec (.env 0x88 0x3B) (stateAt .env [])) .badEnvelope] = List.replicate 6 true := by decide +kernel
/-- V43.1, V43.9 and 43_block_decoder.md R222 to R225. -/
theorem test_blk_headers :
    nextSat (exec (.blkStored true) (stateAt .blkHdr [])) (fun t => t.fsm == .stored && t.bfinal && t.btype == 0) &&
      nextSat (exec (.blkFixed false) (stateAt .blkHdr [])) (fun t =>
        t.fsm == .symbol && t.litTab == some Table.fixedLit && t.distTab == some Table.fixedDist && t.btype == 1) &&
      nextSat (exec (.blkDynamic true) (stateAt .blkHdr [])) (fun t => t.fsm == .dynHdr && t.btype == 2) &&
      raises (step (stateAt .blkHdr [0x07])) .invalidBlock = true := by decide +kernel
/-- L3 P1: the stored block of "hello". -/
theorem test_stored_hello :
    nextSat (step { stateAt .stored [0x01, 0x05, 0x00, 0xFA, 0xFF, 0x68, 0x65, 0x6C, 0x6C, 0x6F] with
        pc := 3, bfinal := true }) (fun t =>
      t.pc == 80 && State.out t == some [0x68, 0x65, 0x6C, 0x6C, 0x6F] && t.fsm == .trailer) = true := by decide +kernel
/-- V43.3, V43.5, V43.7: the checks of a stored block. -/
theorem test_stored_rejects :
    raises (step (stateAt .stored [0x05, 0x00, 0xFB, 0xFF, 0x68])) .invalidBlock &&
      raises (step { stateAt .stored [0x05, 0x00, 0xFA, 0xFF, 0x68, 0x65] with outLimit := 0 }) .truncatedInput &&
      raises (step { stateAt .stored [0x01, 0x00, 0xFE, 0xFF, 0x68] with outLimit := 0 }) .outOfMemory = true := by
  decide +kernel
/-- 42_dynamic_table.md R192, R193: the example. -/
theorem test_dynHdr_example :
    nextSat (exec (.dynHdr 7 2 14 [0, 3, 2, 3, 0, 0, 0, 0, 0, 0, 0, 0, 0, 3, 0, 2, 0, 3]) (stateAt .dynHdr []))
      (fun t => t.clTab == some clExample && t.hlit == 264 && t.hdist == 3 && t.hclen == 18 && t.fsm == .dynLens) =
      true := by decide +kernel
/-- V42.6: an over-subscribed `cl_tab`. -/
theorem test_dynHdr_rejects :
    raises (exec (.dynHdr 0 0 0 [1, 1, 1, 0]) (stateAt .dynHdr [])) .invalidTable = true := by decide +kernel
/-- 42_dynamic_table.md R195 to R198. -/
theorem test_cl_fills :
    nextSat (exec (.clLen 5) (stateAt .dynLens [])) (fun t => t.lens == [5]) &&
      nextSat (exec (.clRep 1) { stateAt .dynLens [] with lens := [0, 7] }) (fun t => t.lens == [0, 7, 7, 7, 7, 7]) &&
      nextSat (exec (.clZero3 2) { stateAt .dynLens [] with lens := [7] }) (fun t => t.lens == [7, 0, 0, 0, 0, 0]) &&
      nextSat (exec (.clZero11 127) (stateAt .dynLens [])) (fun t => t.n == 138) = true := by decide +kernel
/-- V42.4, V42.5. -/
theorem test_cl_rejects :
    raises (exec (.clRep 0) (stateAt .dynLens [])) .invalidTable &&
      raises (exec (.clZero11 127) { stateAt .dynLens [] with lens := List.replicate 138 0 }) .invalidTable = true := by
  decide +kernel
/-- 42_dynamic_table.md R194, R201: the last length installs the tables. -/
theorem test_cl_installs :
    nextSat (exec (.clLen 1) { stateAt .dynLens [] with lens := List.replicate 256 0 ++ [1] }) (fun t =>
      t.fsm == .symbol && t.litTab == some (Table.ofLens (List.replicate 256 0 ++ [1])) && t.distTab == some oneSymbol &&
        t.clTab == none) = true := by decide +kernel
/-- 00_scope.md R13: a limit given as an argument, above the register's range and none at all. -/
theorem test_limit_argument :
    nextSat (exec (.lit 1) { stateAt .symbol [] with outLen := 2 ^ 32, limitBy := .bytes (2 ^ 32 + 1) }) (fun t =>
      t.outLen == 2 ^ 32 + 1) &&
      raises (exec (.lit 1) { stateAt .symbol [] with outLen := 2 ^ 32, limitBy := .bytes (2 ^ 32) }) .outOfMemory &&
      nextSat (exec (.lit 1) { stateAt .symbol [] with outLimit := 0, limitBy := .unbounded }) (fun t =>
        State.out t == some [1]) = true := by decide +kernel
/-- V44.7, V44.6. -/
theorem test_lit :
    nextSat (exec (.lit 0x42) { withOut (stateAt .symbol []) [65, 65, 65, 65] with outLimit := 5 }) (fun t =>
      State.out t == some [65, 65, 65, 65, 66]) &&
      raises (exec (.lit 0x41) { stateAt .symbol [] with outLimit := 0 }) .outOfMemory = true := by decide +kernel
/-- 43_block_decoder.md R232, R239. -/
theorem test_eob :
    nextSat (exec .eob { stateAt .symbol [] with bfinal := true }) (fun t => t.fsm == .trailer && t.litTab == none) &&
      nextSat (exec .eob (stateAt .symbol [])) (fun t => t.fsm == .blkHdr && t.distTab == none) = true := by
  decide +kernel

/-- The length an instruction sets. -/
def lenOf (i : Instr) : Option Nat :=
  match exec i (stateAt .symbol []) with
  | .next t => if t.distNext then some t.mlen.toNat else none
  | .fault _ => none
  | .refused _ => none

/-- The distance an instruction sets. -/
def distOf (i : Instr) : Option Nat :=
  match exec i { stateAt .symbol [] with outMem := [], outLimit := 0 } with
  | .next t => some t.mdist.toNat
  | .fault _ => none
  | .refused _ => none

/-- 43_block_decoder.md R240 to R255: the least and the greatest value. -/
theorem test_len_257_to_272 :
    ([.len257, .len258, .len259, .len260, .len261, .len262, .len263, .len264, .len265 0, .len265 1, .len266 0,
      .len266 1, .len267 0, .len267 1, .len268 0, .len268 1, .len269 0, .len269 3, .len270 0, .len270 3,
      .len271 0, .len271 3, .len272 0, .len272 3] : List Instr).map lenOf =
      ([3, 4, 5, 6, 7, 8, 9, 10, 11, 12, 13, 14, 15, 16, 17, 18, 19, 22, 23, 26, 27, 30, 31, 34] : List Nat).map some := by
  decide +kernel
/-- 43_block_decoder.md R256 to R268: the least and the greatest value. -/
theorem test_len_273_to_285 :
    ([.len273 0, .len273 7, .len274 0, .len274 7, .len275 0, .len275 7, .len276 0, .len276 7, .len277 0,
      .len277 15, .len278 0, .len278 15, .len279 0, .len279 15, .len280 0, .len280 15, .len281 0, .len281 31,
      .len282 0, .len282 31, .len283 0, .len283 31, .len284 0, .len284 31, .len285] : List Instr).map lenOf =
      ([35, 42, 43, 50, 51, 58, 59, 66, 67, 82, 83, 98, 99, 114, 115, 130, 131, 162, 163, 194, 195, 226,
      227, 258, 258] : List Nat).map some := by
  decide +kernel
/-- 43_block_decoder.md R270 to R281: the least and the greatest value. -/
theorem test_dist_0_to_11 :
    ([.dist0, .dist1, .dist2, .dist3, .dist4 0, .dist4 1, .dist5 0, .dist5 1, .dist6 0, .dist6 3, .dist7 0,
      .dist7 3, .dist8 0, .dist8 7, .dist9 0, .dist9 7, .dist10 0, .dist10 15, .dist11 0, .dist11 15] : List Instr).map distOf =
      ([1, 2, 3, 4, 5, 6, 7, 8, 9, 12, 13, 16, 17, 24, 25, 32, 33, 48, 49, 64] : List Nat).map some := by
  decide +kernel
/-- 43_block_decoder.md R282 to R291: the least and the greatest value. -/
theorem test_dist_12_to_21 :
    ([.dist12 0, .dist12 31, .dist13 0, .dist13 31, .dist14 0, .dist14 63, .dist15 0, .dist15 63, .dist16 0,
      .dist16 127, .dist17 0, .dist17 127, .dist18 0, .dist18 255, .dist19 0, .dist19 255, .dist20 0, .dist20
      511, .dist21 0, .dist21 511] : List Instr).map distOf =
      ([65, 96, 97, 128, 129, 192, 193, 256, 257, 384, 385, 512, 513, 768, 769, 1024, 1025, 1536, 1537, 2048] : List Nat).map some := by
  decide +kernel
/-- 43_block_decoder.md R292 to R299: the least and the greatest value. -/
theorem test_dist_22_to_29 :
    ([.dist22 0, .dist22 1023, .dist23 0, .dist23 1023, .dist24 0, .dist24 2047, .dist25 0, .dist25 2047,
      .dist26 0, .dist26 4095, .dist27 0, .dist27 4095, .dist28 0, .dist28 8191, .dist29 0, .dist29 8191] : List Instr).map distOf =
      ([2049, 3072, 3073, 4096, 4097, 6144, 6145, 8192, 8193, 12288, 12289, 16384, 16385, 24576, 24577,
      32768] : List Nat).map some := by
  decide +kernel
/-- V43.18 to V43.21. -/
theorem test_undefined_symbols :
    [raises (step (stateAt .symbol [0x63])) .logicError, raises (step (stateAt .symbol [0xE3])) .logicError,
      raises (exec .dist30 (stateAt .symbol [])) .logicError, raises (exec .dist31 (stateAt .symbol [])) .logicError] =
      List.replicate 4 true := by decide +kernel
/-- L1.6: `A` and a back-reference of length 10 at distance 1, one step. -/
theorem test_match_overlapping :
    nextSat (step (withOut (stateAt .symbol [0x08, 0x00]) [65])) (fun t =>
      State.out t == some (List.replicate 11 65) && t.pc == 12 && t.mlen == 10 && t.mdist == 1 && !t.distNext) = true := by
  decide +kernel
/-- V44.2, V44.4, V44.5. -/
theorem test_append_copy :
    nextSat (appendCopy 3 6 (withOut (stateAt .symbol []) [120, 121, 122])) (fun t =>
      State.out t == some [120, 121, 122, 120, 121, 122, 120, 121, 122]) &&
      nextSat (appendCopy 4 3 (withOut (stateAt .symbol []) [97, 98, 99, 100])) (fun t =>
        State.out t == some [97, 98, 99, 100, 97, 98, 99]) &&
      nextSat (appendCopy 1 10 { withOut (stateAt .symbol []) [65] with outLimit := 10 }) (fun t =>
        t.err == .outOfMemory && State.out t == some [65]) = true := by decide +kernel
/-- V43.14, V43.15: `dist = out_len` copies, one more does not. -/
theorem test_dist_bound :
    nextSat (exec .dist1 { withOut (stateAt .symbol []) [65, 66] with mlen := 3 }) (fun t =>
      State.out t == some [65, 66, 65, 66, 65]) &&
      raises (exec .dist2 { withOut (stateAt .symbol []) [65, 66] with mlen := 3 }) .invalidBlock = true := by
  decide +kernel
/-- L3 P1, L2.7: a trailer that fits and one that does not. -/
theorem test_trailer :
    nextSat (step (withOut (stateAt .trailer [0x06, 0x2C, 0x02, 0x15]) [0x68, 0x65, 0x6C, 0x6C, 0x6F])) (fun t =>
      t.fsm == .done && t.adlerCalc == 0x062C0215 && t.adlerRead == 0x062C0215) &&
      nextSat (step (withOut (stateAt .trailer [0x06, 0x2C, 0x02, 0x16]) [0x68, 0x65, 0x6C, 0x6C, 0x6F])) (fun t =>
        t.err == .checksumMismatch && t.adlerCalc == 0x062C0215 && t.adlerRead == 0x062C0216) = true := by decide +kernel
/-- L1.4, L2.7: checksums. -/
theorem test_adler :
    [adler [], adler [65], adler [104, 105], adler (List.replicate 259 65)] =
      [0x00000001, 0x00420042, 0x013B00D2, 0x67F841C4] := by decide +kernel
/-- L1.7: P1 cut to 15 bytes; three trailer bytes have been read. -/
theorem test_trailer_truncated :
    nextSat (step (stateAt .trailer [0x06, 0x2C, 0x02])) (fun t =>
      t.err == .truncatedInput && t.adlerRead == 0x00062C02 && t.pc == 24) = true := by decide +kernel
/-- V45.15: one byte of envelope; nothing is read. -/
theorem test_env_truncated :
    nextSat (step (stateAt .env [0x78])) (fun t => t.err == .truncatedInput && t.pc == 0) = true := by decide +kernel
/-- V43.6: NLEN cut; LEN has been read. -/
theorem test_stored_truncated :
    nextSat (step (stateAt .stored [0x05, 0x00, 0xFA])) (fun t =>
      t.err == .truncatedInput && t.pc == 16 && t.slen == 5) = true := by decide +kernel
/-- V70.1, V70.2: the registers after reset, and START with no input. -/
theorem test_registers_after_reset :
    ((State.reset.regRead .adlerCalc).1, (State.reset.regRead .status).1) = (1, 0) ∧
      nextSat (step (State.reset.regWrite .ctrl 1)) (fun t => t.status == 0x104 && t.pc == 0) = true := by decide +kernel
/-- 30_encoding.md R115: `MATCH len=10 dist=1`, `MATCH len=258`, `ZEROS 140`, `REPEAT 7`. -/
theorem test_pseudo :
    matchInstrs 10 1 = some [.len264, .dist0] ∧ matchInstrs 258 32768 = some [.len285, .dist29 8191] ∧
      matchInstrs 2 1 = none ∧ zerosInstrs 140 = some [.clZero11 126, .clZero3 0] ∧
      repeatInstrs 7 = some [.clRep 1, .clRep 0] ∧ repeatInstrs 2 = none := by decide +kernel

/-! ### Witnesses: the hypotheses of each statement are met -/

theorem oneSymbol_built : oneSymbol.BuiltFrom 19 := ⟨[1], by decide, by decide, by decide⟩

theorem stateAt_input (f : Fsm) (bytes : List Byte) : (stateAt f bytes).InputWritten := by
  intro a ha
  have hlt : a < bytes.length := by
    have : (stateAt f bytes).endOffset = bytes.length % 2 ^ 32 := rfl
    have := Nat.mod_le bytes.length (2 ^ 32)
    omega
  show (Memory.read (Memory.writeAll [] 0 bytes) a).isSome = true
  rw [Machine.read_writeAll, if_pos ⟨Nat.zero_le _, by omega⟩]
  simp [hlt]

/-- The states of the tests meet the invariant, in every control state. -/
theorem stateAt_inv (f : Fsm) (bytes : List Byte) : (stateAt f bytes).Inv where
  inWf := writeAll_wf nil_wf _ _
  outWf := nil_wf
  cursor := Nat.zero_le _
  endIsLen _ := rfl
  outWritten a ha := absurd ha (Nat.not_lt_zero a)
  outBounded _ n _ := Nat.zero_le n
  slots := by cases f <;> rfl
  litBuilt t ht := by
    have ht : (if f = .symbol then some Table.fixedLit else none) = some t := ht
    split at ht
    · exact Option.some.inj ht ▸ fixedLit_built
    · nomatch ht
  distBuilt t ht := by
    have ht : (if f = .symbol then some Table.fixedDist else none) = some t := ht
    split at ht
    · exact Option.some.inj ht ▸ fixedDist_built
    · nomatch ht
  clBuilt t ht := by
    have ht : (if f = .dynLens then some oneSymbol else none) = some t := ht
    split at ht
    · exact Option.some.inj ht ▸ oneSymbol_built
    · nomatch ht
  lensOpen _ := by
    show 257 ≤ (257 : BitVec 9).toNat ∧ (257 : BitVec 9).toNat ≤ 288 ∧ 1 ≤ (1 : BitVec 6).toNat ∧
      (1 : BitVec 6).toNat ≤ 32 ∧ 0 < (257 : BitVec 9).toNat + (1 : BitVec 6).toNat
    decide
  clLenSize := rfl
  errIff := by
    show (if f = .error then ErrKind.truncatedInput else .none) = .none ↔ f ≠ .error
    split <;> simp_all
  sums := by
    show (1 : BitVec 16).toNat < 65521 ∧ (0 : BitVec 16).toNat < 65521
    decide
  midElement h := nomatch h

/-- A step of a test state goes on, to a state with a property. -/
def StepsTo (f : Fsm) (bytes : List Byte) (p : State → Bool) : Prop :=
  (stateAt f bytes).Inv ∧ (stateAt f bytes).InputWritten ∧ ∃ t, step (stateAt f bytes) = .next t ∧ p t = true

theorem stepsTo {f : Fsm} {bytes : List Byte} {p : State → Bool} (h : nextSat (step (stateAt f bytes)) p = true) :
    StepsTo f bytes p := ⟨stateAt_inv f bytes, stateAt_input f bytes, exists_next h⟩

/-- The hypotheses of `CopiesBack` for a distance. -/
def CopyReady (s : State) (dist : Nat) : Prop :=
  dist ≤ s.outLen ∧ s.overLimit s.mlen.toNat = false ∧
    ∀ a, a < s.outLen → (Memory.read s.outMem a).isSome = true

/-- A state that is ready to copy `len` bytes from exactly the start of its output. -/
def copyState (dist : Nat) : State :=
  { withOut (stateAt .symbol []) (List.replicate dist 0) with mlen := 3, distNext := true, outLimit := 0x8003 }

theorem copyState_ready (dist : Nat) (h : dist ≤ 32768) : CopyReady (copyState dist) dist := by
  have hl : (copyState dist).outLen = dist := by simp [copyState, withOut]
  refine ⟨hl.ge, ?_, fun a ha => ?_⟩
  · rw [overLimit_eq_false_iff, hl]
    intro n hn
    have hn : n = (0x8003 : BitVec 32).toNat := (Option.some.inj hn).symm
    show dist + (3 : BitVec 9).toNat ≤ n
    rw [hn]
    simp
    omega
  · rw [hl] at ha
    show (Memory.read (Memory.writeAll [] 0 (List.replicate dist 0)) a).isSome = true
    rw [Machine.read_writeAll, if_pos ⟨Nat.zero_le _, by simp; omega⟩]
    simp [ha]

theorem witness_ReadBitsReadsTheField :
    (33 ≤ 8 * 5 ∧ 32 ≤ 32 ∧ 8 * 4 < 1 + 32) ∧ 8 + 32 ≤ 8 * [0x12, 0x34, 0x56, 0x78, (0x9A : Byte)].length ∧
      16 ≤ 8 * [0xAB, (0xCD : Byte)].length ∧ 15 < 8 * [0xAB, (0xCD : Byte)].length ∧
      16 = 8 * [0xAB, (0xCD : Byte)].length ∧ 32 < 33 := by decide
theorem witness_AlignAndRemainingBytes :
    (Cursor.mk [1, 2, 3] 24).pos % 8 = 0 ∧ (Cursor.mk [1, 2, 3] 17).pos % 8 ≠ 0 ∧
      (Cursor.mk [1, 2, 3] 23).pos ≤ 8 * (Cursor.mk [1, 2, 3] 23).bytes.length := by decide
theorem witness_BarrelShifterReadsTheField :
    32 ≤ 32 ∧ 7 + 32 ≤ 8 * [0x12, 0x34, 0x56, 0x78, (0x9A : Byte)].length ∧
      7 + 33 ≤ 8 * [0x12, 0x34, 0x56, 0x78, (0x9A : Byte)].length := by decide
theorem witness_CodesAreCanonical :
    [3, 3, 3, 3, 3, 2, 4, 4].length ≤ 2 ^ 11 ∧ [1, 15, 0].length ≤ 2 ^ 11 ∧ Table.build [3, 3, 3, 3, 3, 2, 4, 4] = some (Table.ofLens [3, 3, 3, 3, 3, 2, 4, 4]) ∧
      [3, 3, 3, 3, 3, 2, 4, 4][7]? = some 4 ∧ Table.build [1, 15, 0] = some (Table.ofLens [1, 15, 0]) ∧
      [1, 15, 0][0]? = some 1 ∧ [1, 15, 0][1]? = some 15 ∧ [1, 15, 0][2]? = some 0 ∧ 1 ≤ 1 ∧ 14 < 15 := by decide +kernel
theorem witness_DecodeFindsTheCode :
    [3, 3, 3, 3, 3, 2, 4, 4].length ≤ 2 ^ 11 ∧ Table.build [3, 3, 3, 3, 3, 2, 4, 4] = some (Table.ofLens [3, 3, 3, 3, 3, 2, 4, 4]) ∧
      (Table.ofLens [3, 3, 3, 3, 3, 2, 4, 4]).codeOf 4 = some (3, 6) ∧ BitsAt [0x03] 0 (bitsMsb 3 6) := by
  refine ⟨by decide, by decide +kernel, by decide +kernel, ?_⟩
  unfold BitsAt
  decide +kernel

/-- Where decoding stops, no code stands. -/
theorem no_code_of_stop {lens : List Nat} (hn : lens.length ≤ 2 ^ 11) (hf : lensFit lens = true) {c c' : Cursor} {why : Stop}
    (h : (Table.ofLens lens).decode c = .stop why c') (v len code : Nat)
    (hc : (Table.ofLens lens).codeOf v = some (len, code)) : ¬ BitsAt c.bytes c.pos (bitsMsb len code) := by
  intro hb
  rw [decode_of_code hn hf hc hb] at h
  cases h

theorem witness_DecodeWithoutACode_noMatch :
    [1, 2].length ≤ 2 ^ 11 ∧ Table.build [1, 2] = some (Table.ofLens [1, 2]) ∧
      (∀ v len code, (Table.ofLens [1, 2]).codeOf v = some (len, code) → ¬ BitsAt [0xC0] 6 (bitsMsb len code)) ∧
      6 + (Table.ofLens [1, 2]).lmax ≤ 8 * [(0xC0 : Byte)].length :=
  ⟨by decide, by decide +kernel, no_code_of_stop (c := ⟨[0xC0], 6⟩) (c' := ⟨[0xC0], 8⟩) (why := .noMatchingCode) (by decide)
    (by decide +kernel) (by decide +kernel), by decide +kernel⟩
theorem witness_DecodeWithoutACode_truncated :
    [1, 2].length ≤ 2 ^ 11 ∧ Table.build [1, 2] = some (Table.ofLens [1, 2]) ∧
      (∀ v len code, (Table.ofLens [1, 2]).codeOf v = some (len, code) → ¬ BitsAt [0x80] 7 (bitsMsb len code)) ∧
      0 < (Table.ofLens [1, 2]).lmax ∧ 8 * [(0x80 : Byte)].length < 7 + (Table.ofLens [1, 2]).lmax :=
  ⟨by decide, by decide +kernel, no_code_of_stop (c := ⟨[0x80], 7⟩) (c' := ⟨[0x80], 8⟩) (why := .truncated) (by decide)
    (by decide +kernel) (by decide +kernel), by decide +kernel, by decide +kernel⟩
theorem witness_DecodeWithoutACode_empty :
    [0, 0].length ≤ 2 ^ 11 ∧ Table.build [0, 0] = some (Table.ofLens [0, 0]) ∧
      (∀ v len code, (Table.ofLens [0, 0]).codeOf v = some (len, code) → ¬ BitsAt [] 0 (bitsMsb len code)) ∧
      (Table.ofLens [0, 0]).syms = [] :=
  ⟨by decide, by decide +kernel, no_code_of_stop (c := ⟨[], 0⟩) (c' := ⟨[], 0⟩) (why := .noMatchingCode) (by decide)
    (by decide +kernel) (by decide +kernel), by decide +kernel⟩
theorem witness_FixedCodes :
    0 < 144 ∧ 143 < 144 ∧ 144 ≤ 144 ∧ 255 < 256 ∧ 256 ≤ 256 ∧ 279 < 280 ∧ 280 ≤ 280 ∧ 287 < 288 ∧ 31 < 32 := by decide
theorem witness_FixedTablesDecodeEveryString :
    BitsAt [0xE8, 0x00] 1 (bitsMsb 7 0x17) ∧ BitsAt [0x0C, 0x00] 0 (bitsMsb 8 0x30) ∧
      BitsAt [0xFD, 0x00] 0 (bitsMsb 8 0xBF) ∧ BitsAt [0x03, 0x00] 0 (bitsMsb 8 0xC0) ∧
      BitsAt [0xE3, 0x00] 0 (bitsMsb 8 0xC7) ∧ BitsAt [0x13, 0x00] 0 (bitsMsb 9 0x190) ∧
      BitsAt [0xFF, 0x01] 0 (bitsMsb 9 0x1FF) ∧ BitsAt [0xF8] 3 (bitsMsb 5 31) ∧ 7 + 9 ≤ 8 * 2 ∧ 3 + 5 ≤ 8 * 1 := by
  unfold BitsAt
  decide +kernel
theorem witness_DecodeOfEncode :
    (Ctx.litLen Table.fixedLit).TableBuilt ∧ (Ctx.litLen Table.fixedLit).accepts (.len284 31) = true ∧
      BitsAt [0x18, 0xF9] 3 (encode (.litLen Table.fixedLit) 3 (.len284 31)) := by
  refine ⟨fun t ht => ?_, by decide +kernel, ?_⟩
  · exact Option.some.inj ht ▸ builtFrom_mono fixedLit_built (by decide)
  · unfold BitsAt
    decide +kernel
theorem witness_EncodeOfDecode :
    Ctx.stored.TableBuilt ∧ decode .stored 3 [0xF8, 0x05, 0x00, 0xFA, 0xFF] = .instr (.stored 5 0xFFFA) 40 :=
  ⟨fun _ ht => (nomatch ht), test_decode_stored⟩
theorem witness_WindowDecodesLikeTheInput :
    (stateAt .symbol (List.replicate 12 1)).InputWritten ∧
      (stateAt .symbol (List.replicate 12 1)).pc ≤ 8 * (stateAt .symbol (List.replicate 12 1)).endOffset ∧
      (Ctx.litLen Table.fixedLit).TableBuilt :=
  ⟨stateAt_input _ _, by decide, witness_DecodeOfEncode.1⟩
theorem witness_HardwareResetState : hardwareReset (stateAt .symbol [1]) = hardwareReset (stateAt .symbol [1]) := rfl
theorem witness_StartInitialisesTheRun :
    (1 : Word).getLsbD 0 = true ∧ (stateAt .idle []).fsm = .idle ∧ (stateAt .done []).fsm = .done ∧
      (stateAt .error []).fsm = .error ∧ (stateAt .trailer []).busy = true ∧ (0 : Word).getLsbD 0 = false := by decide
theorem witness_StatusRegister : 3 ≤ 3 ∧ 7 < 8 ∧ 3 < 4 ∧ 12 ≤ 31 := by decide
theorem witness_HostParameterRegisters : (stateAt .done []).busy = false ∧ (stateAt .env []).busy = true := by decide
theorem witness_HostResultRegisters :
    ((stateAt .done []).fsm = .done ∧ (stateAt .done []).outLen < 2 ^ 32) ∧ (stateAt .error []).busy = false ∧
      ({ stateAt .error [] with err := .checksumMismatch } : State).err = .checksumMismatch ∧
      ((withOut (stateAt .done []) [65]).fsm = .done ∧ 0 < (withOut (stateAt .done []) [65]).outLen ∧
        Memory.read (withOut (stateAt .done []) [65]).outMem 0 = some 65) ∧
      (stateAt .symbol []).busy = true ∧ ((stateAt .error []).fsm = .error ∧ (stateAt .error []).err ≠ .checksumMismatch) ∧
      2 ^ 32 ≤ ({ stateAt .done [] with outLen := 2 ^ 32 } : State).outLen ∧
      ((stateAt .error []).fsm ≠ .done ∧ (withOut (stateAt .done []) [65]).outLen ≤ 1) := by decide
theorem witness_HostFaultsAndIgnoredAccesses :
    (0x20 ≤ 0x20 ∧ 0x20 < 0x24 ∧ 0x20 % 4 = 0) ∧ (8 ≠ 32 ∨ 2 % 4 ≠ 0) ∧
      ((stateAt .symbol []).busy = true ∧ 2 ^ 32 - 1 < 2 ^ 32) ∧ 0x1C < 0x20 ∧ 0x1C % 4 = 0 := by decide
theorem witness_BootStartsTheRun : State.reset.busy = false ∧ [0x78, (0x9C : Byte)].length < 2 ^ 32 := by decide
/-- V45.5 to V45.13, V45.1: one header for each clause; CINFO 7 is the last one accepted. -/
theorem witness_EnvelopeChecksInOrder :
    (0x78 * 256 + 0xFF) % 31 ≠ 0 ∧ ((0x79 * 256 + 0x18) % 31 = 0 ∧ 0x79 % 16 ≠ 8) ∧
      ((0x88 * 256 + 0x1C) % 31 = 0 ∧ 0x88 % 16 = 8 ∧ 7 < 0x88 / 16) ∧
      ((0x78 * 256 + 0xBB) % 31 = 0 ∧ 0x78 % 16 = 8 ∧ 0x78 / 16 ≤ 7 ∧ 0xBB / 32 % 2 = 1) ∧
      (0x78 * 256 + 0x9C) % 31 = 0 ∧ 0x9C / 32 % 2 = 0 := by decide
/-- L3 P1: five data bytes that fill the input and the output limit exactly. -/
theorem witness_StoredBlockCopies :
    ({ stateAt .stored [1, 2, 3, 4, 5] with outLimit := 4 } : State).overLimit (5 : BitVec 16).toNat = true ∧
    (5 : BitVec 16).toNat ≤ (stateAt .stored [1, 2, 3, 4, 5]).remainingBytes ∧
      ({ stateAt .stored [1, 2, 3, 4, 5] with outLimit := 5 } : State).overLimit (5 : BitVec 16).toNat = false ∧
      ∀ j, j < 5 → (Memory.read (stateAt .stored [1, 2, 3, 4, 5]).inMem (0 / 8 + j)).isSome = true := by decide
theorem witness_StoredBlockChecks :
    ((0xFFFB : BitVec 16).toNat ≠ 0xFFFF - (5 : BitVec 16).toNat) ∧
      ((0xFFFA : BitVec 16).toNat = 0xFFFF - (5 : BitVec 16).toNat ∧ (stateAt .stored [1, 2, 3, 4]).remainingBytes < 5) ∧
      5 ≤ (stateAt .stored [1, 2, 3, 4, 5]).remainingBytes ∧
        ({ stateAt .stored [1, 2, 3, 4, 5] with outLimit := 4 } : State).overLimit 5 = true := by decide
theorem witness_DynamicHeader :
    (Instr.dynHdr 7 2 14 [0, 3, 2, 3, 0, 0, 0, 0, 0, 0, 0, 0, 0, 3, 0, 2, 0, 3]).wf = true ∧
      Table.build [3, 3, 2, 3, 0, 0, 0, 0, 0, 0, 0, 0, 0, 0, 0, 0, 0, 3, 2] = some clExample ∧
      (Instr.dynHdr 0 0 0 [1, 1, 1, 0]).wf = true ∧
      Table.build [0, 0, 0, 0, 0, 0, 0, 0, 0, 0, 0, 0, 0, 0, 0, 0, 1, 1, 1] = none := by decide +kernel
/-- Each form, with a run that leaves room and one that fills the sequence of 258 lengths exactly. -/
theorem witness_CodeLengthSymbolsFill :
    0 + 1 < 257 + 1 ∧ 257 + 1 = 257 + 1 ∧ 1 + (3 + (0 : BitVec 2).toNat) < 257 + 1 ∧
      [(7 : BitVec 4)].getLast? = some 7 ∧ 252 + (3 + (3 : BitVec 2).toNat) = 257 + 1 ∧
      248 + (3 + (7 : BitVec 3).toNat) = 257 + 1 ∧ 120 + (11 + (127 : BitVec 7).toNat) = 257 + 1 ∧
      (stateAt .dynLens []).hlit.toNat + (stateAt .dynLens []).hdist.toNat = 257 + 1 ∧ (stateAt .dynLens []).n = 0 := by
  decide
theorem witness_CodeLengthRunsRejected :
    (stateAt .dynLens []).n = 0 ∧
      257 + 1 < ({ stateAt .dynLens [] with lens := List.replicate 256 0 } : State).n + (3 + (0 : BitVec 2).toNat) ∧
      257 + 1 < 256 + (3 + (0 : BitVec 3).toNat) ∧ 257 + 1 < 248 + (11 + (0 : BitVec 7).toNat) := by decide +kernel
theorem witness_TablesInstalledFromLengths :
    (List.replicate 256 0 ++ [1]).length = (257 : BitVec 9).toNat ∧ [(1 : BitVec 4)].length = (1 : BitVec 6).toNat ∧
      Table.build [1] = some oneSymbol ∧
      Table.build (List.replicate 256 0 ++ [1]) = some (Table.ofLens (List.replicate 256 0 ++ [1])) ∧
      Table.build (List.replicate 254 0 ++ [1, 1, 1]) = none := by decide +kernel
theorem witness_LiteralAppendsItsByte :
    ({ stateAt .symbol [] with outLimit := 0 } : State).overLimit 1 = true ∧
      (withOut (stateAt .symbol []) (List.replicate 15 0)).overLimit 1 = false := by
  decide
theorem witness_OutputLimitStopsAppends :
    ((stateAt .symbol []).limitBy = .register ∧
      ({ stateAt .symbol [] with limitBy := .bytes (2 ^ 32) } : State).limitBy = .bytes (2 ^ 32)) ∧
      ({ stateAt .symbol [] with outLimit := 0 } : State).overLimit 1 = true ∧
      ((Instr.dist29 8191).shape = .coded .dist 29 13 8191 ∧ rowBase distTab 29 + 8191 ≤ 32768 ∧
        ({ stateAt .symbol [] with outLen := 32768, mlen := 3, outLimit := 32770 } : State).overLimit 3 = true) ∧
      (∃ t, exec (.lit 0) { stateAt .symbol [] with outLimit := 0 } = .next t ∧ (t.err == .outOfMemory) = true) ∧
      ∃ t, step { stateAt .symbol [0x0C, 0x00] with outLimit := 0, limitBy := .unbounded } = .next t ∧
        (t.outLen == 1) = true :=
  ⟨⟨rfl, rfl⟩, by decide, ⟨rfl, by decide, by decide⟩, exists_next (by decide +kernel), exists_next (by decide +kernel)⟩
theorem witness_ErrorsArePrecise :
    (stateAt .blkHdr []).fsm ≠ .error ∧
      ∃ t, exec (.blkReserved true) (stateAt .blkHdr []) = .next t ∧ (t.fsm == .error) = true :=
  ⟨by decide, exists_next (by decide +kernel)⟩
theorem witness_EndOfBlockReleasesTables :
    ({ stateAt .symbol [] with bfinal := true } : State).bfinal = true ∧ (stateAt .symbol []).bfinal = false ∧
      ∃ t, exec (.stored 0 0xFFFF) (stateAt .stored []) = .next t ∧ (t.fsm == .blkHdr) = true :=
  ⟨rfl, rfl, exists_next (by decide +kernel)⟩
theorem witness_DistanceSymbols0To9 :
    ∀ d ∈ [1, 2, 3, 4, 5, 6, 7, 8, 9, 12, 13, 16, 17, 24, 25, 32], CopyReady (copyState d) d := fun d hd =>
  copyState_ready d (by revert d; decide)
theorem witness_DistanceSymbols10To19 :
    ∀ d ∈ [33, 48, 49, 64, 65, 96, 97, 128, 129, 192, 193, 256, 257, 384, 385, 512, 513, 768, 769, 1024],
      CopyReady (copyState d) d := fun d hd => copyState_ready d (by revert d; decide)
theorem witness_DistanceSymbols20To29 :
    ∀ d ∈ [1025, 1536, 1537, 2048, 2049, 3072, 3073, 4096, 4097, 6144, 6145, 8192, 8193, 12288, 12289, 16384, 16385,
      24576, 24577, 32768], CopyReady (copyState d) d := fun d hd => copyState_ready d (by revert d; decide)
theorem witness_UndefinedSymbolsRaiseLogicError :
    BitsAt [0x63] 0 (bitsMsb 8 0b11000110) ∧ BitsAt [0xE3] 0 (bitsMsb 8 0b11000111) ∧
      BitsAt [0x0F] 0 (bitsMsb 5 0b11110) ∧ BitsAt [0xF8] 3 (bitsMsb 5 0b11111) := by
  unfold BitsAt
  decide +kernel
/-- V43.14, V43.15. -/
theorem witness_DistanceBeyondOutputIsInvalid :
    Instr.dist2.shape = .coded .dist 2 0 0 ∧ 2 < rowBase distTab 2 + 0 ∧ Instr.dist1.shape = .coded .dist 1 0 0 ∧
      rowBase distTab 1 + 0 ≤ 2 ∧ (withOut (stateAt .symbol []) [65, 66]).outLen = 2 ∧
      (stateAt .symbol []).err ≠ .invalidBlock ∧
      ∃ t, exec .dist1 { withOut (stateAt .symbol []) [65, 66] with mlen := 3 } = .next t ∧ (t.outLen == 5) = true :=
  ⟨rfl, by decide, rfl, by decide, rfl, by decide, exists_next (by decide +kernel)⟩
/-- V44.1, V44.4: an overlapping copy and a block copy, up to the limit. -/
theorem witness_CopyIsPeriodic :
    1 ≤ 1 ∧ 1 ≤ (withOut (stateAt .symbol []) [65]).outLen ∧
      (withOut (stateAt .symbol []) [65]).overLimit 15 = false ∧
      (∀ a, a < 1 → (Memory.read (withOut (stateAt .symbol []) [65]).outMem a).isSome = true) ∧ 3 ≤ 4 := by decide
theorem witness_TrailerVerifiesTheChecksum :
    [0x68, 0x65, 0x6C, 0x6C, (0x6F : Byte)].length =
        (withOut (stateAt .trailer []) [0x68, 0x65, 0x6C, 0x6C, 0x6F]).outLen ∧
      (∀ a, a < 5 → Memory.read (withOut (stateAt .trailer []) [0x68, 0x65, 0x6C, 0x6C, 0x6F]).outMem a =
        [0x68, 0x65, 0x6C, 0x6C, 0x6F][a]?) ∧
      (0x062C0215 : Word) = adler [0x68, 0x65, 0x6C, 0x6C, 0x6F] ∧
      (0x062C0216 : Word) ≠ adler [0x68, 0x65, 0x6C, 0x6C, 0x6F] := by decide +kernel
/-- L1.4, shortened: bit 0 of the first byte and bit 7 of the last byte of `the`. -/
theorem witness_SingleBitErrorsAreDetected :
    [0x75, 0x68, (0x65 : Byte)] = [0x74, 0x68, 0x65].set 0 ([0x74, 0x68, 0x65].getD 0 0 ^^^ BitVec.twoPow 8 0) ∧
      [0x74, 0x68, (0xE5 : Byte)] = [0x74, 0x68, 0x65].set 2 ([0x74, 0x68, 0x65].getD 2 0 ^^^ BitVec.twoPow 8 7) ∧
      (withOut (stateAt .trailer []) [0x75, 0x68, 0x65]).outLen = 3 ∧
      ∀ a, a < 3 → Memory.read (withOut (stateAt .trailer []) [0x75, 0x68, 0x65]).outMem a = [0x75, 0x68, 0x65][a]? := by
  decide +kernel
theorem witness_StepRunsTheDecodedInstruction :
    ((stateAt .env [0x78, 0x9C]).select = .ctx .env ∧
      decode .env (stateAt .env [0x78, 0x9C]).bitOffset (stateAt .env [0x78, 0x9C]).window = .instr (.env 0x78 0x9C) 16) ∧
      (∃ t, fetchExec (stateAt .env [0x78, 0x9C]) = .next t ∧ (!t.distNext) = true) ∧
      (∃ t, fetchExec (stateAt .symbol [0x08, 0x00]) = .next t ∧ t.distNext = true) ∧
      fetchExec { stateAt .env [] with endOffset := 2 } = .fault .inputUnwritten :=
  ⟨by decide +kernel, exists_next (by decide +kernel), exists_next (by decide +kernel), rfl⟩
theorem witness_ClassIsSelectedByState :
    (stateAt .env []).fsm = .env ∧ (stateAt .blkHdr []).fsm = .blkHdr ∧ (stateAt .stored []).fsm = .stored ∧
      (stateAt .dynHdr []).fsm = .dynHdr ∧ (stateAt .dynLens []).clTab = some oneSymbol ∧
      (stateAt .symbol []).litTab = some Table.fixedLit ∧ (stateAt .symbol []).distNext = false ∧
      (copyState 1).distTab = some Table.fixedDist ∧ (copyState 1).distNext = true ∧ (copyState 1).fsm = .symbol ∧
      (stateAt .trailer []).fsm = .trailer ∧ (stateAt .idle []).fsm = .idle :=
  ⟨rfl, rfl, rfl, rfl, rfl, rfl, rfl, rfl, rfl, rfl, rfl, rfl⟩
theorem witness_FailedFetchRaises :
    ((stateAt .env [0x78]).select = .ctx .env ∧ (stateAt .env [0x78]).InputWritten ∧
      decode .env (stateAt .env [0x78]).bitOffset (stateAt .env [0x78]).window = .stop .truncated .nothing 0) ∧
      (stateAt .dynLens [0x01]).select = .ctx (.clSym oneSymbol true) ∧ (stateAt .dynLens [0x01]).InputWritten ∧
      decode (.clSym oneSymbol true) (stateAt .dynLens [0x01]).bitOffset (stateAt .dynLens [0x01]).window =
        .stop .noMatchingCode .nothing 1 :=
  ⟨⟨rfl, stateAt_input _ _, by decide +kernel⟩, rfl, stateAt_input _ _, by decide +kernel⟩
/-- 43_block_decoder.md R230: LEN_258 takes seven of eight bits, and its distance code is cut. -/
theorem witness_FailedFetchRaises_distance :
    ∃ s, fetchExec (stateAt .symbol [0x20]) = .next s ∧ s.distNext = true ∧
      s.select = .ctx (.dist Table.fixedDist) ∧ s.InputWritten ∧
      decode (.dist Table.fixedDist) s.bitOffset s.window = .stop .truncated .nothing 8 :=
  ⟨{ stateAt .symbol [0x20] with pc := 7, mlen := 4, distNext := true }, eq_next (by decide +kernel), rfl, rfl,
    stateAt_input .symbol [0x20], by decide +kernel⟩
/-- L1.6, with a length that fills the output limit. -/
theorem witness_BackReferenceIsOneStep (s u : State) (hs : s = withOut (stateAt .symbol [0x20, 0x00]) [65])
    (hu : u = { s with pc := 8 * (s.pc / 8) + 7 }) :
    s.select = .ctx (.litLen Table.fixedLit) ∧
      decode (.litLen Table.fixedLit) s.bitOffset s.window = .instr .len258 7 ∧ SetsLength .len258 4 ∧
      s.distTab = some Table.fixedDist ∧
      decode (.dist Table.fixedDist) u.bitOffset u.window = .instr .dist0 12 ∧ CopiesBack .dist0 1 ∧
      1 ≤ s.outLen ∧ s.overLimit 4 = false ∧
      ∀ a, a < s.outLen → (Memory.read s.outMem a).isSome = true := by
  subst hs hu
  exact ⟨rfl, by decide +kernel, fun _ => rfl, rfl, by decide +kernel,
    copiesBack_of_distance (i := .dist0) (v := 0) (w := 0) (y := 0) rfl (by omega), by decide, by decide, by decide⟩
theorem witness_ErrorIsSticky :
    (stateAt .error []).fsm = .error ∧ (1 : Word).getLsbD 0 = true ∧
      ∃ t, hostStep (.write 0x08 32 5) (stateAt .error []) = .next t ∧ (t.inLen == 5) = true :=
  ⟨rfl, by decide, exists_next (by decide +kernel)⟩
theorem witness_StepKeepsTheInvariant :
    StepsTo .symbol [0x0C, 0x00] (fun t => t.fsm == .symbol && t.outLen == 1 && t.pc == 8) := stepsTo (by decide +kernel)
theorem witness_HostKeepsTheInvariant :
    (stateAt .idle []).Inv ∧ ∃ t, hostStep (.writeIn 0 0x78) (stateAt .idle []) = .next t ∧
      (Memory.read t.inMem 0 == some 0x78) = true :=
  ⟨stateAt_inv _ _, exists_next (by decide +kernel)⟩
theorem witness_WrittenInputNeverFaults : (stateAt .stored [0x00]).Inv ∧ (stateAt .stored [0x00]).InputWritten :=
  ⟨stateAt_inv _ _, stateAt_input _ _⟩
/-- One step that goes on, and the bits it consumes, from each control state that has one. -/
theorem witness_EveryStepConsumesBits :
    StepsTo .env [0x78, 0x9C] (fun t => t.busy && t.pc == 16) ∧ StepsTo .blkHdr [0x03] (fun t => t.busy && t.pc == 3) ∧
      StepsTo .stored [0x00, 0x00, 0xFF, 0xFF] (fun t => t.busy && t.pc == 32) ∧
      StepsTo .dynHdr [0x00, 0x00, 0x00, 0x00] (fun t => t.busy && t.pc == 26) ∧
      StepsTo .dynLens [0x00] (fun t => t.busy && t.pc == 1) ∧ StepsTo .symbol [0x00] (fun t => t.busy && t.pc == 7) :=
  ⟨stepsTo (by decide +kernel), stepsTo (by decide +kernel), stepsTo (by decide +kernel), stepsTo (by decide +kernel),
    stepsTo (by decide +kernel), stepsTo (by decide +kernel)⟩
theorem witness_RunEndsWithinItsBound :
    (stateAt .trailer [0, 0, 0, 1]).Inv ∧ (stateAt .trailer [0, 0, 0, 1]).InputWritten ∧
      (stateAt .trailer [0, 0, 0, 1]).busy = true := ⟨stateAt_inv _ _, stateAt_input _ _, rfl⟩
theorem witness_StepLeavesInputAndPastOutput : ∃ t, step (copyState 1) = .next t ∧ (t.fsm == .error) = true :=
  exists_next (by decide +kernel)
theorem witness_ControlStateTransitions :
    StepsTo .env [0x78, 0x9C] (fun t => t.fsm == .blkHdr) ∧ StepsTo .blkHdr [0x05] (fun t => t.fsm == .dynHdr) ∧
      StepsTo .stored [0x00, 0x00, 0xFF, 0xFF] (fun t => t.fsm == .blkHdr) ∧
      StepsTo .dynHdr [0x00, 0x00, 0x00, 0x00] (fun t => t.fsm == .dynLens) ∧
      StepsTo .dynLens [0x00] (fun t => t.fsm == .dynLens) ∧ StepsTo .symbol [0x00] (fun t => t.fsm == .blkHdr) ∧
      StepsTo .trailer [0, 0, 0, 1] (fun t => t.fsm == .done) ∧ StepsTo .error [] (fun t => t.fsm == .error) :=
  ⟨stepsTo (by decide +kernel), stepsTo (by decide +kernel), stepsTo (by decide +kernel), stepsTo (by decide +kernel),
    stepsTo (by decide +kernel), stepsTo (by decide +kernel), stepsTo (by decide +kernel), stepsTo (by decide +kernel)⟩
/-- L2.8: one vector for each error kind. -/
theorem witness_ErrorKindsHaveTheirCauses :
    StepsTo .env [0x78, 0xFF] (fun t => t.err == .badEnvelope) ∧
      StepsTo .env [0x79, 0x18] (fun t => t.err == .unsupportedMethod) ∧
      StepsTo .env [0x78, 0xBB] (fun t => t.err == .unsupportedFeature) ∧
      StepsTo .dynHdr [0x00, 0x40, 0x12, 0x00] (fun t => t.err == .invalidTable) ∧
      StepsTo .dynLens [0x01] (fun t => t.err == .noMatchingCode) ∧
      StepsTo .blkHdr [0x07] (fun t => t.err == .invalidBlock) ∧
      StepsTo .trailer [0, 0, 0, 2] (fun t => t.err == .checksumMismatch) ∧
      StepsTo .stored ([17, 0, 0xEE, 0xFF] ++ List.replicate 17 0) (fun t => t.err == .outOfMemory) ∧
      StepsTo .symbol [0x63] (fun t => t.err == .logicError) :=
  ⟨stepsTo (by decide +kernel), stepsTo (by decide +kernel), stepsTo (by decide +kernel), stepsTo (by decide +kernel),
    stepsTo (by decide +kernel), stepsTo (by decide +kernel), stepsTo (by decide +kernel), stepsTo (by decide +kernel),
    stepsTo (by decide +kernel)⟩
theorem witness_MatchSpellsEveryBackReference :
    3 ≤ 3 ∧ 258 ≤ 258 ∧ 1 ≤ 1 ∧ 32768 ≤ 32768 ∧ SetsLength (.len284 30) 257 ∧ 257 < 258 :=
  ⟨by decide, by decide, by decide, by decide, fun _ => rfl, by decide⟩

end Sys2Proof.Tests
end

/-! ### The invariant by control state

Outside `symbol` and `dynLens` no slot holds a table, inside they hold the block's. Each family of control states has one
lemma that meets the invariant from what a run keeps everywhere (`Run`) and its own tables. -/

namespace Sys2Proof.Machine

/-- The clauses of the invariant that a run without an error keeps in every control state. -/
structure Run (s : State) : Prop where
  base : Base s
  endIsLen : s.endOffset = s.inLen.toNat
  outBounded : ∀ n, s.limit = some n → s.outLen ≤ n
  noError : s.err = .none

/-- No slot holds a table. -/
structure NoTables (s : State) : Prop where
  lit : s.litTab = none
  dist : s.distTab = none
  cl : s.clTab = none

/-- The slots hold the tables of a block's symbols (10_state.md R35). -/
structure SymbolTables (s : State) : Prop where
  lit : ∃ t, s.litTab = some t ∧ t.BuiltFrom 288
  dist : ∃ t, s.distTab = some t ∧ t.BuiltFrom 32
  cl : s.clTab = none

/-- Only the code-length table is there, and the announced sizes are in range (42_dynamic_table.md R191). -/
structure LensTables (s : State) : Prop where
  lit : s.litTab = none
  dist : s.distTab = none
  cl : ∃ t, s.clTab = some t ∧ t.BuiltFrom 19
  sizes : 257 ≤ s.hlit.toNat ∧ s.hlit.toNat ≤ 288 ∧ 1 ≤ s.hdist.toNat ∧ s.hdist.toNat ≤ 32

theorem busy_of_fsm {s : State} {f : Fsm} (hf : s.fsm = f) (hb : f.busy = true) : s.busy = true := by
  rw [State.busy, hf, hb]

theorem State.Inv.run {s : State} (h : s.Inv) (hb : s.busy = true) : Run s where
  base := h.base
  endIsLen := h.endIsLen hb
  outBounded := h.outBounded hb
  noError := h.errIff.2 fun he => by simp [State.busy, he, Fsm.busy] at hb

theorem State.Inv.distNext_false {s : State} (h : s.Inv) (hf : s.fsm ≠ .symbol) : s.distNext = false :=
  eq_false_of_ne_true fun hd => hf (h.midElement hd).1

/-- Which slots are absent, read off the invariant. -/
theorem State.Inv.slot_none_iff {s : State} (h : s.Inv) :
    (s.litTab = none ↔ s.fsm ≠ .symbol) ∧ (s.distTab = none ↔ s.fsm ≠ .symbol) ∧
      (s.clTab = none ↔ s.fsm ≠ .dynLens) := by
  obtain ⟨hlit, hdist, hcl⟩ := h.slots_iff
  refine ⟨?_, ?_, ?_⟩ <;> simp only [← Option.not_isSome_iff_eq_none, hlit, hdist, hcl, beq_iff_eq, ne_eq]

theorem State.Inv.noTables {s : State} (h : s.Inv) (hs : s.fsm ≠ .symbol) (hl : s.fsm ≠ .dynLens) : NoTables s := by
  obtain ⟨hlit, hdist, hcl⟩ := h.slot_none_iff
  exact ⟨hlit.2 hs, hdist.2 hs, hcl.2 hl⟩

theorem State.Inv.symbolTables {s : State} (h : s.Inv) (hf : s.fsm = .symbol) : SymbolTables s := by
  obtain ⟨hlit, hdist, hcl⟩ := h.slot_none_iff
  obtain ⟨lit, hl⟩ := Option.ne_none_iff_exists'.1 fun hn => hlit.1 hn hf
  obtain ⟨dist, hd⟩ := Option.ne_none_iff_exists'.1 fun hn => hdist.1 hn hf
  exact ⟨⟨lit, hl, h.litBuilt _ hl⟩, ⟨dist, hd, h.distBuilt _ hd⟩, hcl.2 (by simp [hf])⟩

theorem State.Inv.lensTables {s : State} (h : s.Inv) (hf : s.fsm = .dynLens) : LensTables s ∧ s.n < s.lensTotal := by
  obtain ⟨hlit, hdist, hcl⟩ := h.slot_none_iff
  obtain ⟨t, ht⟩ := Option.ne_none_iff_exists'.1 fun hn => hcl.1 hn hf
  obtain ⟨h1, h2, h3, h4, h5⟩ := h.lensOpen hf
  exact ⟨⟨hlit.2 (by simp [hf]), hdist.2 (by simp [hf]), ⟨t, ht, h.clBuilt _ ht⟩, ⟨h1, h2, h3, h4⟩⟩, h5⟩

/-- Where no table is needed, what the invariant says of a run (10_state.md R35, 70_reset_and_hazards.md R410). -/
theorem State.Inv.outsideSymbols {s : State} {f : Fsm} (h : s.Inv) (hf : s.fsm = f)
    (hb : f.busy = true ∧ f ≠ .symbol ∧ f ≠ .dynLens) : Run s ∧ NoTables s ∧ s.distNext = false := by
  obtain ⟨hb, hs, hl⟩ := hf ▸ hb
  exact ⟨h.run hb, h.noTables hs hl, h.distNext_false hs⟩

/-- The invariant from a run and what depends on the control state. -/
theorem Run.inv {s : State} (h : Run s) (hf : s.fsm ≠ .error) (hslots : s.slotsOk = true)
    (hlit : ∀ t, s.litTab = some t → t.BuiltFrom 288) (hdist : ∀ t, s.distTab = some t → t.BuiltFrom 32)
    (hcl : ∀ t, s.clTab = some t → t.BuiltFrom 19)
    (hopen : s.fsm = .dynLens → LensTables s ∧ s.n < s.lensTotal)
    (hmid : s.distNext = true → s.fsm = .symbol ∧ 3 ≤ s.mlen.toNat ∧ s.mlen.toNat ≤ 258) : s.Inv where
  inWf := h.base.inWf
  outWf := h.base.outWf
  cursor := h.base.cursor
  endIsLen _ := h.endIsLen
  outWritten := h.base.outWritten
  outBounded _ := h.outBounded
  slots := hslots
  litBuilt := hlit
  distBuilt := hdist
  clBuilt := hcl
  lensOpen hd :=
    let ⟨ht, hn⟩ := hopen hd
    let ⟨h1, h2, h3, h4⟩ := ht.sizes
    ⟨h1, h2, h3, h4, hn⟩
  clLenSize := h.base.clLenSize
  errIff := ⟨fun _ => hf, fun _ => h.noError⟩
  sums := h.base.sums
  midElement := hmid

/-- The invariant in a control state that needs no table. -/
theorem Run.inv_of_noTables {s : State} (h : Run s) (ht : NoTables s) (hd : s.distNext = false)
    (hf : s.fsm ≠ .symbol ∧ s.fsm ≠ .dynLens ∧ s.fsm ≠ .error) : s.Inv := by
  obtain ⟨hs, hl, he⟩ := hf
  obtain ⟨hlit, hdist, hcl⟩ := ht
  refine h.inv he ?_ ?_ ?_ ?_ (fun hd => absurd hd hl) ?_ <;> simp_all [State.slotsOk]

/-- The invariant between the symbols of a block, or inside a back-reference. -/
theorem Run.inv_of_symbol {s : State} (h : Run s) (ht : SymbolTables s) (hf : s.fsm = .symbol)
    (hm : s.distNext = true → 3 ≤ s.mlen.toNat ∧ s.mlen.toNat ≤ 258) : s.Inv := by
  obtain ⟨⟨lit, hl, hlb⟩, ⟨dist, hd, hdb⟩, hc⟩ := ht
  refine h.inv ?_ ?_ ?_ ?_ ?_ ?_ fun hn => ⟨hf, hm hn⟩ <;> simp_all [State.slotsOk]

/-- The invariant during the code-length sequence, which is not full (42_dynamic_table.md R194). -/
theorem Run.inv_of_lensTables {s : State} (h : Run s) (ht : LensTables s) (hn : s.n < s.lensTotal)
    (hf : s.fsm = .dynLens) (hd : s.distNext = false) : s.Inv := by
  obtain ⟨hlit, hdist, ⟨t, hc, hb⟩, -⟩ := id ht
  refine h.inv ?_ ?_ ?_ ?_ ?_ (fun _ => ⟨ht, hn⟩) ?_ <;> simp_all [State.slotsOk]

end Sys2Proof.Machine

/-! ### Where each element leads

For each context, what its instruction leaves: the invariant, and a control state that R40 lists as entered from there. -/

namespace Sys2Proof

/-- The control states that an instruction of a context may lead to (10_state.md R40). -/
def Ctx.succs : Ctx → List Machine.Fsm
  | .env => [.blkHdr, .error]
  | .blkHdr => [.stored, .dynHdr, .symbol, .error]
  | .stored => [.blkHdr, .trailer, .error]
  | .dynHdr => [.dynLens, .error]
  | .clSym _ _ => [.dynLens, .symbol, .error]
  | .litLen _ => [.symbol, .blkHdr, .trailer, .error]
  | .dist _ => [.symbol, .error]
  | .trailer => [.done, .error]

theorem Ctx.error_mem_succs (c : Ctx) : .error ∈ c.succs := by cases c <;> simp [Ctx.succs]

/-- A table that `build` makes from the values of registers of at most 4 bits. -/
theorem builtFrom_of_registers {w k : Nat} {lens : List (BitVec w)} {t : Table} (hw : w ≤ 4) (hk : lens.length ≤ k)
    (h : Table.build (lens.map BitVec.toNat) = some t) : t.BuiltFrom k := by
  refine ⟨_, by simpa using hk, fun l hl => ?_, h⟩
  obtain ⟨x, -, rfl⟩ := List.mem_map.1 hl
  have hx : x.toNat < 2 ^ 4 := x.isLt.trans_le (Nat.pow_le_pow_right (by omega) hw)
  omega

namespace Machine

/-- `t` meets the invariant, in a control state that an instruction of context `c` may lead to. -/
def Lands (c : Ctx) (t : State) : Prop := t.Inv ∧ t.fsm ∈ c.succs

/-- An error may be raised in every context. -/
theorem raise_lands (c : Ctx) {s : State} {e : ErrKind} (h : Base s) (he : e ≠ .none) : Lands c (s.raise e) :=
  ⟨raise_inv he h, c.error_mem_succs⟩

/-- After the end of a block (43_block_decoder.md R239) no slot holds a table. -/
theorem endOfBlock_inv {s : State} (h : Run s) (hc : s.clTab = none) (hd : s.distNext = false) : s.endOfBlock.Inv := by
  refine Run.inv_of_noTables { h with base := { h.base with } } ⟨rfl, rfl, hc⟩ hd ?_
  cases hb : s.bfinal <;> simp [hb]

theorem endOfBlock_fsm_cases (s : State) : s.endOfBlock.fsm = .blkHdr ∨ s.endOfBlock.fsm = .trailer := by
  cases hb : s.bfinal <;> simp [hb]

theorem execEnv_lands {cmf flg : Byte} {s t : State} (hi : s.Inv) (hf : s.fsm = .env)
    (h : execEnv cmf flg s = .next t) : Lands .env t := by
  obtain ⟨hr, ⟨hlit, hdist, hcl⟩, hd⟩ := hi.outsideSymbols hf (by decide)
  rcases execEnv_cases cmf flg s with he | ⟨e, hk, he⟩ <;> cases he.symm.trans h
  · exact ⟨Run.inv_of_noTables { hr with base := { hr.base with } } ⟨hlit, hdist, hcl⟩ hd (by simp), by simp [Ctx.succs]⟩
  · exact raise_lands _ hr.base (by rcases hk with rfl | rfl | rfl <;> simp)

theorem blkInstr_cases (btype : BitVec 2) (f : Bool) :
    blkInstr btype f = .blkStored f ∨ blkInstr btype f = .blkFixed f ∨ blkInstr btype f = .blkDynamic f ∨
      blkInstr btype f = .blkReserved f := by
  unfold blkInstr
  repeat' split
  all_goals simp

theorem execBlk_lands {btype : BitVec 2} {f : Bool} {s t : State} (hi : s.Inv) (hf : s.fsm = .blkHdr)
    (h : exec (blkInstr btype f) s = .next t) : Lands .blkHdr t := by
  obtain ⟨hr, ⟨hlit, hdist, hcl⟩, hd⟩ := hi.outsideSymbols hf (by decide)
  rcases blkInstr_cases btype f with he | he | he | he <;> rw [he] at h <;> cases h
  · exact ⟨Run.inv_of_noTables { hr with base := { hr.base with } } ⟨hlit, hdist, hcl⟩ hd (by simp), by simp [Ctx.succs]⟩
  · exact ⟨Run.inv_of_symbol { hr with base := { hr.base with } }
      ⟨⟨_, rfl, fixedLit_built⟩, ⟨_, rfl, fixedDist_built⟩, hcl⟩ rfl (by simp [hd]), by simp [Ctx.succs]⟩
  · exact ⟨Run.inv_of_noTables { hr with base := { hr.base with } } ⟨hlit, hdist, hcl⟩ hd (by simp), by simp [Ctx.succs]⟩
  · exact raise_lands _ { hr.base with } (by simp)

/-- The stored copy starts at a byte boundary, so it ends inside the input (43_block_decoder.md R227, R229). -/
theorem execStored_lands {len nlen : BitVec 16} {s t : State} (hi : s.Inv) (hf : s.fsm = .stored) (ha : s.pc % 8 = 0)
    (h : execStored len nlen s = .next t) : Lands .stored t := by
  obtain ⟨hr, ⟨-, -, hcl⟩, hd⟩ := hi.outsideSymbols hf (by decide)
  rcases execStored_eq_next h with ⟨e, hk, rfl⟩ | ⟨m, rfl, hle, hlim, -, hw, hwf⟩
  · exact raise_lands _ { hr.base with } (by rcases hk with rfl | rfl | rfl <;> simp)
  · have hcur : s.pc + 8 * len.toNat ≤ 8 * s.endOffset := by
      have := hi.cursor
      simp only [State.remainingBytes, State.byteOffset] at hle
      omega
    refine ⟨endOfBlock_inv { hr with
      base := { hr.base with outWf := hwf hr.base.outWf, cursor := hcur, outWritten := hw hr.base.outWritten }
      outBounded := overLimit_eq_false_iff.1 hlim } hcl hd, ?_⟩
    rcases endOfBlock_fsm_cases _ with he | he <;> rw [he] <;> simp [Ctx.succs]

theorem execDynHdr_lands {x y : BitVec 5} {z : BitVec 4} {ls : List (BitVec 3)} {s t : State} (hi : s.Inv)
    (hf : s.fsm = .dynHdr) (h : execDynHdr x y z ls s = .next t) : Lands .dynHdr t := by
  obtain ⟨hr, ⟨hlit, hdist, -⟩, hd⟩ := hi.outsideSymbols hf (by decide)
  have hb : Base (s.setDynHdr x y z ls) := { hr.base with clLenSize := length_clLenOf ls }
  rcases execDynHdr_cases x y z ls s with he | ⟨cl, hcl, he⟩ <;> cases he.symm.trans h
  · exact raise_lands _ hb (by simp)
  · have hx := toNat_hlitOf x
    have hy := toNat_hdistOf y
    have hclb := builtFrom_of_registers (by omega) (length_clLenOf ls).le hcl
    refine ⟨Run.inv_of_lensTables { hr with base := { hb with } }
      ⟨hlit, hdist, ⟨cl, rfl, hclb⟩, ?_⟩ ?_ rfl hd, by simp [Ctx.succs]⟩
    · simp only [setDynHdr_hlit, setDynHdr_hdist]
      omega
    · simp only [State.n, State.lensTotal, setDynHdr_hlit, setDynHdr_hdist, List.length_nil]
      omega

/-- The end of a code-length symbol that has not overfilled the sequence (42_dynamic_table.md R194, R201). -/
theorem lensFilled_lands (cl : Table) (first : Bool) {s : State} (hr : Run s) (ht : LensTables s)
    (hd : s.distNext = false) (hn : s.n ≤ s.lensTotal) : Lands (.clSym cl first) s.lensFilled := by
  obtain ⟨-, hlit, -, hdist⟩ := ht.sizes
  rcases lensFilled_cases s with ⟨hne, he⟩ | he | ⟨lit, dist, hfull, hbl, hbd, he⟩ <;> rw [he]
  · have hopen : s.n < s.lensTotal := by omega
    exact ⟨Run.inv_of_lensTables { hr with base := { hr.base with } } { ht with } hopen rfl hd, by simp [Ctx.succs]⟩
  · exact raise_lands _ hr.base (by simp)
  · rw [← List.map_take] at hbl
    rw [← List.map_drop] at hbd
    have hl := builtFrom_of_registers (k := 288) le_rfl (by rw [List.length_take]; omega) hbl
    have hd' := builtFrom_of_registers (k := 32) le_rfl
      (by rw [List.length_drop]; simp only [State.n, State.lensTotal] at hfull; omega) hbd
    exact ⟨Run.inv_of_symbol { hr with base := { hr.base with } } ⟨⟨lit, rfl, hl⟩, ⟨dist, rfl, hd'⟩, rfl⟩ rfl
      (by simp [hd]), by simp [Ctx.succs]⟩

theorem execCl_lands {i : Instr} {v w x : Nat} (hs : i.shape = .coded .cl v w x) {s t : State} (hi : s.Inv)
    (hf : s.fsm = .dynLens) (h : exec i s = .next t) (cl : Table) (first : Bool) : Lands (.clSym cl first) t := by
  have hr := hi.run (busy_of_fsm hf rfl)
  have hd := hi.distNext_false (by simp [hf])
  obtain ⟨ht, hopen⟩ := hi.lensTables hf
  rcases cl_cases_exec hs s with he | ⟨r, l, -, he, hn⟩ <;> cases he.symm.trans h
  · exact raise_lands _ hr.base (by simp)
  · refine lensFilled_lands cl first { hr with base := { hr.base with } } { ht with } hd ?_
    have := hn hopen
    simpa [State.n, State.lensTotal] using this

theorem execLitLen_lands {i : Instr} {v w x : Nat} (hs : i.shape = .coded .litLen v w x) {s t : State} (hi : s.Inv)
    (hf : s.fsm = .symbol) (hd : s.distNext = false) (h : exec i s = .next t) (lit : Table) : Lands (.litLen lit) t := by
  have hr := hi.run (busy_of_fsm hf rfl)
  have ht := hi.symbolTables hf
  rcases litLen_cases hs with ⟨b, rfl⟩ | rfl | ⟨h1, h2⟩ | hu
  · have hsteady := exec_steady h
    rcases execLit_eq_next h with rfl | ⟨rfl, hlim⟩
    · exact raise_lands _ hr.base (by simp)
    · exact ⟨Run.inv_of_symbol { hr with
        base := { hr.base with outWf := hsteady.outWf hr.base.outWf, outWritten := hsteady.outWritten hr.base.outWritten }
        outBounded := overLimit_eq_false_iff.1 hlim } { ht with } rfl (by simp [hd]), by simp [Ctx.succs]⟩
  · cases h
    refine ⟨endOfBlock_inv hr ht.cl hd, ?_⟩
    rcases endOfBlock_fsm_cases s with he | he <;> rw [he] <;> simp [Ctx.succs]
  · have hrange := length_range hs h1 h2
    cases (exec_of_length hs h1 h2 s).symm.trans h
    refine ⟨Run.inv_of_symbol { hr with base := { hr.base with } } { ht with } hf fun _ => ?_, by simp [hf, Ctx.succs]⟩
    simp only [BitVec.toNat_ofNat]
    omega
  · cases (exec_of_undefined (.inl ⟨hs, hu⟩) s).symm.trans h
    exact raise_lands _ hr.base (by simp)

theorem execDist_lands {i : Instr} {v w y : Nat} (hs : i.shape = .coded .dist v w y) {s t : State} (hi : s.Inv)
    (hf : s.fsm = .symbol) (h : exec i s = .next t) (dist : Table) : Lands (.dist dist) t := by
  have hr := hi.run (busy_of_fsm hf rfl)
  have ht := hi.symbolTables hf
  by_cases hv : v < 30
  · rcases distanceSymbol_eq_next ((exec_of_distance hs hv s).symm.trans h) with ⟨e, hk, rfl⟩ | ⟨m, rfl, hlim, -, hw, hwf⟩
    · exact raise_lands _ { hr.base with } (by rcases hk with rfl | rfl <;> simp)
    · exact ⟨Run.inv_of_symbol { hr with
        base := { hr.base with outWf := hwf hr.base.outWf, outWritten := hw hr.base.outWritten }
        outBounded := overLimit_eq_false_iff.1 hlim } { ht with } rfl (by simp), by simp [Ctx.succs]⟩
  · cases (exec_of_undefined (.inr ⟨hs, by omega⟩) s).symm.trans h
    exact raise_lands _ hr.base (by simp)

theorem execTrailer_lands {v : Word} {s t : State} (hi : s.Inv) (hf : s.fsm = .trailer)
    (h : execTrailer v s = .next t) : Lands .trailer t := by
  obtain ⟨hr, ⟨hlit, hdist, hcl⟩, hd⟩ := hi.outsideSymbols hf (by decide)
  obtain ⟨bs, -, ht⟩ := execTrailer_eq_next h
  have hsums : (BitVec.ofNat 16 (adlerSums bs).1).toNat < 65521 ∧ (BitVec.ofNat 16 (adlerSums bs).2).toNat < 65521 := by
    have := adlerSums_lt bs
    simp only [BitVec.toNat_ofNat]
    omega
  rcases ht with rfl | rfl
  · exact ⟨Run.inv_of_noTables { hr with base := { hr.base with sums := hsums } } ⟨hlit, hdist, hcl⟩ hd (by simp),
      by simp [Ctx.succs]⟩
  · exact raise_lands _ { hr.base with sums := hsums } (by simp)

end Machine

end Sys2Proof

/-! ### One fetch, one step -/

namespace Sys2Proof.Machine

/-- After the header of a stored block the cursor is at a byte boundary (43_block_decoder.md R226). -/
theorem seek_stored_aligned {s : State} {i : Instr} {pos : Nat} (h : decode .stored s.bitOffset s.window = .instr i pos) :
    (s.seek pos).pc % 8 = 0 := by
  obtain ⟨_, _, -, rfl, -⟩ := decodeStored_eq_instr h
  have := alignUp_mod s.bitOffset
  rw [seek_pc]
  omega

/-- Every instruction that a fetch selects lands. -/
theorem exec_lands {s t : State} {c : Ctx} {i : Instr} {pos : Nat} (hi : s.Inv) (hc : s.select = .ctx c)
    (hd : decode c s.bitOffset s.window = .instr i pos) (h : exec i (s.seek pos) = .next t) : Lands c t := by
  have hi' : (s.seek pos).Inv := { hi with cursor := (seek_base hi hd).cursor }
  have hclass := decode_class hd
  have hsel := select_eq_ctx hc
  cases c with
  | env => obtain ⟨cmf, flg, rfl⟩ := hclass; exact execEnv_lands hi' hsel h
  | blkHdr => obtain ⟨f, btype, rfl⟩ := hclass; exact execBlk_lands hi' hsel h
  | stored => obtain ⟨len, nlen, rfl⟩ := hclass; exact execStored_lands hi' hsel (seek_stored_aligned hd) h
  | dynHdr => obtain ⟨x, y, z, ls, -, rfl⟩ := hclass; exact execDynHdr_lands hi' hsel h
  | clSym cl first => obtain ⟨v, w, x, hs⟩ := hclass; exact execCl_lands hs hi' hsel.1 h cl first
  | litLen lit => obtain ⟨v, w, x, hs⟩ := hclass; exact execLitLen_lands hs hi' hsel.1 hsel.2.1 h lit
  | dist dist => obtain ⟨v, w, y, hs⟩ := hclass; exact execDist_lands hs hi' hsel.1 h dist
  | trailer => obtain ⟨v, rfl⟩ := hclass; exact execTrailer_lands hi' hsel h

/-- The registers of the completed reads are none of the spaces, the cursor, the output or the accumulators. -/
theorem applyPart_base {s : State} (h : Base s) (p : Part) : Base (s.applyPart p) := by
  obtain ⟨_, _, _, _, _, _, _, he, hl⟩ := applyPart_fields s p
  rw [he]
  exact { h with clLenSize := hl h.clLenSize }

/-- A fetch that stops leaves the cursor inside the input. -/
theorem stopFetch_lands {s t : State} {c : Ctx} {w : Stop} {p : Part} {pos : Nat} (hi : s.Inv)
    (hd : decode c s.bitOffset s.window = .stop w p pos) (h : stopFetch w p pos s = .next t) : Lands c t := by
  have hin := decode_inside c s.bitOffset s.window
  rw [hd] at hin
  obtain ⟨-, hle, hne, -⟩ := hin
  have hpos : w = .truncated ∧ s.windowCut = false ∨ w ≠ .truncated → (s.seek pos).pc ≤ 8 * s.endOffset := by
    rintro (⟨-, hcut⟩ | hw)
    · exact seek_pc_le s hi.cursor (hle (bitOffset_le s hi.cursor hcut))
    · rcases hne hw with hpos | rfl
      · exact seek_pc_le s hi.cursor hpos
      · have := hi.cursor
        simp only [seek_pc, State.byteOffset, State.bitOffset]
        omega
  have lands : ∀ e : ErrKind, e ≠ .none → (s.seek pos).pc ≤ 8 * s.endOffset →
      Lands c (State.raise ((s.seek pos).applyPart p) e) := fun e he hcur =>
    raise_lands c (applyPart_base (s := s.seek pos) { hi.base with cursor := hcur } p) he
  rcases stopFetch_eq_next h with ⟨rfl, hcut, rfl⟩ | ⟨rfl, rfl⟩ | ⟨rfl, rfl⟩
  · exact lands _ (by simp) (hpos (.inl ⟨rfl, hcut⟩))
  · exact lands _ (by simp) (hpos (.inr (by simp)))
  · exact lands _ (by simp) (hpos (.inr (by simp)))

/-- Everything a fetch can lead to from a state that meets the invariant. -/
theorem fetchExec_lands {s t : State} (hi : s.Inv) (h : fetchExec s = .next t) :
    (s.select = .quiet ∧ t = s) ∨ ∃ c, s.select = .ctx c ∧ Lands c t := by
  rcases fetchExec_eq_next h with hq | ⟨c, i, pos, hc, hd, he⟩ | ⟨c, w, p, pos, hc, hd, he⟩
  · exact .inl hq
  · exact .inr ⟨c, hc, exec_lands hi hc hd he⟩
  · exact .inr ⟨c, hc, stopFetch_lands hi hd he⟩

theorem busy_of_select_quiet {s : State} (h : s.select = .quiet) : s.busy = false := by
  rcases select_cases s with ⟨-, hb⟩ | ⟨he, -⟩ | ⟨c, he, -⟩
  · exact hb
  · simp [h] at he
  · simp [h] at he

/-- The distance symbol of a back-reference leads back to the symbols, or to an error (10_state.md R40). -/
theorem fetchExec_of_distNext {s t : State} (hi : s.Inv) (hd : s.distNext = true) (h : fetchExec s = .next t) :
    t.Inv ∧ (t.fsm = .symbol ∨ t.fsm = .error) := by
  obtain ⟨hf, -, -⟩ := hi.midElement hd
  obtain ⟨-, ⟨dist, hdist, -⟩, -⟩ := hi.symbolTables hf
  have hs : s.select = .ctx (.dist dist) := by simp [State.select, hf, hd, hdist, Select.fromSlot]
  rcases fetchExec_lands hi h with ⟨hq, -⟩ | ⟨c, hc, ht, hm⟩
  · simp [hs] at hq
  · cases hs.symm.trans hc
    exact ⟨ht, by simpa [Ctx.succs] using hm⟩

/-- Everything a step can lead to from a state that meets the invariant: nothing where no step is taken, else what the
context selected first may lead to. -/
theorem step_lands {s t : State} (hi : s.Inv) (h : step s = .next t) :
    (s.busy = false ∧ t = s) ∨ ∃ c, s.select = .ctx c ∧ Lands c t := by
  obtain ⟨u, hu, hnext⟩ := step_eq_next h
  rcases fetchExec_lands hi hu with ⟨hq, rfl⟩ | ⟨c, hc, hui, huf⟩
  · have hb := busy_of_select_quiet hq
    rcases hnext with ⟨-, rfl⟩ | ⟨hd, -⟩
    · exact .inl ⟨hb, rfl⟩
    · simp [State.busy, (hi.midElement hd).1, Fsm.busy] at hb
  · rcases hnext with ⟨-, rfl⟩ | ⟨hd, hv⟩
    · exact .inr ⟨c, hc, hui, huf⟩
    · obtain ⟨hti, hs | he⟩ := fetchExec_of_distNext hui hd hv
      · exact .inr ⟨c, hc, hti, by rwa [hs, ← (hui.midElement hd).1]⟩
      · exact .inr ⟨c, hc, hti, he ▸ c.error_mem_succs⟩

/-- Settles O52: every element that is fetched lands in a state that meets the invariant. -/
theorem stepKeepsTheInvariant : Obligations.StepKeepsTheInvariant := by
  unfold Obligations.StepKeepsTheInvariant
  intro s t hi h
  rcases step_lands hi h with ⟨-, rfl⟩ | ⟨c, -, ht, -⟩
  · exact hi
  · exact ht

/-- Settles O58: the context that a control state selects bounds where its step leads. -/
theorem controlStateTransitions : Obligations.ControlStateTransitions := by
  unfold Obligations.ControlStateTransitions
  intro s t hi h
  rcases step_lands hi h with ⟨hb, rfl⟩ | ⟨c, hc, -, hm⟩
  · rw [State.busy] at hb
    cases hf : t.fsm <;> simp_all [Fsm.busy]
  · have hsel := select_eq_ctx hc
    cases c <;> simp_all [Ctx.succs]
    case inr.dist => tauto

end Sys2Proof.Machine

/-! ### The host's registers

What an aligned 32-bit access reaches, what each register reads and what writing it does. -/

namespace Sys2Proof.Machine

/-! Which offsets hold a register (10_state.md R45). -/

/-- Every register lies at a multiple of 4. -/
theorem hostRegAt_aligned {off : Nat} {r : HostReg} (h : hostRegAt off = some r) : wordAccess off 32 = true := by
  unfold hostRegAt at h
  split at h <;> first | rfl | cases h

theorem hostRegAt_none {off : Nat} (h : 0x20 ≤ off) : hostRegAt off = none := by
  unfold hostRegAt
  split <;> first | rfl | omega

theorem hostRegAt_some {off : Nat} (h : off < 0x20) (ha : off % 4 = 0) : ∃ r, hostRegAt off = some r := by
  obtain ⟨k, rfl⟩ : ∃ k, off = 4 * k := ⟨off / 4, by omega⟩
  have hk : k < 8 := by omega
  interval_cases k <;> exact ⟨_, rfl⟩

theorem hostRead_of_reg {off : Nat} {r : HostReg} (h : hostRegAt off = some r) (s : State) :
    hostRead off 32 s = .next (s.regRead r) := by
  simp only [hostRead, hostReadAt, hostRegAt_aligned h, h, if_true]

theorem hostWrite_of_reg {off : Nat} {r : HostReg} (h : hostRegAt off = some r) (v : Word) (s : State) :
    hostWrite off 32 v s = .next (s.regWrite r v) := by
  simp only [hostWrite, hostWriteAt, hostRegAt_aligned h, h, if_true]

/-- Everything a register-window read that goes on can do: a register is read, or nothing is there. -/
theorem hostRead_eq_next {off width : Nat} {s : State} {p : Word × State} (h : hostRead off width s = .next p) :
    (∃ r, p = s.regRead r) ∨ p = (0, s) := by
  unfold hostRead hostReadAt at h
  split at h
  · split at h
    · cases h; exact .inl ⟨_, rfl⟩
    · split at h <;> cases h
      exact .inr rfl
  · cases h

/-- Everything a register-window write that goes on can do. -/
theorem hostWrite_eq_next {off width : Nat} {v : Word} {s t : State} (h : hostWrite off width v s = .next t) :
    (∃ r, t = s.regWrite r v) ∨ t = s := by
  unfold hostWrite hostWriteAt at h
  split at h
  · split at h
    · cases h; exact .inl ⟨_, rfl⟩
    · split at h <;> cases h
      exact .inr rfl
  · cases h

/-! What a register reads. -/

theorem regRead_outLen (s : State) :
    s.regRead .outLen = if s.outLenMeans then (BitVec.ofNat 32 s.outLen, s) else s.takeFreeWord := rfl

theorem regRead_cursor (s : State) :
    s.regRead .cursor = if s.busy then s.takeFreeWord else (BitVec.ofNat 32 s.pc, s) := rfl

theorem regRead_adlerCalc (s : State) :
    s.regRead .adlerCalc = if s.adlerCalcMeans then (s.adlerCalc, s) else s.takeFreeWord := rfl

/-- Reading a register changes at most the counter of the free values. -/
theorem regRead_state (s : State) (r : HostReg) : ∃ k, (s.regRead r).2 = { s with freeReads := k } := by
  have same : ∃ k, s = { s with freeReads := k } := ⟨s.freeReads, rfl⟩
  have free : ∃ k, s.takeFreeWord.2 = { s with freeReads := k } := ⟨_, rfl⟩
  cases r with
  | ctrl | status | inLen | outLimit | adlerRead => exact same
  | outLen => rw [regRead_outLen]; split <;> assumption
  | cursor => rw [regRead_cursor]; split <;> assumption
  | adlerCalc => rw [regRead_adlerCalc]; split <;> assumption

theorem busy_iff {s : State} : s.busy = true ↔ s.fsm ≠ .idle ∧ s.fsm ≠ .done ∧ s.fsm ≠ .error := by
  rw [State.busy]
  cases s.fsm <;> simp [Fsm.busy]

/-- Where OUT_LEN is given a value (10_state.md R50, 70_reset_and_hazards.md R406). -/
theorem outLenMeans_iff {s : State} :
    s.outLenMeans = true ↔ (s.fsm = .idle ∨ s.fsm = .done) ∧ s.outLen < 2 ^ 32 := by
  rw [State.outLenMeans, State.busy, State.isError]
  cases s.fsm <;> simp [Fsm.busy]

/-- Where ADLER_CALC is given a value (10_state.md R52). -/
theorem adlerCalcMeans_iff {s : State} :
    s.adlerCalcMeans = true ↔ s.fsm = .idle ∨ s.fsm = .done ∨ s.fsm = .error ∧ s.err = .checksumMismatch := by
  rw [State.adlerCalcMeans, State.busy, State.isError]
  cases s.fsm <;> simp [Fsm.busy]

/-- The checksum word as a number (45_envelope_checksum.md R350). -/
theorem adlerWord_eq_ofNat (x y : BitVec 16) : adlerWord x y = BitVec.ofNat 32 (y.toNat * 2 ^ 16 + x.toNat) := by
  have hx := x.isLt
  have hy := y.isLt
  apply BitVec.eq_of_toNat_eq
  rw [adlerWord, BitVec.toNat_append, ← Nat.shiftLeft_add_eq_or_of_lt hx, Nat.shiftLeft_eq, BitVec.toNat_ofNat]
  omega

/-! What writing a register does. -/

/-- START, while no run is in progress, initialises one; any other write to CTRL has no effect (10_state.md R46). -/
theorem regWrite_ctrl (s : State) (v : Word) :
    s.regWrite .ctrl v = if v.getLsbD 0 && !s.busy then s.start else s := rfl

theorem regWrite_inLen (s : State) (v : Word) :
    s.regWrite .inLen v = if s.busy then s else { s with inLen := v } := rfl

theorem regWrite_outLimit (s : State) (v : Word) :
    s.regWrite .outLimit v = if s.busy then s else { s with outLimit := v } := rfl

/-- During a run no register write has an effect (70_reset_and_hazards.md R402, R405). -/
theorem regWrite_of_busy {s : State} (h : s.busy = true) (r : HostReg) (v : Word) : s.regWrite r v = s := by
  cases r with
  | ctrl => simp [regWrite_ctrl, h]
  | inLen => simp [regWrite_inLen, h]
  | outLimit => simp [regWrite_outLimit, h]
  | status | outLen | cursor | adlerCalc | adlerRead => rfl

/-! STATUS, bit by bit (10_state.md R47). -/

/-- A bit of STATUS, by the field it stands in. -/
theorem status_getLsbD (s : State) (k : Nat) :
    s.status.getLsbD k =
      if k = 0 then s.busy else if k = 1 then s.isDone else if k = 2 then s.isError
      else if k < 8 then false else s.errCode.getLsbD (k - 8) := by
  simp only [State.status, BitVec.getLsbD_append, BitVec.getLsbD_ofBool]
  rcases Nat.lt_or_ge k 12 with h | h
  · interval_cases k <;> simp
  · obtain ⟨j, rfl⟩ : ∃ j, k = j + 12 := ⟨k - 12, by omega⟩
    simp

/-! IN and OUT. -/

/-- Everything a host write to IN that goes on can do (70_reset_and_hazards.md R404, R405). -/
theorem hostWriteIn_eq_next {a : Nat} {b : Byte} {s t : State} (h : hostWriteIn a b s = .next t) :
    s.busy = false ∧ t = { s with inMem := Memory.write s.inMem a b } := by
  unfold hostWriteIn at h
  split at h
  · cases h
  · split at h
    · cases h
    · next hb => cases h; exact ⟨eq_false_of_ne_true hb, rfl⟩

/-- Everything a host write to OUT that goes on can do (70_reset_and_hazards.md R405; log 23). -/
theorem hostWriteOut_eq_next {a : Nat} {b : Byte} {s t : State} (h : hostWriteOut a b s = .next t) :
    s.busy = false ∧ t = { s with outMem := Memory.write s.outMem a b } := by
  unfold hostWriteOut at h
  split at h
  · cases h
  · split at h
    · cases h
    · next hb => cases h; exact ⟨eq_false_of_ne_true hb, rfl⟩

/-- A host read of OUT changes at most the counter of the free values. -/
theorem hostReadOut_state {a : Nat} {s : State} {p : Byte × State} (h : hostReadOut a s = .next p) :
    ∃ k, p.2 = { s with freeReads := k } := by
  unfold hostReadOut at h
  split at h
  · cases h
  · split at h
    · split at h <;> cases h
      exact ⟨s.freeReads, rfl⟩
    · cases h
      exact ⟨s.freeReads + 1, rfl⟩

theorem afterRead_eq_next {α : Type} {r : ReadResult α} {t : State} (h : afterRead r = .next t) :
    ∃ p, r = .next p ∧ t = p.2 := by
  cases r <;> cases h
  exact ⟨_, rfl, rfl⟩

/-! ### The host keeps the invariant -/

/-- Hardware reset leaves what a run keeps (70_reset_and_hazards.md R400). -/
theorem hardwareReset_run {s : State} (h : Memory.wf s.inMem) : Run (hardwareReset s) where
  base := ⟨h, nil_wf, Nat.zero_le _, fun _ ha => absurd ha (Nat.not_lt_zero _), rfl, by simp [hardwareReset, State.reset]⟩
  endIsLen := rfl
  outBounded _ _ := Nat.zero_le _
  noError := rfl

theorem hardwareReset_inv {s : State} (h : Memory.wf s.inMem) : (hardwareReset s).Inv :=
  (hardwareReset_run h).inv_of_noTables ⟨rfl, rfl, rfl⟩ rfl (by simp [hardwareReset, State.reset])

/-- After reset STATUS holds no flag and no error code (10_state.md R47, R58). -/
theorem hardwareReset_status (s : State) : (hardwareReset s).status = 0 := by
  have hf : (hardwareReset s).fsm = .idle := rfl
  have he : (hardwareReset s).err = .none := rfl
  simp only [State.status, State.errCode, State.isError, State.isDone, State.busy, hf, he]
  decide

/-- After reset ADLER_CALC holds the checksum of no byte (10_state.md R52, R58). -/
theorem hardwareReset_adlerCalc (s : State) : (hardwareReset s).adlerCalc = 1 :=
  show adlerWord 1 0 = 1 by decide

theorem hardwareReset_reset : hardwareReset State.reset = State.reset := rfl

/-- START leaves what a run keeps (70_reset_and_hazards.md R401). -/
theorem start_run {s : State} (h : Base s) : Run s.start where
  base := { h with
    cursor := Nat.zero_le _
    outWritten := fun _ ha => absurd ha (Nat.not_lt_zero _)
    sums := by simp }
  endIsLen := rfl
  outBounded _ _ := Nat.zero_le _
  noError := rfl

theorem start_inv {s : State} (h : Base s) : s.start.Inv :=
  (start_run h).inv_of_noTables ⟨rfl, rfl, rfl⟩ rfl (by simp)

/-- While no run is in progress, the host's parameters are no part of the invariant. -/
theorem parameters_inv {s : State} (h : s.Inv) (hb : s.busy = false) (x y : Word) :
    State.Inv { s with inLen := x, outLimit := y } :=
  { h with
    endIsLen := fun hb' => absurd (hb.symm.trans hb') (by simp)
    outBounded := fun hb' => absurd (hb.symm.trans hb') (by simp) }

theorem regWrite_inv {s : State} (h : s.Inv) (r : HostReg) (v : Word) : (s.regWrite r v).Inv := by
  by_cases hb : s.busy = true
  · rwa [regWrite_of_busy hb]
  · cases r with
    | ctrl =>
      rw [regWrite_ctrl]
      split
      · exact start_inv h.base
      · exact h
    | inLen =>
      rw [regWrite_inLen, if_neg hb]
      exact parameters_inv h (eq_false_of_ne_true hb) v s.outLimit
    | outLimit =>
      rw [regWrite_outLimit, if_neg hb]
      exact parameters_inv h (eq_false_of_ne_true hb) s.inLen v
    | status | outLen | cursor | adlerCalc | adlerRead => exact h

/-- Settles O53, act by act. -/
theorem hostKeepsTheInvariant : Obligations.HostKeepsTheInvariant := by
  unfold Obligations.HostKeepsTheInvariant
  intro op s t hi h
  cases op with
  | read off width =>
    obtain ⟨p, hp, rfl⟩ := afterRead_eq_next h
    rcases hostRead_eq_next hp with ⟨r, rfl⟩ | rfl
    · obtain ⟨k, hk⟩ := regRead_state s r
      rw [hk]
      exact { hi with }
    · exact hi
  | write off width v =>
    rcases hostWrite_eq_next h with ⟨r, rfl⟩ | rfl
    · exact regWrite_inv hi r v
    · exact hi
  | writeIn a b =>
    obtain ⟨-, rfl⟩ := hostWriteIn_eq_next h
    exact { hi with inWf := write_wf hi.inWf a b }
  | writeOut a b =>
    obtain ⟨-, rfl⟩ := hostWriteOut_eq_next h
    refine { hi with outWf := write_wf hi.outWf a b, outWritten := fun x hx => ?_ }
    rw [read_write]
    split
    · rfl
    · exact hi.outWritten x hx
  | readOut a =>
    obtain ⟨p, hp, rfl⟩ := afterRead_eq_next h
    obtain ⟨k, hk⟩ := hostReadOut_state hp
    rw [hk]
    exact { hi with }
  | hardwareReset =>
    cases h
    exact hardwareReset_inv hi.inWf

/-- Settles O51: reset is what hardware reset leaves of it. -/
theorem resetMeetsTheInvariant : Obligations.ResetMeetsTheInvariant := by
  unfold Obligations.ResetMeetsTheInvariant
  rw [← hardwareReset_reset]
  exact hardwareReset_inv nil_wf

/-! ### The register obligations -/

/-- Settles O14: every clause reads off `hardwareReset`, the registers through `hostRead_of_reg`. -/
theorem hardwareResetState : Obligations.HardwareResetState := by
  unfold Obligations.HardwareResetState
  refine ⟨?_, ?_, hardwareReset_reset⟩
  · rintro s t rfl
    exact ⟨rfl, rfl, rfl, rfl, rfl, rfl, rfl, rfl, rfl, rfl, rfl, rfl, rfl, rfl, rfl, rfl, rfl⟩
  · rintro s t rfl
    refine ⟨hostRead_of_reg (r := .ctrl) rfl _, ?_, hostRead_of_reg (r := .inLen) rfl _,
      hostRead_of_reg (r := .outLimit) rfl _, hostRead_of_reg (r := .outLen) rfl _,
      hostRead_of_reg (r := .cursor) rfl _, ?_, hostRead_of_reg (r := .adlerRead) rfl _⟩
    · rw [hostRead_of_reg (r := .status) rfl, State.regRead, hardwareReset_status]
    · rw [hostRead_of_reg (r := .adlerCalc) rfl, regRead_adlerCalc, if_pos (adlerCalcMeans_iff.2 (.inl rfl)),
        hardwareReset_adlerCalc]

/-- Settles O15, by the cases of a write to CTRL. -/
theorem startInitialisesTheRun : Obligations.StartInitialisesTheRun := by
  unfold Obligations.StartInitialisesTheRun
  refine ⟨fun s v hv hf => ⟨false, ?_⟩, fun s v hb => ?_, fun s v hv => ?_, fun s => hostRead_of_reg (r := .ctrl) rfl s⟩
  · have hb : s.busy = false := by rcases hf with hf | hf | hf <;> simp [State.busy, hf, Fsm.busy]
    rw [hostWrite_of_reg (r := .ctrl) rfl, regWrite_ctrl, hv, hb]
    rfl
  · rw [hostWrite_of_reg (r := .ctrl) rfl, regWrite_of_busy hb]
  · rw [hostWrite_of_reg (r := .ctrl) rfl, regWrite_ctrl, hv]
    rfl

/-- Settles O16, each bit by `status_getLsbD`. -/
theorem statusRegister : Obligations.StatusRegister := by
  unfold Obligations.StatusRegister
  refine ⟨fun s => ⟨s.status, hostRead_of_reg (r := .status) rfl s, ?_, ?_, ?_, fun k h3 h8 => ?_, fun k hk => ?_,
    fun k hk => ?_⟩, fun s v => hostWrite_of_reg (r := .status) rfl v s, rfl⟩ <;> rw [status_getLsbD]
  · rw [if_pos rfl, State.busy]
    cases s.fsm <;> rfl
  · rfl
  · rfl
  · rw [if_neg (by omega), if_neg (by omega), if_neg (by omega), if_pos h8]
  · rw [if_neg (by omega), if_neg (by omega), if_neg (by omega), if_neg (by omega), Nat.add_sub_cancel_left,
      State.errCode, State.isError]
    cases s.fsm == .error <;> simp
  · rw [if_neg (by omega), if_neg (by omega), if_neg (by omega), if_neg (by omega)]
    exact BitVec.getLsbD_of_ge _ _ (by omega)

/-- Settles O17: what the two parameter registers read, and what a write to them does in and outside a run. -/
theorem hostParameterRegisters : Obligations.HostParameterRegisters := by
  unfold Obligations.HostParameterRegisters
  refine ⟨fun s => ⟨hostRead_of_reg (r := .inLen) rfl s, hostRead_of_reg (r := .outLimit) rfl s⟩,
    fun s v hb => ⟨?_, ?_⟩, fun s v hb => ⟨?_, ?_⟩⟩
  · rw [hostWrite_of_reg (r := .inLen) rfl, regWrite_inLen, hb]
    rfl
  · rw [hostWrite_of_reg (r := .outLimit) rfl, regWrite_outLimit, hb]
    rfl
  · rw [hostWrite_of_reg (r := .inLen) rfl, regWrite_of_busy hb]
  · rw [hostWrite_of_reg (r := .outLimit) rfl, regWrite_of_busy hb]

/-- Settles O18: OUT_LEN and ADLER_CALC by where they are given a value, the others directly. -/
theorem hostResultRegisters : Obligations.HostResultRegisters := by
  unfold Obligations.HostResultRegisters
  refine ⟨fun s hf hl => ?_, fun s hb => ?_, fun s hf => ?_, fun s => hostRead_of_reg (r := .adlerRead) rfl s,
    fun s a b hf ha ha32 hr => ?_, fun s off h => ?_, fun s a ha h => ?_, fun s v off h => ?_⟩
  · rw [hostRead_of_reg (r := .outLen) rfl, regRead_outLen, if_pos (outLenMeans_iff.2 ⟨hf, hl⟩)]
  · rw [hostRead_of_reg (r := .cursor) rfl, regRead_cursor, hb]
    simp [BitVec.ofNat, Fin.ofNat]
  · rw [hostRead_of_reg (r := .adlerCalc) rfl, regRead_adlerCalc, if_pos (adlerCalcMeans_iff.2 hf), State.adlerCalc,
      adlerWord_eq_ofNat]
  · have hs : spaceOffset a = true := decide_eq_true ha32
    simp [hostReadOut, hs, State.isDone, hf, ha, hr]
  · rcases h with ⟨rfl, h⟩ | ⟨rfl, h⟩ | ⟨rfl, h⟩
    · rw [hostRead_of_reg (r := .outLen) rfl, regRead_outLen, if_neg]
      · rfl
      · rw [outLenMeans_iff]
        rintro ⟨hf, hl⟩
        rw [busy_iff] at h
        rcases hf with hf | hf <;> simp [hf] at h <;> omega
    · rw [hostRead_of_reg (r := .cursor) rfl, regRead_cursor, if_pos h]
      rfl
    · rw [hostRead_of_reg (r := .adlerCalc) rfl, regRead_adlerCalc, if_neg]
      · rfl
      · rw [adlerCalcMeans_iff]
        rw [busy_iff] at h
        rintro (hf | hf | ⟨hf, he⟩) <;> simp_all
  · have hn : (s.isDone && decide (a < s.outLen)) = false := by
      rcases h with h | h <;> simp [State.isDone, h]
    have hs : spaceOffset a = true := decide_eq_true ha
    simp [hostReadOut, hs, hn, State.takeFreeByte]
  · rcases h with rfl | rfl | rfl | rfl
    · exact hostWrite_of_reg (r := .outLen) rfl v s
    · exact hostWrite_of_reg (r := .cursor) rfl v s
    · exact hostWrite_of_reg (r := .adlerCalc) rfl v s
    · exact hostWrite_of_reg (r := .adlerRead) rfl v s

/-- Settles O19: no register lies past 0x20, every aligned offset below it holds one, and a run ignores writes to it. -/
theorem hostFaultsAndIgnoredAccesses : Obligations.HostFaultsAndIgnoredAccesses := by
  unfold Obligations.HostFaultsAndIgnoredAccesses
  refine ⟨fun s size off v h1 h2 h3 => ?_, fun s off width v => ⟨rfl, rfl⟩, fun s off width v h => ?_,
    fun s a b hb ha => ?_, fun s off v hb h1 h2 => ?_⟩
  · simp [hostReadAt, hostWriteAt, wordAccess, hostRegAt_none h1, h2, h3]
  · have hw : wordAccess off width = false := by rcases h with h | h <;> simp [wordAccess, h]
    simp [hostRead, hostWrite, hostReadAt, hostWriteAt, hw]
  · have hs : spaceOffset a = true := decide_eq_true ha
    simp [hostWriteIn, hostWriteOut, hs, hb]
  · obtain ⟨r, hr⟩ := hostRegAt_some h1 h2
    rw [hostWrite_of_reg hr, regWrite_of_busy hb]

end Sys2Proof.Machine

/-! ### What a step leaves alone

`Steady` for the parts of a step: moving the cursor to where the decoder stands, the registers of the completed reads, an
error, then one fetch and the whole step. None of this needs the invariant. -/

namespace Sys2Proof.Machine

/-- A fetch never moves the cursor back. -/
theorem seek_steady (s : State) {pos : Nat} (h : s.bitOffset ≤ pos) : Steady s (s.seek pos) :=
  { Steady.refl s with pc := seek_pc_bounds s h }

theorem raise_steady (s : State) (e : ErrKind) : Steady s (s.raise e) :=
  .of_eq rfl rfl rfl rfl rfl rfl rfl rfl

theorem applyPart_steady (s : State) (p : Part) : Steady s (s.applyPart p) := by
  obtain ⟨_, _, _, _, _, _, _, he, -⟩ := applyPart_fields s p
  rw [he]
  exact .of_eq rfl rfl rfl rfl rfl rfl rfl rfl

/-- The error that a stopped fetch raises leaves the input and the output alone (60_exceptions.md R372). -/
theorem stopFetch_steady {w : Stop} {p : Part} {pos : Nat} {s t : State} (hpos : s.bitOffset ≤ pos)
    (h : stopFetch w p pos s = .next t) : Steady s t := by
  have raised (e : ErrKind) : Steady s (((s.seek pos).applyPart p).raise e) :=
    ((seek_steady s hpos).trans (applyPart_steady _ p)).trans (raise_steady _ e)
  rcases stopFetch_eq_next h with ⟨-, -, rfl⟩ | ⟨-, rfl⟩ | ⟨-, rfl⟩ <;> exact raised _

theorem fetchExec_steady {s t : State} (h : fetchExec s = .next t) : Steady s t := by
  rcases fetchExec_eq_next h with ⟨-, rfl⟩ | ⟨c, i, pos, -, hd, he⟩ | ⟨c, w, p, pos, -, hd, he⟩
  · exact .refl t
  · have hin := decode_inside c s.bitOffset s.window
    rw [hd] at hin
    exact (seek_steady s (Nat.le_of_add_right_le hin.1)).trans (exec_steady he)
  · have hin := decode_inside c s.bitOffset s.window
    rw [hd] at hin
    exact stopFetch_steady hin.1 he

theorem step_steady {s t : State} (h : step s = .next t) : Steady s t := by
  obtain ⟨u, hu, ⟨-, rfl⟩ | ⟨-, ht⟩⟩ := step_eq_next h
  · exact fetchExec_steady hu
  · exact (fetchExec_steady hu).trans (fetchExec_steady ht)

/-- Settles O57: a step is one or two fetches, and each of them is steady. -/
theorem stepLeavesInputAndPastOutput : Obligations.StepLeavesInputAndPastOutput := by
  unfold Obligations.StepLeavesInputAndPastOutput
  intro s t h
  have hs := step_steady h
  obtain ⟨hlimit, hby⟩ := Prod.mk.inj hs.limit
  exact ⟨hs.inMem, hs.inLen, hlimit, hby, hs.endOffset, hs.freeReads, hs.pc, hs.outLen, hs.out⟩

end Sys2Proof.Machine

/-! ### An instruction and its encoded fields

An instruction is determined by its fields (`shape_injective`), and each context accepts exactly the instructions of its
class whose symbol has a code. -/

namespace Sys2Proof

open Laws.OperandRoundTrip in
/-- Every instruction is recovered from its encoded fields, constructor by constructor. -/
theorem operandRoundTrip (i : Instr) : Statement i :=
  Instr.casesOn i env blkStored blkFixed blkDynamic blkReserved stored dynHdr clLen clRep clZero3 clZero11 lit eob
    len257 len258 len259 len260 len261 len262 len263 len264 len265 len266 len267 len268 len269 len270 len271 len272
    len273 len274 len275 len276 len277 len278 len279 len280 len281 len282 len283 len284 len285 len286 len287
    dist0 dist1 dist2 dist3 dist4 dist5 dist6 dist7 dist8 dist9 dist10 dist11 dist12 dist13 dist14 dist15
    dist16 dist17 dist18 dist19 dist20 dist21 dist22 dist23 dist24 dist25 dist26 dist27 dist28 dist29 dist30 dist31
    trailer

/-- The instruction of a header's fields; a coded symbol is not one. -/
def Shape.header? : Shape → Option Instr
  | .env cmf flg => some (.env cmf flg)
  | .blk btype f => some (blkInstr btype f)
  | .stored len nlen => some (.stored len nlen)
  | .dynHdr x y z ls => some (.dynHdr x y z ls)
  | .coded _ _ _ _ => none
  | .trailer v => some (.trailer v)

theorem eq_of_header {i j : Instr} (h : i.shape.header? = some j) : i = j := by
  have hi := operandRoundTrip i
  rw [Laws.OperandRoundTrip.Statement] at hi
  cases hs : i.shape <;> rw [hs] at hi h <;> cases h <;> exact hi

theorem coded_of_header_none {i : Instr} (h : i.shape.header? = none) : ∃ cls v w x, i.shape = .coded cls v w x := by
  cases hs : i.shape with
  | coded cls v w x => exact ⟨cls, v, w, x, rfl⟩
  | _ => rw [hs] at h; cases h

/-- The bounds of an extra field. -/
theorem extra_lt {i : Instr} {cls : SymClass} {v w x : Nat} (h : i.shape = .coded cls v w x) : x < 2 ^ w ∧ w ≤ 13 := by
  have hi := operandRoundTrip i
  rw [Laws.OperandRoundTrip.Statement, h] at hi
  exact ⟨hi.1, hi.2.1⟩

/-- A symbol's operand is read back where its extra field stands (30_encoding.md R108). -/
theorem operand_of_bits {i : Instr} {cls : SymClass} {v w x : Nat} (h : i.shape = .coded cls v w x) {c : Cursor}
    {first : Bool} (hf : cls = .cl → v = 16 → first = false) (hb : BitsAt c.bytes c.pos (bitsLsb (BitVec.ofNat w x))) :
    Laws.OperandRoundTrip.operand cls first v c = .instr i (c.pos + w) := by
  have hi := operandRoundTrip i
  rw [Laws.OperandRoundTrip.Statement, h] at hi
  exact hi.2.2 c first hf hb

theorem shape_injective {i j : Instr} (h : i.shape = j.shape) : i = j := by
  cases hj : j.shape.header? with
  | some k => exact (eq_of_header ((congrArg Shape.header? h).trans hj)).trans (eq_of_header hj).symm
  | none =>
    obtain ⟨cls, v, w, x, hs⟩ := coded_of_header_none hj
    have hl : (bitsLsb (BitVec.ofNat w x)).length ≤ 8 * 2 := by
      have := (extra_lt hs).2
      rw [length_bitsLsb]
      omega
    have hb : BitsAt (packBytes 2 (bitsLsb (BitVec.ofNat w x))) 0 (bitsLsb (BitVec.ofNat w x)) := bitsAt_packBytes hl
    have hd := (operand_of_bits (first := false) (c := ⟨_, 0⟩) (h.trans hs) (fun _ _ => rfl) hb).symm.trans
      (operand_of_bits hs (fun _ _ => rfl) hb)
    exact (Decoded.instr.inj hd).1

theorem shape_blkInstr (btype : BitVec 2) (f : Bool) : (blkInstr btype f).shape = .blk btype f := by
  have h : ∀ t : BitVec 2, t = 0 ∨ t = 1 ∨ t = 2 ∨ t = 3 := by decide
  rcases h btype with rfl | rfl | rfl | rfl <;> rfl

/-! What each context accepts. -/

theorem accepts_env_iff {i : Instr} : Ctx.env.accepts i = true ↔ ∃ cmf flg, i = .env cmf flg := by
  constructor
  · intro h
    cases hs : i.shape <;> simp [Ctx.accepts, hs] at h
    exact ⟨_, _, eq_of_header (by rw [hs]; rfl)⟩
  · rintro ⟨cmf, flg, rfl⟩
    rfl

theorem accepts_blkHdr_iff {i : Instr} : Ctx.blkHdr.accepts i = true ↔ ∃ btype f, i = blkInstr btype f := by
  constructor
  · intro h
    cases hs : i.shape <;> simp [Ctx.accepts, hs] at h
    exact ⟨_, _, eq_of_header (by rw [hs]; rfl)⟩
  · rintro ⟨btype, f, rfl⟩
    simp [Ctx.accepts, Instr.wf, shape_blkInstr]

theorem accepts_stored_iff {i : Instr} : Ctx.stored.accepts i = true ↔ ∃ len nlen, i = .stored len nlen := by
  constructor
  · intro h
    cases hs : i.shape <;> simp [Ctx.accepts, hs] at h
    exact ⟨_, _, eq_of_header (by rw [hs]; rfl)⟩
  · rintro ⟨len, nlen, rfl⟩
    rfl

theorem accepts_trailer_iff {i : Instr} : Ctx.trailer.accepts i = true ↔ ∃ v, i = .trailer v := by
  constructor
  · intro h
    cases hs : i.shape <;> simp [Ctx.accepts, hs] at h
    exact ⟨_, eq_of_header (by rw [hs]; rfl)⟩
  · rintro ⟨v, rfl⟩
    rfl

theorem accepts_dynHdr_iff {i : Instr} :
    Ctx.dynHdr.accepts i = true ↔ ∃ x y z ls, i = .dynHdr x y z ls ∧ ls.length = z.toNat + 4 := by
  constructor
  · intro h
    cases hs : i.shape <;> simp [Ctx.accepts, Instr.wf, hs] at h
    exact ⟨_, _, _, _, eq_of_header (by rw [hs]; rfl), h⟩
  · rintro ⟨x, y, z, ls, rfl, h⟩
    simp [Ctx.accepts, Instr.wf, Instr.shape, h]

/-- The alphabet and the table of a context that decodes a symbol, and whether symbol 16 would be a first repeat. -/
def Ctx.coded? : Ctx → Option (SymClass × Table × Bool)
  | .clSym t first => some (.cl, t, first)
  | .litLen t => some (.litLen, t, false)
  | .dist t => some (.dist, t, false)
  | _ => none

section

variable {ctx : Ctx} {cls : SymClass} {t : Table} {first : Bool} (hc : ctx.coded? = some (cls, t, first))
include hc

theorem table_of_coded : ctx.table? = some t := by
  cases ctx <;> cases hc <;> rfl

theorem noExtra_of_coded (v : Nat) : ctx.noExtra v = (first && v == 16) := by
  cases ctx <;> cases hc <;> rfl

/-- Only a code-length symbol can be a first repeat. -/
theorem first_of_coded (h : cls ≠ .cl) : first = false := by
  cases ctx <;> cases hc
  · exact absurd rfl h
  · rfl
  · rfl

theorem decode_of_coded (off : Nat) (bytes : List Byte) :
    decode ctx off bytes = withSymbol t ⟨bytes, off⟩ (Laws.OperandRoundTrip.operand cls first) := by
  cases ctx <;> cases hc <;> rfl

/-- The code, then the extra field unless the symbol is a first repeat (30_encoding.md R106, 42_dynamic_table.md R199). -/
theorem encode_of_coded (off : Nat) {i : Instr} {v w x : Nat} (hs : i.shape = .coded cls v w x) :
    encode ctx off i = t.codeBits v ++ if first && v == 16 then [] else bitsLsb (BitVec.ofNat w x) := by
  rw [encode, hs]
  simp only [noExtra_of_coded hc, Ctx.codeBits, table_of_coded hc]

/-- When a context that decodes a symbol accepts a coded symbol. -/
theorem accepts_of_shape {i : Instr} {cls' : SymClass} {v w x : Nat} (hs : i.shape = .coded cls' v w x) :
    ctx.accepts i = true ↔ cls' = cls ∧ (t.codeOf v).isSome = true ∧ ((first && v == 16) = true → x = 0) := by
  cases ctx <;> cases hc <;> cases cls' <;> simp [Ctx.accepts, Instr.wf, hs, or_iff_not_imp_left]

/-- What a context that decodes a symbol accepts. -/
theorem accepts_coded_iff {i : Instr} :
    ctx.accepts i = true ↔ ∃ v w x, i.shape = .coded cls v w x ∧ (t.codeOf v).isSome = true ∧
      ((first && v == 16) = true → x = 0) := by
  constructor
  · intro h
    cases hs : i.shape with
    | coded cls' v w x =>
      obtain ⟨rfl, hv⟩ := (accepts_of_shape hc hs).1 h
      exact ⟨v, w, x, rfl, hv⟩
    | _ => cases ctx <;> cases hc <;> simp [Ctx.accepts, hs] at h
  · rintro ⟨v, w, x, hs, hv⟩
    exact (accepts_of_shape hc hs).2 ⟨rfl, hv⟩

/-- Everything an operand read that goes on can do. -/
theorem operand_eq_instr {v : Nat} {c : Cursor} {i : Instr} {pos : Nat} (hp : c.pos ≤ 8 * c.bytes.length)
    (h : Laws.OperandRoundTrip.operand cls first v c = .instr i pos) :
    ∃ w x, i.shape = .coded cls v w x ∧
      ((first && v == 16) = true ∧ x = 0 ∧ pos = c.pos ∨
        (first && v == 16) = false ∧ pos = c.pos + w ∧ BitsAt c.bytes c.pos (bitsLsb (BitVec.ofNat w x))) := by
  cases cls with
  | cl => exact clOperand_eq_instr hp h
  | litLen =>
    obtain ⟨w, x, hs, hpos⟩ := litLenOperand_eq_instr hp h
    exact ⟨w, x, hs, .inr ⟨by simp [first_of_coded hc], hpos⟩⟩
  | dist =>
    obtain ⟨w, x, hs, hpos⟩ := distOperand_eq_instr hp h
    exact ⟨w, x, hs, .inr ⟨by simp [first_of_coded hc], hpos⟩⟩

end

/-! One symbol of a table that `build` made. -/

theorem codeBits_of_codeOf {t : Table} {v len code : Nat} (h : t.codeOf v = some (len, code)) :
    t.codeBits v = bitsMsb len code := by
  rw [Table.codeBits, h]

/-- Where the code of a present value stands, the symbol read goes on with that value, right after the code. -/
theorem withSymbol_of_codeBits {t : Table} (ht : t.BuiltFrom (2 ^ 11)) {v : Nat} (hv : (t.codeOf v).isSome = true)
    {c : Cursor} (h : BitsAt c.bytes c.pos (t.codeBits v)) (k : Nat → Cursor → Decoded) :
    withSymbol t c k = k v { c with pos := c.pos + (t.codeBits v).length } := by
  obtain ⟨lens, hn, -, hb⟩ := ht
  obtain ⟨rfl, hf⟩ := build_eq_some hb
  obtain ⟨⟨len, code⟩, hcode⟩ := Option.isSome_iff_exists.1 hv
  rw [codeBits_of_codeOf hcode] at h ⊢
  rw [withSymbol, decode_of_code hn hf hcode h, length_bitsMsb]

/-- A symbol read that goes on to an instruction read the code of a present value. -/
theorem withSymbol_built_eq_instr {t : Table} (ht : t.BuiltFrom (2 ^ 11)) {c : Cursor} {k : Nat → Cursor → Decoded}
    {i : Instr} {pos : Nat} (h : withSymbol t c k = .instr i pos) :
    ∃ v, (t.codeOf v).isSome = true ∧ BitsAt c.bytes c.pos (t.codeBits v) ∧
      k v { c with pos := c.pos + (t.codeBits v).length } = .instr i pos := by
  obtain ⟨lens, hn, -, hb⟩ := ht
  obtain ⟨rfl, hf⟩ := build_eq_some hb
  obtain ⟨v, c', hd, hk⟩ := withSymbol_eq_instr h
  obtain ⟨len, code, hcode, -, -, -, hbits, rfl⟩ := code_of_decode hn hf hd
  refine ⟨v, by rw [hcode]; rfl, ?_⟩
  rw [codeBits_of_codeOf hcode, length_bitsMsb]
  exact ⟨hbits, hk⟩

/-! ### The round trips -/

theorem encode_blkInstr (ctx : Ctx) (off : Nat) (btype : BitVec 2) (f : Bool) :
    encode ctx off (blkInstr btype f) = f :: bitsLsb btype := by
  rw [encode, shape_blkInstr]

theorem encode_stored (ctx : Ctx) (off : Nat) (len nlen : BitVec 16) :
    encode ctx off (.stored len nlen) = padBits off ++ (bitsLsb len ++ bitsLsb nlen) := rfl

theorem encode_trailer (ctx : Ctx) (off : Nat) (v : Word) :
    encode ctx off (.trailer v) = padBits off ++ (bitsLsb (v.extractLsb' 24 8) ++ (bitsLsb (v.extractLsb' 16 8) ++
      (bitsLsb (v.extractLsb' 8 8) ++ bitsLsb (v.extractLsb' 0 8)))) := rfl

theorem length_encode_dynHdr (ctx : Ctx) (off : Nat) (x y : BitVec 5) (z : BitVec 4) (ls : List (BitVec 3)) :
    (encode ctx off (.dynHdr x y z ls)).length = 14 + 3 * ls.length := by
  have hls : (ls.flatMap bitsLsb).length = 3 * ls.length := by
    simp [List.length_flatMap, length_bitsLsb, Nat.mul_comm]
  simp only [encode, Instr.shape, List.length_append, length_bitsLsb, hls]
  omega

/-- No padding stands before an element at a byte boundary. -/
theorem padBits_alignUp (off : Nat) : padBits (alignUp off) = [] := by
  rw [padBits, alignUp_of_aligned (alignUp_mod off), Nat.sub_self, List.replicate_zero]

/-- Past the padding an aligned element's fields stand at the byte boundary. -/
theorem bitsAt_alignUp {bytes : List Byte} {off : Nat} {bits : List Bool} (h : BitsAt bytes off (padBits off ++ bits)) :
    BitsAt bytes (alignUp off) bits := by
  have hb := (bitsAt_append.1 h).2
  rwa [length_padBits] at hb

theorem length_padBits_append (off : Nat) (bits : List Bool) :
    off + (padBits off ++ bits).length = alignUp off + bits.length := by
  rw [List.length_append, ← Nat.add_assoc, length_padBits]

/-- A repeat of symbol 16 without an extra value is the one spelled without an extra field (42_dynamic_table.md R199). -/
theorem eq_clRep_zero {i : Instr} {w : Nat} (h : i.shape = .coded .cl 16 w 0) : i = .clRep 0 := by
  rcases Machine.cl_cases h with ⟨l, rfl⟩ | ⟨y, rfl⟩ | ⟨y, rfl⟩ | ⟨y, rfl⟩ <;> simp [Instr.shape] at h
  · have := l.isLt
    omega
  · exact congrArg Instr.clRep (BitVec.eq_of_toNat_eq h.2)

/-- A symbol is read back from its encoding. -/
theorem decode_encode_of_coded {ctx : Ctx} {cls : SymClass} {t : Table} {first : Bool}
    (hc : ctx.coded? = some (cls, t, first)) (ht : ctx.TableBuilt) {off : Nat} {bytes : List Byte} {i : Instr}
    (ha : ctx.accepts i = true) (h : BitsAt bytes off (encode ctx off i)) :
    decode ctx off bytes = .instr i (off + (encode ctx off i).length) := by
  obtain ⟨v, w, x, hs, hv, hx⟩ := (accepts_coded_iff hc).1 ha
  rw [encode_of_coded hc off hs] at h ⊢
  obtain ⟨hcode, hextra⟩ := bitsAt_append.1 h
  rw [decode_of_coded hc, withSymbol_of_codeBits (ht t (table_of_coded hc)) hv hcode, List.length_append]
  cases hr : first && v == 16 with
  | true =>
    obtain ⟨rfl, rfl⟩ : first = true ∧ v = 16 := by simpa using hr
    obtain rfl : cls = .cl := by
      by_contra hcl
      exact absurd (first_of_coded hc hcl) (by simp)
    obtain rfl := hx rfl
    rw [eq_clRep_zero hs]
    rfl
  | false =>
    rw [hr] at hextra
    have hf : cls = .cl → v = 16 → first = false := by
      rintro - rfl
      simpa using hr
    rw [operand_of_bits hs hf hextra]
    simp [length_bitsLsb, Nat.add_assoc]

/-- The bits of a symbol that is read are its encoding. -/
theorem encode_decode_of_coded {ctx : Ctx} {cls : SymClass} {t : Table} {first : Bool}
    (hc : ctx.coded? = some (cls, t, first)) (ht : ctx.TableBuilt) {off : Nat} {bytes : List Byte} {i : Instr} {pos : Nat}
    (h : decode ctx off bytes = .instr i pos) :
    ctx.accepts i = true ∧ ∃ start, start = (if ctx = .stored ∨ ctx = .trailer then alignUp off else off) ∧
      BitsAt bytes start (encode ctx start i) ∧ pos = start + (encode ctx start i).length := by
  have hstart : off = if ctx = .stored ∨ ctx = .trailer then alignUp off else off := by
    cases ctx <;> cases hc <;> rfl
  rw [decode_of_coded hc] at h
  obtain ⟨v, hv, hcode, hk⟩ := withSymbol_built_eq_instr (ht t (table_of_coded hc)) h
  have hp : off + (t.codeBits v).length ≤ 8 * bytes.length := hcode.1
  obtain ⟨w, x, hs, hpos⟩ := operand_eq_instr hc hp hk
  have hx : (first && v == 16) = true → x = 0 := by
    rcases hpos with ⟨-, hx, -⟩ | ⟨hr, -⟩
    · exact fun _ => hx
    · exact fun h => absurd (hr.symm.trans h) (by simp)
  refine ⟨(accepts_of_shape hc hs).2 ⟨rfl, hv, hx⟩, off, hstart, ?_⟩
  rw [encode_of_coded hc off hs, bitsAt_append, List.length_append]
  rcases hpos with ⟨hr, -, rfl⟩ | ⟨hr, rfl, hextra⟩ <;> rw [hr]
  · exact ⟨⟨hcode, by simpa [BitsAt] using hp⟩, rfl⟩
  · exact ⟨⟨hcode, hextra⟩, by simp [length_bitsLsb, Nat.add_assoc]⟩

/-- Settles O10: each header by its own read, the three alphabets by `decode_encode_of_coded`. -/
theorem decodeOfEncode : Obligations.DecodeOfEncode := by
  unfold Obligations.DecodeOfEncode
  intro ctx off bytes i ht ha h
  cases ctx with
  | env =>
    obtain ⟨cmf, flg, rfl⟩ := accepts_env_iff.1 ha
    exact decodeEnv_of_bits h
  | blkHdr =>
    obtain ⟨btype, f, rfl⟩ := accepts_blkHdr_iff.1 ha
    rw [encode_blkInstr] at h ⊢
    exact decodeBlkHdr_of_bits h
  | stored =>
    obtain ⟨len, nlen, rfl⟩ := accepts_stored_iff.1 ha
    rw [encode_stored] at h ⊢
    rw [length_padBits_append]
    exact decodeStored_of_bits (bitsAt_alignUp h)
  | dynHdr =>
    obtain ⟨x, y, z, ls, rfl, hls⟩ := accepts_dynHdr_iff.1 ha
    rw [length_encode_dynHdr, ← Nat.add_assoc]
    exact decodeDynHdr_of_bits hls h
  | clSym t first => exact decode_encode_of_coded rfl ht ha h
  | litLen t => exact decode_encode_of_coded rfl ht ha h
  | dist t => exact decode_encode_of_coded rfl ht ha h
  | trailer =>
    obtain ⟨v, rfl⟩ := accepts_trailer_iff.1 ha
    rw [encode_trailer] at h ⊢
    rw [length_padBits_append]
    exact decodeTrailer_of_bits (bitsAt_alignUp h)

/-- Settles O11: each header by its own read, the three alphabets by `encode_decode_of_coded`. -/
theorem encodeOfDecode : Obligations.EncodeOfDecode := by
  unfold Obligations.EncodeOfDecode
  intro ctx off bytes i pos ht h
  cases ctx with
  | env =>
    obtain ⟨cmf, flg, rfl, rfl, hb⟩ := decodeEnv_eq_instr h
    exact ⟨accepts_env_iff.2 ⟨_, _, rfl⟩, off, rfl, hb, rfl⟩
  | blkHdr =>
    obtain ⟨f, btype, rfl, rfl, hb⟩ := decodeBlkHdr_eq_instr h
    refine ⟨accepts_blkHdr_iff.2 ⟨_, _, rfl⟩, off, rfl, ?_⟩
    rw [encode_blkInstr]
    exact ⟨hb, rfl⟩
  | stored =>
    obtain ⟨len, nlen, rfl, rfl, hb⟩ := decodeStored_eq_instr h
    refine ⟨accepts_stored_iff.2 ⟨_, _, rfl⟩, alignUp off, rfl, ?_⟩
    rw [encode_stored, padBits_alignUp]
    exact ⟨hb, rfl⟩
  | dynHdr =>
    obtain ⟨x, y, z, ls, hls, rfl, rfl, hb⟩ := decodeDynHdr_eq_instr h
    refine ⟨accepts_dynHdr_iff.2 ⟨x, y, z, ls, rfl, hls⟩, off, rfl, hb, ?_⟩
    rw [length_encode_dynHdr, Nat.add_assoc]
  | clSym t first => exact encode_decode_of_coded rfl ht h
  | litLen t => exact encode_decode_of_coded rfl ht h
  | dist t => exact encode_decode_of_coded rfl ht h
  | trailer =>
    obtain ⟨v, rfl, rfl, hb⟩ := decodeTrailer_eq_instr h
    refine ⟨accepts_trailer_iff.2 ⟨v, rfl⟩, alignUp off, rfl, ?_⟩
    rw [encode_trailer, padBits_alignUp]
    exact ⟨hb, rfl⟩

end Sys2Proof

/-! ### The class of the next instruction, and one step -/

namespace Sys2Proof.Machine

/-- Settles O12: each word is decoded by evaluation. -/
theorem tableWordsDecode : Obligations.TableWordsDecode := by
  unfold Obligations.TableWordsDecode
  decide +kernel

theorem fetchExec_of_instr {s : State} {c : Ctx} {i : Instr} {pos : Nat} (hs : s.select = .ctx c)
    (hd : decode c s.bitOffset s.window = .instr i pos) : fetchExec s = exec i (s.seek pos) := by
  simp only [fetchExec, hs, hd]

/-- One step, by whether its first fetch leaves a back-reference open. -/
theorem step_of_fetchExec {s t : State} (h : fetchExec s = .next t) :
    step s = if t.distNext then fetchExec t else .next t := by
  rw [step, h, finishElement]

theorem step_of_fault {s : State} {f : Fault} (h : fetchExec s = .fault f) : step s = .fault f := by
  rw [step, h, finishElement]

/-- Settles O46, by what one fetch does and whether a second one follows. -/
theorem stepRunsTheDecodedInstruction : Obligations.StepRunsTheDecodedInstruction := by
  unfold Obligations.StepRunsTheDecodedInstruction
  refine ⟨fun s c i pos hs hd => fetchExec_of_instr hs hd, fun s t h hd => ?_, fun s t h hd => ?_,
    fun s f h => step_of_fault h⟩ <;> rw [step_of_fetchExec h, hd] <;> rfl

/-- Settles O47, control state by control state. -/
theorem classIsSelectedByState : Obligations.ClassIsSelectedByState := by
  unfold Obligations.ClassIsSelectedByState
  refine ⟨fun s hf => ?_, fun s hf => ?_, fun s hf => ?_, fun s hf => ?_, fun s t hf ht => ?_, fun s t hf hd ht => ?_,
    fun s t hf hd ht => ?_, fun s hf => ?_, fun s hf => ?_⟩ <;> rw [State.select]
  case refine_5 => rw [hf, ht]; rfl
  case refine_6 | refine_7 => rw [hf, hd, ht]; rfl
  case refine_9 => rcases hf with hf | hf | hf <;> rw [hf]
  all_goals rw [hf]

end Sys2Proof.Machine

/-! ### Spelling a back-reference

A base/extra table without gaps has a row for every number it spans (`exists_row`); the row's symbol with the rest as its
extra value is read as one instruction (`withExtra_eq_some`). -/

namespace Sys2Proof

/-- The extra-bit count of row `k` of a base/extra table. -/
def rowWidth (tab : List (Nat × Nat)) (k : Nat) : Nat := (tab.getD k (0, 0)).2

/-- In a table without gaps, every number from its first base up to the end of row `m` is in a row up to `m`. -/
theorem exists_row {tab : List (Nat × Nat)} {n m : Nat}
    (hgap : ∀ k < m, rowBase tab (k + 1) ≤ rowBase tab k + 2 ^ rowWidth tab k)
    (h0 : rowBase tab 0 ≤ n) (hm : n < rowBase tab m + 2 ^ rowWidth tab m) :
    ∃ k ≤ m, rowBase tab k ≤ n ∧ n < rowBase tab k + 2 ^ rowWidth tab k := by
  induction m with
  | zero => exact ⟨0, le_rfl, h0, hm⟩
  | succ m ih =>
    by_cases hn : rowBase tab (m + 1) ≤ n
    · exact ⟨m + 1, le_rfl, hn, hm⟩
    · have hlast := hgap m (by omega)
      obtain ⟨k, hk, hrow⟩ := ih (fun k hk => hgap k (by omega)) (by omega)
      exact ⟨k, by omega, hrow⟩

/-- A number that is in some row is spelled by one, its rest as the extra value. -/
theorem rowFor_of_row {tab : List (Nat × Nat)} {n k : Nat} (hk : k < tab.length)
    (hrow : rowBase tab k ≤ n ∧ n < rowBase tab k + 2 ^ rowWidth tab k) :
    ∃ r x, rowFor tab n = some (r, x) ∧ r < tab.length ∧ rowBase tab r + x = n ∧ x < 2 ^ rowWidth tab r := by
  have hsome : ((List.range tab.length).reverse.find? fun k =>
      decide (rowBase tab k ≤ n) && decide (n < rowBase tab k + 2 ^ (tab.getD k (0, 0)).2)).isSome = true := by
    rw [List.find?_isSome]
    exact ⟨k, by simpa using hk, by simpa [rowWidth] using hrow⟩
  obtain ⟨r, hr⟩ := Option.isSome_iff_exists.1 hsome
  have hmem := List.mem_of_find?_eq_some hr
  have hrange := List.find?_some hr
  simp only [List.mem_reverse, List.mem_range, Bool.and_eq_true, decide_eq_true_eq] at hmem hrange
  exact ⟨r, n - rowBase tab r, by rw [rowFor, hr]; rfl, hmem, by omega, by rw [rowWidth]; omega⟩

/-! An operand read with all its bits in view goes on. -/

theorem withBits_goes_on {n : Nat} {c : Cursor} (hn : n ≤ 32) (h : c.pos + n ≤ 8 * c.bytes.length)
    (part : Part) (mk : BitVec n → Instr) : ∃ i pos, (withBits n c part fun x c => .instr (mk x) c.pos) = .instr i pos := by
  rw [withBits, readBits_ok hn h]
  exact ⟨_, _, rfl⟩

theorem litLenOperand_goes_on {v : Nat} (hv : v ≤ 287) {c : Cursor} (h : c.pos + 5 ≤ 8 * c.bytes.length) :
    ∃ i pos, decodeLitLenOperand v c = .instr i pos := by
  unfold decodeLitLenOperand
  split
  · exact ⟨_, _, rfl⟩
  · split <;>
      first
      | exact ⟨_, _, rfl⟩
      | exact withBits_goes_on (by omega) (by omega) _ _
      | (exfalso; simp only [imp_false] at *; omega)

theorem distOperand_goes_on {v : Nat} (hv : v ≤ 31) {c : Cursor} (h : c.pos + 13 ≤ 8 * c.bytes.length) :
    ∃ i pos, decodeDistOperand v c = .instr i pos := by
  unfold decodeDistOperand
  split <;>
    first
    | exact ⟨_, _, rfl⟩
    | exact withBits_goes_on (by omega) (by omega) _ _
    | (exfalso; simp only [imp_false] at *; omega)

/-- The extra field of a length symbol is as wide as its row says (43_block_decoder.md R240 to R268). -/
theorem length_width {i : Instr} {v w x : Nat} (h : i.shape = .coded .litLen v w x) (h1 : 257 ≤ v) (h2 : v ≤ 285) :
    w = rowWidth lenTab (v - 257) := by
  cases i <;> simp only [Instr.shape, Shape.coded.injEq, reduceCtorEq, false_and] at h <;>
    obtain ⟨-, rfl, rfl, -⟩ := h <;> first | omega | rfl

/-- The extra field of a distance symbol is as wide as its row says (43_block_decoder.md R270 to R299). -/
theorem distance_width {i : Instr} {v w y : Nat} (h : i.shape = .coded .dist v w y) (h1 : v < 30) :
    w = rowWidth distTab v := by
  cases i <;> simp only [Instr.shape, Shape.coded.injEq, reduceCtorEq, false_and] at h <;>
    obtain ⟨-, rfl, rfl, -⟩ := h <;> first | omega | rfl

/-- The low bits of a number stand where more of them do. -/
theorem bitsAt_bitsLsb_of_le {bytes : List Byte} {p n w x : Nat} (hw : w ≤ n) (h : BitsAt bytes p (natBits n x)) :
    BitsAt bytes p (bitsLsb (BitVec.ofNat w x)) := by
  obtain ⟨hl, hb⟩ := h
  rw [natBits, length_bitsLsb] at hl
  refine ⟨by rw [length_bitsLsb]; omega, fun k hk => ?_⟩
  rw [length_bitsLsb] at hk
  rw [hb k (by rw [natBits, length_bitsLsb]; omega)]
  simp only [natBits, bitsLsb, List.getElem_map, List.getElem_range, BitVec.getLsbD_ofNat, hk, show k < n by omega]

/-- The instruction that `withExtra` makes has the symbol of the operand read and the given extra value. -/
theorem withExtra_eq_some {cls : SymClass} {v w x : Nat} {operand : Cursor → Decoded} (hx : x < 2 ^ w)
    (hgo : ∀ bytes : List Byte, bytes.length = 2 → ∃ i pos, operand ⟨bytes, 0⟩ = .instr i pos)
    (hread : ∀ {c : Cursor} {i pos}, c.pos ≤ 8 * c.bytes.length → operand c = .instr i pos →
      ∃ w x, i.shape = .coded cls v w x ∧ pos = c.pos + w ∧ BitsAt c.bytes c.pos (bitsLsb (BitVec.ofNat w x)))
    (hwidth : ∀ {i : Instr} {w' x'}, i.shape = .coded cls v w' x' → w' = w) :
    ∃ i, withExtra operand x = some i ∧ i.shape = .coded cls v w x := by
  obtain ⟨i, pos, hi⟩ := hgo _ (length_packBytes 2 (natBits 16 x))
  obtain ⟨w', x', hs, -, hb'⟩ := hread (Nat.zero_le _) hi
  obtain rfl := hwidth hs
  obtain ⟨hx', hw⟩ := extra_lt hs
  have hb := bitsAt_bitsLsb_of_le (w := w') (by omega)
    (bitsAt_packBytes (n := 2) (bs := natBits 16 x) (by rw [natBits, length_bitsLsb]))
  have heq : BitVec.ofNat w' x' = BitVec.ofNat w' x := by
    rw [← ofNat_fieldNat_of_bitsAt hb', ← ofNat_fieldNat_of_bitsAt hb]
  have hxx : x' = x := by
    simpa [Nat.mod_eq_of_lt hx, Nat.mod_eq_of_lt hx'] using congrArg BitVec.toNat heq
  refine ⟨i, ?_, hxx ▸ hs⟩
  rw [withExtra, hi]

/-- `LEN s +x` means the length it spells (30_encoding.md R115). -/
theorem lenInstr_eq_some {len : Nat} (h3 : 3 ≤ len) (h258 : len ≤ 258) :
    ∃ i v w x, lenInstr len = some i ∧ i.shape = .coded .litLen v w x ∧ 257 ≤ v ∧ v ≤ 285 ∧
      rowBase lenTab (v - 257) + x = len := by
  have hgap : ∀ k < 28, rowBase lenTab (k + 1) ≤ rowBase lenTab k + 2 ^ rowWidth lenTab k := by decide
  obtain ⟨k, hk, hrow⟩ := exists_row hgap h3 (Nat.lt_succ_of_le h258)
  obtain ⟨r, x, hr, hlt, hn, hx⟩ := rowFor_of_row (Nat.lt_succ_of_le hk) hrow
  have hlt : r < 29 := hlt
  obtain ⟨i, hi, hs⟩ := withExtra_eq_some (cls := .litLen) (v := 257 + r) hx
    (fun bytes hb => litLenOperand_goes_on (by omega) (by simp only [hb]; omega)) litLenOperand_eq_instr
    fun hs => by rw [length_width hs (by omega) (by omega), Nat.add_sub_cancel_left]
  refine ⟨i, _, _, x, ?_, hs, by omega, by omega, by rw [Nat.add_sub_cancel_left, hn]⟩
  rw [lenInstr, hr]
  exact hi

/-- `DIST d +y` means the distance it spells (30_encoding.md R115). -/
theorem distInstr_eq_some {dist : Nat} (h1 : 1 ≤ dist) (hmax : dist ≤ 32768) :
    ∃ i v w y, distInstr dist = some i ∧ i.shape = .coded .dist v w y ∧ v < 30 ∧ rowBase distTab v + y = dist := by
  have hgap : ∀ k < 29, rowBase distTab (k + 1) ≤ rowBase distTab k + 2 ^ rowWidth distTab k := by decide
  obtain ⟨k, hk, hrow⟩ := exists_row hgap h1 (Nat.lt_succ_of_le hmax)
  obtain ⟨r, y, hr, hlt, hn, hy⟩ := rowFor_of_row (Nat.lt_succ_of_le hk) hrow
  have hlt : r < 30 := hlt
  obtain ⟨i, hi, hs⟩ := withExtra_eq_some (cls := .dist) (v := r) hy
    (fun bytes hb => distOperand_goes_on (by omega) (by simp only [hb]; omega)) distOperand_eq_instr
    fun hs => distance_width hs hlt
  refine ⟨i, _, _, y, ?_, hs, hlt, hn⟩
  rw [distInstr, hr]
  exact hi

namespace Machine

/-- A length symbol sets the length its row and extra value say (43_block_decoder.md R233). -/
theorem setsLength_of_length {i : Instr} {v w x : Nat} (h : i.shape = .coded .litLen v w x) (h1 : 257 ≤ v)
    (h2 : v ≤ 285) : SetsLength i (rowBase lenTab (v - 257) + x) :=
  fun s => exec_of_length h h1 h2 s

/-- The end of a code-length symbol opens no back-reference. -/
theorem lensFilled_distNext {s : State} (h : s.distNext = false) : s.lensFilled.distNext = false := by
  rcases lensFilled_cases s with ⟨-, he⟩ | he | ⟨_, _, -, -, -, he⟩ <;> rw [he]
  · exact h
  · rfl
  · exact h

/-- A symbol that is no length symbol opens no back-reference. -/
theorem distNext_of_coded {i : Instr} {cls : SymClass} {v w x : Nat} {s t : State} (hi : i.shape = .coded cls v w x)
    (hno : cls = .litLen → 257 ≤ v → 286 ≤ v) (hs : s.distNext = false) (h : exec i s = .next t) :
    t.distNext = false := by
  cases cls with
  | cl =>
    rcases cl_cases_exec hi s with he | ⟨r, l, -, he, -⟩ <;> cases he.symm.trans h
    · rfl
    · exact lensFilled_distNext hs
  | litLen =>
    rcases litLen_cases hi with ⟨b, rfl⟩ | rfl | ⟨h1, h2⟩ | hu
    · rcases execLit_eq_next h with rfl | ⟨rfl, -⟩
      · rfl
      · exact hs
    · cases h
      exact hs
    · have := hno rfl h1
      omega
    · cases (exec_of_undefined (.inl ⟨hi, hu⟩) s).symm.trans h
      rfl
  | dist =>
    by_cases hv : v < 30
    · rcases distanceSymbol_eq_next ((exec_of_distance hi hv s).symm.trans h) with ⟨e, -, rfl⟩ | ⟨m, rfl, -⟩ <;> rfl
    · cases (exec_of_undefined (.inr ⟨hi, by omega⟩) s).symm.trans h
      rfl

/-- A header opens no back-reference. -/
theorem distNext_of_header {i : Instr} {s t : State} (hi : i.shape.header? ≠ none) (hs : s.distNext = false)
    (h : exec i s = .next t) : t.distNext = false := by
  obtain ⟨j, hj⟩ := Option.ne_none_iff_exists'.1 hi
  obtain rfl := eq_of_header hj
  cases hshape : i.shape <;> rw [hshape] at hj <;> cases hj
  case env cmf flg =>
    rcases execEnv_cases cmf flg s with he | ⟨e, -, he⟩ <;> cases he.symm.trans h
    · exact hs
    · rfl
  case blk btype f =>
    rcases blkInstr_cases btype f with he | he | he | he <;> rw [he] at h <;> cases h
    · exact hs
    · exact hs
    · exact hs
    · rfl
  case stored len nlen =>
    rcases execStored_eq_next h with ⟨e, -, rfl⟩ | ⟨m, rfl, -⟩
    · rfl
    · exact hs
  case dynHdr x y z ls =>
    rcases execDynHdr_cases x y z ls s with he | ⟨cl, -, he⟩ <;> cases he.symm.trans h
    · rfl
    · exact hs
  case trailer v =>
    obtain ⟨bs, -, rfl | rfl⟩ := execTrailer_eq_next h
    · exact hs
    · rfl

/-- Only a length symbol opens a back-reference (43_block_decoder.md R233). -/
theorem length_of_distNext {i : Instr} {s t : State} (h : exec i s = .next t) (hs : s.distNext = false)
    (ht : t.distNext = true) : ∃ v w x, i.shape = .coded .litLen v w x ∧ 257 ≤ v ∧ v ≤ 285 := by
  by_contra hno
  refine absurd ht (ne_true_of_eq_false ?_)
  by_cases hh : i.shape.header? = none
  · obtain ⟨cls, v, w, x, hi⟩ := coded_of_header_none hh
    refine distNext_of_coded hi (fun hcls h1 => ?_) hs h
    by_contra h2
    exact hno ⟨v, w, x, hcls ▸ hi, h1, by omega⟩
  · exact distNext_of_header hh hs h

/-- An instruction that sets a length is the length symbol of a row that spells it. -/
theorem row_of_setsLength {i : Instr} {len : Nat} (h : SetsLength i len) (hlen : len < 258) :
    ∃ k x, k ≤ 28 ∧ i.shape = .coded .litLen (257 + k) (rowWidth lenTab k) x ∧ rowBase lenTab k + x = len := by
  obtain ⟨v, w, x, hs, h1, h2⟩ := length_of_distNext (h State.reset) rfl rfl
  obtain ⟨k, rfl⟩ := Nat.exists_eq_add_of_le h1
  have hw := length_width hs h1 h2
  have hr := length_range hs h1 h2
  have hset := setsLength_of_length hs h1 h2
  rw [Nat.add_sub_cancel_left] at hw hr hset
  refine ⟨k, x, by omega, hw ▸ hs, ?_⟩
  have hmlen := congrArg (fun t => t.mlen.toNat) (Host.Outcome.next.inj ((hset State.reset).symm.trans (h State.reset)))
  simp only [BitVec.toNat_ofNat] at hmlen
  omega

/-- Below 258 the rows of the length table do not overlap (43_block_decoder.md R269). -/
theorem row_unique {k k' x x' : Nat} (hk : k ≤ 28) (hk' : k' ≤ 28) (hx : x < 2 ^ rowWidth lenTab k)
    (hx' : x' < 2 ^ rowWidth lenTab k') (h : rowBase lenTab k + x = rowBase lenTab k' + x')
    (hlt : rowBase lenTab k + x < 258) : k = k' := by
  have hend : ∀ k ≤ 28, ∀ k' ≤ 28, k < k' → min 258 (rowBase lenTab k + 2 ^ rowWidth lenTab k) ≤ rowBase lenTab k' := by
    decide
  rcases Nat.lt_trichotomy k k' with hc | hc | hc
  · have := hend k hk k' hk' hc
    omega
  · exact hc
  · have := hend k' hk' k hk hc
    omega

/-- Settles O60: both tables have a row for every number they span, and below 258 the rows of the length table do not
overlap, so a length fixes the symbol, its extra value and hence the instruction. -/
theorem matchSpellsEveryBackReference : Obligations.MatchSpellsEveryBackReference := by
  unfold Obligations.MatchSpellsEveryBackReference
  refine ⟨fun len dist h3 h258 h1 hmax => ?_, fun i j len hi hj _ hlen => ?_⟩
  · obtain ⟨i, v, w, x, hi, hs, hv1, hv2, rfl⟩ := lenInstr_eq_some h3 h258
    obtain ⟨j, v', w', y, hj, hs', hv', rfl⟩ := distInstr_eq_some h1 hmax
    refine ⟨i, j, ?_, setsLength_of_length hs hv1 hv2, copiesBack_of_distance hs' hv'⟩
    rw [matchInstrs, hi, hj]
  · obtain ⟨k, x, hk, hs, hx⟩ := row_of_setsLength hi hlen
    obtain ⟨k', x', hk', hs', hx'⟩ := row_of_setsLength hj hlen
    obtain rfl := row_unique hk hk' (extra_lt hs).1 (extra_lt hs').1 (hx.trans hx'.symm) (by omega)
    obtain rfl : x = x' := by omega
    exact shape_injective (hs.trans hs'.symm)

end Machine

end Sys2Proof

/-! ### The bit cursor -/

namespace Sys2Proof

/-- A field is its first `m` bits and, above them, the field that follows. -/
theorem fieldNat_add (bytes : List Byte) (p m n : Nat) :
    fieldNat bytes p (m + n) = fieldNat bytes p m + fieldNat bytes (p + m) n <<< m := by
  induction n with
  | zero => simp [fieldNat]
  | succ n ih =>
    rw [← Nat.add_assoc, fieldNat, ih, fieldNat, Nat.add_assoc p m n]
    split <;> simp only [Nat.shiftLeft_eq, Nat.pow_add] <;> ring

/-- The eight bits from a byte boundary on are the byte there. -/
theorem fieldNat_byte (bytes : List Byte) (k : Nat) : fieldNat bytes (8 * k) 8 = (bytes.getD k 0).toNat := by
  refine Nat.eq_of_testBit_eq fun i => ?_
  rw [fieldNat_testBit, BitVec.testBit_toNat]
  by_cases hi : i < 8
  · have hdiv : (8 * k + i) / 8 = k := by omega
    have hmod : (8 * k + i) % 8 = i := by omega
    simp [streamBit, hi, hdiv, hmod]
  · simp [hi, BitVec.getLsbD_of_ge _ i (Nat.le_of_not_lt hi)]

/-- A field inside a longer one is cut out of it by a shift and a remainder. -/
theorem fieldNat_shiftRight_mod {bytes : List Byte} {p m n r : Nat} (h : r + n ≤ m) :
    fieldNat bytes p m >>> r % 2 ^ n = fieldNat bytes (p + r) n := by
  refine Nat.eq_of_testBit_eq fun i => ?_
  rw [Nat.testBit_mod_two_pow, Nat.testBit_shiftRight, fieldNat_testBit, fieldNat_testBit, Nat.add_assoc]
  by_cases hi : i < n
  · have him : r + i < m := by omega
    simp [hi, him]
  · simp [hi]

/-- Five consecutive bytes as one little-endian number are a field of 40 bits. -/
theorem fieldNat_five_bytes (bytes : List Byte) (q : Nat) :
    (bytes.getD q 0).toNat + (bytes.getD (q + 1) 0).toNat <<< 8 + (bytes.getD (q + 2) 0).toNat <<< 16 +
      (bytes.getD (q + 3) 0).toNat <<< 24 + (bytes.getD (q + 4) 0).toNat <<< 32 = fieldNat bytes (8 * q) 40 := by
  have hbyte (k : Nat) : fieldNat bytes (8 * q + 8 * k) 8 = (bytes.getD (q + k) 0).toNat := by
    rw [← Nat.mul_add, fieldNat_byte]
  rw [fieldNat_add bytes (8 * q) 32 8, fieldNat_add bytes (8 * q) 24 8, fieldNat_add bytes (8 * q) 16 8,
    fieldNat_add bytes (8 * q) 8 8, hbyte 1, hbyte 2, hbyte 3, hbyte 4, fieldNat_byte]

/-- The barrel shifter looks at 40 bits from the cursor's byte on; they hold a field of up to 32 bits that starts at most
7 bits in (40_bit_cursor.md R146). -/
theorem barrelShift_eq_fieldNat (bytes : List Byte) {p n : Nat} (hn : n ≤ 32) :
    barrelShift bytes p n = fieldNat bytes p n := by
  calc barrelShift bytes p n
      = fieldNat bytes (8 * (p / 8)) 40 >>> (p % 8) % 2 ^ n := by
        simp only [barrelShift, ← fieldNat_five_bytes, Nat.mul_zero, Nat.add_zero, Nat.shiftLeft_zero, Nat.reduceMul]
    _ = fieldNat bytes (8 * (p / 8) + p % 8) n := fieldNat_shiftRight_mod (by omega)
    _ = fieldNat bytes p n := by rw [Nat.div_add_mod]

theorem ofNat_fieldNat_getLsbD (bytes : List Byte) (p : Nat) {n i : Nat} (hi : i < n) :
    (BitVec.ofNat n (fieldNat bytes p n)).getLsbD i = streamBit bytes (p + i) := by
  rw [BitVec.getLsbD_ofNat, fieldNat_testBit]
  simp [hi]

theorem ofNat_fieldNat_one (bytes : List Byte) (p : Nat) :
    BitVec.ofNat 1 (fieldNat bytes p 1) = BitVec.ofBool (streamBit bytes p) := by
  cases hb : streamBit bytes p <;> simp [fieldNat, hb]

theorem readBits_tooWide {n : Nat} {c : Cursor} (h : 32 < n) : c.readBits n = .error (.tooWide n) :=
  if_pos h

/-- Settles O1: a read inside the input answers the field at the cursor, whose bits are the stream's. -/
theorem readBitsReadsTheField : Obligations.ReadBitsReadsTheField := by
  unfold Obligations.ReadBitsReadsTheField
  refine ⟨fun n c hn h => readBits_truncated hn h, fun n c hn h => ⟨_, readBits_ok hn h, fun i hi => ?_⟩, fun c h => ?_,
    fun c h => ?_, fun c h => ?_, fun n c h => readBits_tooWide h⟩
  · exact ofNat_fieldNat_getLsbD c.bytes c.pos hi
  · exact readBits_ok (Nat.zero_le 32) h
  · rw [Cursor.readBit, readBits_ok (by decide) h, ofNat_fieldNat_one]
  · exact readBits_truncated (by decide) (by omega)

/-- Settles O2, by the laws of `alignUp`. -/
theorem alignAndRemainingBytes : Obligations.AlignAndRemainingBytes := by
  unfold Obligations.AlignAndRemainingBytes
  refine ⟨fun c h => ?_, fun c h => ?_, fun c => ⟨alignUp_mod c.pos, alignUp_le⟩, fun s => rfl⟩
  · rw [Cursor.align, alignUp_of_aligned h]
  · rw [Cursor.align, alignUp, if_neg h]

/-- Settles O3: the read answers the field, which is what the barrel shifter cuts out. -/
theorem barrelShifterReadsTheField : Obligations.BarrelShifterReadsTheField := by
  unfold Obligations.BarrelShifterReadsTheField
  intro bytes p n hn h
  rw [readBits_ok hn h, barrelShift_eq_fieldNat bytes hn]

end Sys2Proof

/-! ### Every step goes on

An instruction faults only over a byte that holds no value, a fetch only where the invariant or the host's duty is broken,
and neither is ever refused. One predicate on outcomes says both, so that each operation is treated once. -/

namespace Sys2Proof.Machine

/-- A next state, or a fault, which `duty` excludes; never a refusal. -/
def GoesOnIf (duty : Prop) : Result → Prop
  | .next _ => True
  | .fault _ => ¬ duty
  | .refused _ => False

theorem goesOnIf_of_next {duty : Prop} {r : Result} {t : State} (h : r = .next t) : GoesOnIf duty r := by
  rw [h]
  trivial

theorem goesOnIf_of_fault {duty : Prop} {r : Result} {f : Fault} (h : r = .fault f) (hd : ¬ duty) : GoesOnIf duty r := by
  rwa [h]

theorem GoesOnIf.mono {duty duty' : Prop} {r : Result} (h : GoesOnIf duty r) (hd : duty' → duty) : GoesOnIf duty' r := by
  cases r with
  | next t => trivial
  | fault f => exact fun hd' => h (hd hd')
  | refused f => exact h

theorem GoesOnIf.exists_next {duty : Prop} {r : Result} (h : GoesOnIf duty r) (hd : duty) : ∃ t, r = .next t := by
  cases r with
  | next t => exact ⟨t, rfl⟩
  | fault f => exact absurd hd h
  | refused f => exact h.elim

theorem GoesOnIf.ne_refused {duty : Prop} {r : Result} (h : GoesOnIf duty r) (f : Refusal) : r ≠ .refused f := by
  rintro rfl
  exact h

/-- Every byte of the input and of the output so far holds a value. -/
def State.Written (s : State) : Prop :=
  s.InputWritten ∧ ∀ a, a < s.outLen → (Memory.read s.outMem a).isSome = true

/-- Everything the copy loop can do, whatever is written. -/
theorem copyBytes_cases (k src : Nat) (s : State) :
    copyBytes k src s = .fault .outputUnwritten ∨ ∃ t, copyBytes k src s = .next t := by
  induction k generalizing src s with
  | zero => exact .inr ⟨s, rfl⟩
  | succ k ih =>
    rw [copyBytes]
    split
    · exact .inl rfl
    · exact ih _ _

/-- A copy that starts below `out_len` reads written bytes only. -/
theorem copyBytes_goesOn (k : Nat) {src : Nat} {s : State} (h : src < s.outLen) :
    GoesOnIf s.Written (copyBytes k src s) := by
  rcases copyBytes_cases k src s with hf | ⟨t, ht⟩
  · refine goesOnIf_of_fault hf fun hw => ?_
    obtain ⟨m, hm, -⟩ := copyBytes_spec k src s h hw.2
    simp [hm] at hf
  · exact goesOnIf_of_next ht

/-- A stored copy of no more bytes than remain reads the input only (43_block_decoder.md R228). -/
theorem storedBytes_goesOn {k : Nat} {s : State} (h : k ≤ s.remainingBytes) :
    GoesOnIf s.Written (storedBytes k s) := by
  rcases storedBytes_cases k s with hf | hw
  · refine goesOnIf_of_fault hf fun hw => ?_
    obtain ⟨m, hm, -⟩ := storedBytes_spec k s fun j hj => hw.1 _ (by rw [State.remainingBytes] at h; omega)
    simp [hm] at hf
  · obtain ⟨m, hm, -⟩ := storedBytes_spec k s hw
    exact goesOnIf_of_next hm

theorem execStored_goesOn (len nlen : BitVec 16) (s : State) : GoesOnIf s.Written (execStored len nlen s) := by
  unfold execStored
  simp only
  split
  · trivial
  split
  · trivial
  next hr =>
    split
    · trivial
    · have hcopy := storedBytes_goesOn (Nat.le_of_not_lt hr)
      cases hs : storedBytes len.toNat { s with slen := len, snlen := nlen } with
      | next t => trivial
      | fault f => rw [hs] at hcopy; exact hcopy
      | refused f => exact absurd hs (hcopy.ne_refused f)

theorem execTrailer_goesOn (v : Word) (s : State) : GoesOnIf s.Written (execTrailer v s) := by
  unfold execTrailer
  split
  · next hn =>
    intro hw
    have := readRange_isSome (m := s.outMem) (a := 0) (k := s.outLen) fun j hj => by
      rw [Nat.zero_add]
      exact hw.2 j hj
    simp [hn] at this
  · simp only
    split <;> trivial

/-- A distance is at least 1 and is checked against `out_len` before the copy (43_block_decoder.md R235). -/
theorem distanceSymbol_goesOn {row y : Nat} (s : State) (h1 : 1 ≤ rowBase distTab row + y)
    (h16 : rowBase distTab row + y < 2 ^ 16) : GoesOnIf s.Written (distanceSymbol row y s) := by
  have hdist : (BitVec.ofNat 16 (rowBase distTab row + y)).toNat = rowBase distTab row + y := by
    rw [BitVec.toNat_ofNat, Nat.mod_eq_of_lt h16]
  unfold distanceSymbol appendCopy
  simp only [hdist]
  split
  · trivial
  split
  · trivial
  · exact copyBytes_goesOn _ (by simp only; omega)

theorem execLit_goesOn (duty : Prop) (b : Byte) (s : State) : GoesOnIf duty (execLit b s) := by
  unfold execLit appendByte
  split <;> trivial

/-- Every instruction goes on in every state, except over a byte that holds no value. -/
theorem exec_goesOn (i : Instr) (s : State) : GoesOnIf s.Written (exec i s) := by
  cases hs : i.shape with
  | env a b =>
    cases i <;> simp only [Instr.shape, reduceCtorEq] at hs
    rcases execEnv_cases _ _ s with he | ⟨_, _, he⟩ <;> exact goesOnIf_of_next he
  | blk a b => cases i <;> simp only [Instr.shape, reduceCtorEq] at hs <;> trivial
  | stored a b =>
    cases i <;> simp only [Instr.shape, reduceCtorEq] at hs
    exact execStored_goesOn _ _ s
  | dynHdr a b c d =>
    cases i <;> simp only [Instr.shape, reduceCtorEq] at hs
    rcases execDynHdr_cases _ _ _ _ s with he | ⟨_, _, he⟩ <;> exact goesOnIf_of_next he
  | trailer v =>
    cases i <;> simp only [Instr.shape, reduceCtorEq] at hs
    exact execTrailer_goesOn _ s
  | coded cls v w x =>
    cases cls with
    | cl => rcases cl_cases_exec hs s with he | ⟨_, _, _, he, _⟩ <;> exact goesOnIf_of_next he
    | litLen =>
      rcases litLen_cases hs with ⟨b, rfl⟩ | rfl | ⟨h1, h2⟩ | hu
      · exact execLit_goesOn _ b s
      · trivial
      · exact goesOnIf_of_next (exec_of_length hs h1 h2 s)
      · exact goesOnIf_of_next (exec_of_undefined (.inl ⟨hs, hu⟩) s)
    | dist =>
      by_cases hv : v < 30
      · obtain ⟨h1, hmax⟩ := distance_range hs hv
        rw [exec_of_distance hs hv]
        exact distanceSymbol_goesOn s h1 (by omega)
      · exact goesOnIf_of_next (exec_of_undefined (.inr ⟨hs, Nat.le_of_not_lt hv⟩) s)

/-- The invariant puts a table into every slot a symbol is wanted from (10_state.md R35). -/
theorem State.Inv.select_ne_noTable {s : State} (h : s.Inv) : s.select ≠ .noTable := by
  unfold State.select
  cases hf : s.fsm with
  | dynLens =>
    obtain ⟨⟨-, -, ⟨t, ht, -⟩, -⟩, -⟩ := h.lensTables hf
    simp [ht, Select.fromSlot]
  | symbol =>
    obtain ⟨⟨lit, hlit, -⟩, ⟨dist, hdist, -⟩, -⟩ := h.symbolTables hf
    cases s.distNext <;> simp [hlit, hdist, Select.fromSlot]
  | _ => simp

/-- A fetch that stops faults only where the view ends at a byte the host never wrote. -/
theorem stopFetch_goesOn {w : Stop} (p : Part) (pos : Nat) (s : State) (hw : ∀ n, w ≠ .tooWide n) :
    GoesOnIf s.InputWritten (stopFetch w p pos s) := by
  cases w with
  | truncated =>
    unfold stopFetch
    simp only
    split
    · next hcut => exact fun hin => by simp [windowCut_false hin] at hcut
    · trivial
  | noMatchingCode => trivial
  | undefinedSymbol => trivial
  | tooWide n => exact absurd rfl (hw n)

/-- Every fetch goes on, except where the invariant or the host's duty is broken. -/
theorem fetchExec_goesOn (s : State) : GoesOnIf (s.Inv ∧ s.InputWritten) (fetchExec s) := by
  unfold fetchExec
  split
  · trivial
  · next hs => exact fun hd => hd.1.select_ne_noTable hs
  · next c hs =>
    split
    · next i pos hd => exact (exec_goesOn i (s.seek pos)).mono fun hd => ⟨hd.2, hd.1.outWritten⟩
    · next w p pos hd =>
      have hin := decode_inside c s.bitOffset s.window
      rw [hd] at hin
      obtain ⟨-, -, -, hwide⟩ := hin
      exact (stopFetch_goesOn p pos s hwide).mono And.right

/-- Between a length symbol and its distance symbol the invariant and the host's duty still hold. -/
theorem fetchExec_keeps_duty {s t : State} (h : fetchExec s = .next t) (hd : s.Inv ∧ s.InputWritten) :
    t.Inv ∧ t.InputWritten := by
  obtain ⟨hi, hin⟩ := hd
  have hsteady := fetchExec_steady h
  refine ⟨?_, by rwa [State.InputWritten, hsteady.inMem, hsteady.endOffset]⟩
  rcases fetchExec_lands hi h with ⟨-, rfl⟩ | ⟨c, -, ht, -⟩
  · exact hi
  · exact ht

/-- Every step goes on, except where the invariant or the host's duty is broken. -/
theorem step_goesOn (s : State) : GoesOnIf (s.Inv ∧ s.InputWritten) (step s) := by
  have hfetch := fetchExec_goesOn s
  unfold step
  cases hu : fetchExec s with
  | next u =>
    rw [finishElement]
    split
    · exact (fetchExec_goesOn u).mono (fetchExec_keeps_duty hu)
    · trivial
  | fault f => rwa [hu] at hfetch
  | refused f => exact absurd hu (hfetch.ne_refused f)

/-- Settles O54: every step goes on where the invariant and the host's duty hold, and none is refused anywhere. -/
theorem writtenInputNeverFaults : Obligations.WrittenInputNeverFaults := by
  unfold Obligations.WrittenInputNeverFaults
  exact ⟨fun s hi hin => (step_goesOn s).exists_next ⟨hi, hin⟩, fun s => (step_goesOn s).ne_refused⟩

end Sys2Proof.Machine

/-! ### The canonical Huffman table

The obligations of 41_huffman_table.md, by `decode_ofLens_cases`, `codeOf_ofLens` and the two directions of R170,
`decode_of_code` and `code_of_decode`. -/

namespace Sys2Proof

/-- Settles O6: what is decoded is a code that stands there, and the code that stands there is decoded. -/
theorem decodeFindsTheCode : Obligations.DecodeFindsTheCode := by
  unfold Obligations.DecodeFindsTheCode
  intro lens t c hn hb v c'
  obtain ⟨rfl, hf⟩ := build_eq_some hb
  constructor
  · intro h
    obtain ⟨len, code, hcode, -, -, -, hbits, hc'⟩ := code_of_decode hn hf h
    exact ⟨len, code, hcode, hbits, hc'⟩
  · rintro ⟨len, code, hcode, hbits, rfl⟩
    exact decode_of_code hn hf hcode hbits

/-! Which length sets `build` rejects (41_huffman_table.md R163, R164). -/

theorem build_eq_none_iff {lens : List Nat} : Table.build lens = none ↔ ¬ lensFit lens = true := by
  simp [Table.build]

theorem stopOf_succ (lens : List Nat) (l : Nat) : stopOf lens (l + 1) = 2 * stopOf lens l + countOf lens (l + 1) := by
  rw [stopOf, startOf_succ]

/-- The Kraft sum of the lengths up to `n`, times `2 ^ n`, is where the codes of length `n` end. -/
theorem sum_countOf_eq_stopOf (lens : List Nat) (n : Nat) :
    ((List.range' 1 n).map fun len => countOf lens len * 2 ^ (n - len)).sum = stopOf lens n := by
  induction n with
  | zero => rfl
  | succ n ih =>
    have hdouble : ((List.range' 1 n).map fun len => countOf lens len * 2 ^ (n + 1 - len)) =
        (List.range' 1 n).map fun len => 2 * (countOf lens len * 2 ^ (n - len)) := by
      refine List.map_congr_left fun len hlen => ?_
      rw [List.mem_range'_1] at hlen
      rw [show n + 1 - len = n - len + 1 by omega, Nat.pow_succ']
      ring
    rw [List.range'_1_concat, List.map_append, List.sum_append, hdouble, List.sum_map_mul_left, ih, stopOf_succ]
    simp [Nat.add_comm 1 n]

/-- The codes of length `l`, continued by `k` bits, stay below the end of the codes of length `l + k`. -/
theorem stopOf_mul_le_stopOf (lens : List Nat) (l k : Nat) : stopOf lens l * 2 ^ k ≤ stopOf lens (l + k) := by
  induction k with
  | zero => simp
  | succ k ih =>
    rw [← Nat.add_assoc, stopOf_succ, Nat.pow_succ', Nat.mul_left_comm]
    omega

/-- Every range fits its length exactly if the last one does. -/
theorem lensFit_iff_stopOf_le {lens : List Nat} : lensFit lens = true ↔ stopOf lens 15 ≤ 2 ^ 15 := by
  refine ⟨fun h => stopOf_le h 15 le_rfl, fun h => lensFit_iff.2 fun l _ hl _ => ?_⟩
  obtain ⟨k, hk⟩ := Nat.exists_eq_add_of_le hl
  rw [hk, Nat.pow_add] at h
  exact Nat.le_of_mul_le_mul_right ((stopOf_mul_le_stopOf lens l k).trans h) (Nat.two_pow_pos k)

/-- Settles O4: the ranges that do not fit by `lensFit_iff`, the Kraft sum as the end of the last range. -/
theorem buildRejectsOversubscribedSets : Obligations.BuildRejectsOversubscribedSets := by
  unfold Obligations.BuildRejectsOversubscribedSets
  intro lens
  constructor
  · rw [build_eq_none_iff, lensFit_iff]
    push Not
    refine exists_congr fun l => and_congr_right fun _ => and_congr_right fun _ => ?_
    have := Nat.two_pow_pos l
    omega
  · rw [build_eq_none_iff, lensFit_iff_stopOf_le, sum_countOf_eq_stopOf, not_le]

/-! The code of a value (41_huffman_table.md R160, R162, R165). -/

theorem countOf_of_pos (lens : List Nat) {len : Nat} (h : 1 ≤ len) : countOf lens len = lens.countP (· == len) := by
  rw [countOf, if_neg (by simp; omega)]

/-- Among the symbols of one length, a value stands after the smaller values of that length. -/
theorem symsOfLength_getElem?_countP {lens : List Nat} {v len : Nat} (w : Nat) (h : lens[v]? = some len) :
    (symsOfLength len w lens)[(lens.take v).countP (· == len)]? = some (Sym.of (w + v) len) := by
  induction lens generalizing v w with
  | nil => simp at h
  | cons l ls ih =>
    cases v with
    | zero =>
      obtain rfl : l = len := by simpa using h
      simp [symsOfLength]
    | succ v =>
      have hrest := ih (w + 1) (by simpa using h)
      rw [show w + 1 + v = w + (v + 1) by omega] at hrest
      rw [symsOfLength, List.take_succ_cons, List.countP_cons]
      split <;> simpa using hrest

/-- No symbol stands twice among the symbols of one length. -/
theorem symsOfLength_nodup {lens : List Nat} (hn : lens.length ≤ 2 ^ 11) {len : Nat} (h : len < 16) :
    (symsOfLength len 0 lens).Nodup :=
  (symsOfLength_pairwise h (by omega)).imp fun hlt he => by simp [he] at hlt

/-- The code of a value is the start of its length plus the number of smaller values of that length. -/
theorem codeOf_ofLens_eq {lens : List Nat} (hn : lens.length ≤ 2 ^ 11) {v len : Nat} (h : lens[v]? = some len)
    (h1 : 1 ≤ len) (h15 : len ≤ 15) :
    (Table.ofLens lens).codeOf v = some (len, startOf lens len + (lens.take v).countP (· == len)) := by
  obtain ⟨code, hcode⟩ := codeOf_isSome hn h1 h15 h
  obtain ⟨-, -, -, k, hk, rfl, hsym⟩ := codeOf_ofLens hn hcode
  rw [syms_getElem? hn h1 h15 hk] at hsym
  have hplace := symsOfLength_getElem?_countP 0 h
  rw [Nat.zero_add] at hplace
  have hlt : k < (symsOfLength len 0 lens).length := by rwa [length_symsOfLength, ← countOf_of_pos lens h1]
  rw [hcode, (List.getElem?_inj hlt (symsOfLength_nodup hn (by omega))).1 (hsym.trans hplace.symm)]

/-- Settles O5: the codes by `codeOf_ofLens_eq`, and a value with a code has a length in `1..15`. -/
theorem codesAreCanonical : Obligations.CodesAreCanonical := by
  unfold Obligations.CodesAreCanonical
  intro lens t hn hb
  obtain ⟨rfl, -⟩ := build_eq_some hb
  refine ⟨fun v len h h1 h15 => ?_, fun v h => ?_, startAt_ofLens lens (by omega), fun len h1 h15 => ?_⟩
  · rw [startAt_ofLens lens (by omega), codeOf_ofLens_eq hn h h1 h15]
  · rw [Option.eq_none_iff_forall_ne_some]
    rintro ⟨len, code⟩ hcode
    obtain ⟨h1, -, hlen, -⟩ := codeOf_ofLens hn hcode
    rw [h] at hlen
    cases hlen
    omega
  · rw [startAt_ofLens lens (by omega), startAt_ofLens lens (by omega), startOf_succ, stopOf,
      countOf_of_pos lens h1]

/-! Decoding where no code stands (41_huffman_table.md R167 to R169). -/

/-- The greatest length with a symbol has one. -/
theorem countOf_lmaxOf {lens : List Nat} {n : Nat} (h : lmaxOf lens n ≠ 0) : countOf lens (lmaxOf lens n) ≠ 0 := by
  induction n with
  | zero => exact absurd rfl h
  | succ n ih =>
    rw [lmaxOf] at h ⊢
    split
    · next h0 => exact ih (by rwa [if_pos h0] at h)
    · next h0 => simpa using h0

/-- A table without symbols has no greatest length. -/
theorem lmax_of_syms_nil {lens : List Nat} (h : (Table.ofLens lens).syms = []) : (Table.ofLens lens).lmax = 0 := by
  have hmax := lmax_ofLens_le lens
  by_contra h0
  have hcount : countOf lens (Table.ofLens lens).lmax ≠ 0 := countOf_lmaxOf h0
  have hnil : symsOfLength (Table.ofLens lens).lmax 0 lens = [] :=
    List.flatMap_eq_nil_iff.1 h _ (by rw [List.mem_range'_1, Config.maxCodeLen]; omega)
  rw [countOf_of_pos lens (by omega), ← length_symsOfLength _ 0, hnil] at hcount
  exact hcount rfl

/-- Settles O7: of the three things a decode can do, finding a symbol is left out. -/
theorem decodeWithoutACode : Obligations.DecodeWithoutACode := by
  unfold Obligations.DecodeWithoutACode
  intro lens t c hn hb hnone
  obtain ⟨rfl, hf⟩ := build_eq_some hb
  have hempty : (Table.ofLens lens).syms = [] → (Table.ofLens lens).decode c = .stop .noMatchingCode c := fun h => by
    rw [Table.decode, lmax_of_syms_nil h, Table.decodeLoop]
  rcases decode_ofLens_cases lens hn c with ⟨l, v, -, -, -, -, -, -, hd⟩ | ⟨l, -, hl, hend, -, -, hd⟩ | ⟨-, hend, hd⟩
  · obtain ⟨len, code, hcode, -, -, -, hbits, -⟩ := code_of_decode hn hf hd
    exact absurd hbits (hnone v len code hcode)
  · exact ⟨fun h => by omega, fun _ _ => ⟨_, hd⟩, hempty, lmax_ofLens_le lens⟩
  · exact ⟨fun _ => hd, fun h0 h => absurd (hend h0) (by omega), hempty, lmax_ofLens_le lens⟩

/-! The codes of the fixed tables (41_huffman_table.md R175 to R178, R180). -/

theorem fixedLit_fits : lensFit fixedLitLens = true := by decide +kernel

theorem fixedDist_fits : lensFit fixedDistLens = true := by decide +kernel

theorem length_fixedLitLens_le : fixedLitLens.length ≤ 2 ^ 11 := by decide +kernel

theorem length_fixedDistLens_le : fixedDistLens.length ≤ 2 ^ 11 := by decide +kernel

/-- Along a run of values of one length the codes count up, from the code after those of the values before the run. -/
theorem codeOf_of_run {lens before after : List Nat} {n len k : Nat} (hn : lens.length ≤ 2 ^ 11)
    (he : lens = before ++ (List.replicate n len ++ after)) (hk : k < n) (h1 : 1 ≤ len) (h15 : len ≤ 15) :
    (Table.ofLens lens).codeOf (before.length + k) =
      some (len, startOf lens len + (before.countP (· == len) + k)) := by
  have hlen : lens[before.length + k]? = some len := by
    rw [he, List.getElem?_append_right (by omega), Nat.add_sub_cancel_left,
      List.getElem?_append_left (by simpa using hk), List.getElem?_replicate_of_lt hk]
  have hcount : (lens.take (before.length + k)).countP (· == len) = before.countP (· == len) + k := by
    rw [he, List.take_length_add_append, List.countP_append, List.take_append_of_le_length (by simp; omega),
      List.take_replicate, Nat.min_eq_left (by omega)]
    simp [List.countP_replicate]
  rw [codeOf_ofLens_eq hn hlen h1 h15, hcount]

/-- The start codes of the fixed tables (41_huffman_table.md R176, R178). -/
theorem startOf_fixed :
    (startOf fixedLitLens 7 = 0 ∧ startOf fixedLitLens 8 = 0x30 ∧ startOf fixedLitLens 9 = 0x190) ∧
      startOf fixedDistLens 5 = 0 := by decide +kernel

/-- The literals below 144 (41_huffman_table.md R176, first row). -/
theorem codeOf_fixedLit_lowLiteral {k : Nat} (hk : k < 144) : Table.fixedLit.codeOf k = some (8, 0x30 + k) := by
  obtain ⟨⟨-, hstart, -⟩, -⟩ := startOf_fixed
  have h := codeOf_of_run (before := []) length_fixedLitLens_le
    (by rw [fixedLitLens, List.append_assoc, List.append_assoc, List.nil_append]) hk (by omega) (by omega)
  rw [hstart] at h
  simpa [Table.fixedLit] using h

/-- The literals from 144 on (41_huffman_table.md R176, second row). -/
theorem codeOf_fixedLit_highLiteral {k : Nat} (hk : k < 112) :
    Table.fixedLit.codeOf (144 + k) = some (9, 0x190 + k) := by
  obtain ⟨⟨-, -, hstart⟩, -⟩ := startOf_fixed
  have h := codeOf_of_run length_fixedLitLens_le (by rw [fixedLitLens, List.append_assoc, List.append_assoc]) hk
    (by omega) (by omega)
  rw [hstart, List.length_replicate, List.countP_replicate] at h
  simpa [Table.fixedLit] using h

/-- The end of block and the length symbols below 280 (41_huffman_table.md R176, third row). -/
theorem codeOf_fixedLit_lowLength {k : Nat} (hk : k < 24) : Table.fixedLit.codeOf (256 + k) = some (7, k) := by
  obtain ⟨⟨hstart, -, -⟩, -⟩ := startOf_fixed
  have h := codeOf_of_run length_fixedLitLens_le (by rw [fixedLitLens, List.append_assoc]) hk (by omega) (by omega)
  rw [hstart, List.length_append, List.length_replicate, List.length_replicate, List.countP_append,
    List.countP_replicate, List.countP_replicate] at h
  simpa [Table.fixedLit] using h

/-- The symbols from 280 on (41_huffman_table.md R176, last row). -/
theorem codeOf_fixedLit_highLength {k : Nat} (hk : k < 8) :
    Table.fixedLit.codeOf (280 + k) = some (8, 0xC0 + k) := by
  obtain ⟨⟨-, hstart, -⟩, -⟩ := startOf_fixed
  have h := codeOf_of_run (after := []) length_fixedLitLens_le (by rw [fixedLitLens, List.append_nil]) hk
    (by omega) (by omega)
  rw [hstart] at h
  simp only [List.length_append, List.length_replicate, List.countP_append, List.countP_replicate] at h
  rw [Table.fixedLit]
  simpa [← Nat.add_assoc] using h

/-- The distance symbols (41_huffman_table.md R178). -/
theorem codeOf_fixedDist {k : Nat} (hk : k < 32) : Table.fixedDist.codeOf k = some (5, k) := by
  obtain ⟨-, hstart⟩ := startOf_fixed
  have h := codeOf_of_run (before := []) (after := []) length_fixedDistLens_le
    (by rw [fixedDistLens, List.append_nil, List.nil_append]) hk (by omega) (by omega)
  rw [hstart] at h
  simpa [Table.fixedDist] using h

/-- Settles O8: the counts, the start codes and the order of the symbols by evaluation, the codes run by run. -/
theorem fixedCodes : Obligations.FixedCodes := by
  unfold Obligations.FixedCodes
  refine ⟨if_pos fixedLit_fits, if_pos fixedDist_fits, by decide +kernel, by decide +kernel, by decide +kernel,
    fun v h => codeOf_fixedLit_lowLiteral h, fun v h h' => ?_, fun v h h' => ?_, fun v h h' => ?_, by decide +kernel,
    fun d h => codeOf_fixedDist h⟩
  · obtain ⟨k, rfl⟩ := Nat.exists_eq_add_of_le h
    rw [Nat.add_sub_cancel_left, codeOf_fixedLit_highLiteral (by omega)]
  · obtain ⟨k, rfl⟩ := Nat.exists_eq_add_of_le h
    rw [Nat.add_sub_cancel_left, codeOf_fixedLit_lowLength (by omega)]
  · obtain ⟨k, rfl⟩ := Nat.exists_eq_add_of_le h
    rw [Nat.add_sub_cancel_left, codeOf_fixedLit_highLength (by omega)]

/-! Complete tables: a length set whose Kraft sum is 1 leaves no string of bits without a code. -/

/-- Below the end of the codes of length `n`, some beginning of a number read MSB-first is a code. -/
theorem exists_inRange_of_lt_stopOf {lens : List Nat} {bytes : List Byte} {p n : Nat} (hn : n ≤ 15)
    (h : msbNat bytes p n < stopOf lens n) :
    ∃ l, 1 ≤ l ∧ l ≤ n ∧ (Table.ofLens lens).inRange l (msbNat bytes p l) = true := by
  induction n with
  | zero => exact absurd h (Nat.not_lt_zero _)
  | succ n ih =>
    by_cases hs : startOf lens (n + 1) ≤ msbNat bytes p (n + 1)
    · refine ⟨n + 1, by omega, le_rfl, (inRange_ofLens (by omega)).2 ⟨?_, hs, h⟩⟩
      rw [stopOf] at h
      omega
    · rw [startOf_succ, msbNat] at hs
      obtain ⟨l, h1, hl, hin⟩ := ih (by omega) (by omega)
      exact ⟨l, h1, by omega, hin⟩

section

variable {lens : List Nat} (hn : lens.length ≤ 2 ^ 11)
  (hfull : stopOf lens (Table.ofLens lens).lmax = 2 ^ (Table.ofLens lens).lmax)

include hn hfull

/-- A complete table either finds a symbol or meets the end of the input. -/
theorem decode_of_full (c : Cursor) :
    (∃ v c', (Table.ofLens lens).decode c = .sym v c') ∨
      (8 * c.bytes.length < c.pos + (Table.ofLens lens).lmax ∧
        ∃ c', (Table.ofLens lens).decode c = .stop .truncated c') := by
  rcases decode_ofLens_cases lens hn c with ⟨l, v, -, -, -, -, -, -, hd⟩ | ⟨l, -, hl, hend, -, -, hd⟩ | ⟨hno, -, -⟩
  · exact .inl ⟨v, _, hd⟩
  · exact .inr ⟨by omega, _, hd⟩
  · obtain ⟨l, h1, hl, hin⟩ := exists_inRange_of_lt_stopOf (lmax_ofLens_le lens) (hfull ▸ msbNat_lt c.bytes c.pos _)
    rw [hno l h1 hl] at hin
    cases hin

/-- With `lmax` bits left a complete table finds a symbol. -/
theorem decode_eq_sym_of_full {c : Cursor} (h : c.pos + (Table.ofLens lens).lmax ≤ 8 * c.bytes.length) :
    ∃ v c', (Table.ofLens lens).decode c = .sym v c' :=
  (decode_of_full hn hfull c).resolve_right fun hend => by omega

/-- A complete table never raises `NoMatchingCode`. -/
theorem decode_ne_noMatchingCode_of_full (c c' : Cursor) :
    (Table.ofLens lens).decode c ≠ .stop .noMatchingCode c' := by
  rcases decode_of_full hn hfull c with ⟨v, c₁, hd⟩ | ⟨-, c₁, hd⟩ <;> simp [hd]

end

/-! Decoding under the fixed tables (41_huffman_table.md R179). -/

theorem fixedLit_lmax : (Table.ofLens fixedLitLens).lmax = 9 := by decide +kernel

theorem fixedDist_lmax : (Table.ofLens fixedDistLens).lmax = 5 := by decide +kernel

theorem fixedLit_full : stopOf fixedLitLens (Table.ofLens fixedLitLens).lmax = 2 ^ (Table.ofLens fixedLitLens).lmax := by
  decide +kernel

theorem fixedDist_full :
    stopOf fixedDistLens (Table.ofLens fixedDistLens).lmax = 2 ^ (Table.ofLens fixedDistLens).lmax := by
  decide +kernel

theorem fixedLit_decode_of_code {v len code p : Nat} {bytes : List Byte}
    (h : Table.fixedLit.codeOf v = some (len, code)) (hb : BitsAt bytes p (bitsMsb len code)) :
    Table.fixedLit.decode ⟨bytes, p⟩ = .sym v ⟨bytes, p + len⟩ :=
  decode_of_code (c := ⟨bytes, p⟩) length_fixedLitLens_le fixedLit_fits h hb

theorem fixedDist_decode_of_code {v len code p : Nat} {bytes : List Byte}
    (h : Table.fixedDist.codeOf v = some (len, code)) (hb : BitsAt bytes p (bitsMsb len code)) :
    Table.fixedDist.decode ⟨bytes, p⟩ = .sym v ⟨bytes, p + len⟩ :=
  decode_of_code (c := ⟨bytes, p⟩) length_fixedDistLens_le fixedDist_fits h hb

/-- Settles O9: the listed prefixes are the codes of R176 and R178, and both tables are complete. -/
theorem fixedTablesDecodeEveryString : Obligations.FixedTablesDecodeEveryString := by
  unfold Obligations.FixedTablesDecodeEveryString
  refine ⟨fun bytes p x h hb => ?_, fun bytes p x h h' hb => ?_, fun bytes p x h h' hb => ?_,
    fun bytes p x h h' hb => ?_, fun bytes p x h hb => ?_, fun c h => ?_, fun c h => ?_, fun c c' => ⟨?_, ?_⟩⟩
  · exact fixedLit_decode_of_code (codeOf_fixedLit_lowLength (by omega)) hb
  · obtain ⟨k, rfl⟩ := Nat.exists_eq_add_of_le h
    rw [Nat.add_sub_cancel_left]
    exact fixedLit_decode_of_code (codeOf_fixedLit_lowLiteral (by omega)) hb
  · obtain ⟨k, rfl⟩ := Nat.exists_eq_add_of_le h
    rw [Nat.add_sub_cancel_left]
    exact fixedLit_decode_of_code (codeOf_fixedLit_highLength (by omega)) hb
  · obtain ⟨k, rfl⟩ := Nat.exists_eq_add_of_le h
    rw [Nat.add_sub_cancel_left]
    exact fixedLit_decode_of_code (codeOf_fixedLit_highLiteral (by omega)) hb
  · exact fixedDist_decode_of_code (codeOf_fixedDist h) hb
  · exact decode_eq_sym_of_full length_fixedLitLens_le fixedLit_full (by rwa [fixedLit_lmax])
  · exact decode_eq_sym_of_full length_fixedDistLens_le fixedDist_full (by rwa [fixedDist_lmax])
  · exact decode_ne_noMatchingCode_of_full length_fixedLitLens_le fixedLit_full c c'
  · exact decode_ne_noMatchingCode_of_full length_fixedDistLens_le fixedDist_full c c'

end Sys2Proof

/-! ### The dynamic table (42_dynamic_table.md)

The header lays the code-length code lengths out by the permutation; each code-length symbol fills a run of `lens` that
fits or is rejected; a full sequence is cut into the two length sets of a block. -/

namespace Sys2Proof

/-! The code-length code lengths, position by position (42_dynamic_table.md R192). -/

/-- A position outside `is` keeps its value when fields are laid out at the positions `is`. -/
theorem getElem?_foldl_set_of_notMem {α : Type} {is : List Nat} {p : Nat} (hp : p ∉ is) (xs acc : List α) :
    ((is.zip xs).foldl (fun acc q => acc.set q.1 q.2) acc)[p]? = acc[p]? := by
  induction is generalizing xs acc with
  | nil => rfl
  | cons i is ih =>
    obtain ⟨hne, hp⟩ := not_or.1 (mt List.mem_cons.2 hp)
    cases xs with
    | nil => rfl
    | cons x xs => rw [List.zip_cons_cons, List.foldl_cons, ih hp, List.getElem?_set_ne (Ne.symm hne)]

/-- Fields laid out at distinct positions that all held `d`: the `k`-th position holds the `k`-th field, or still `d`
when there are fewer fields. -/
theorem getElem?_foldl_set {α : Type} {is : List Nat} {xs acc : List α} {d : α} {k p : Nat} (hn : is.Nodup)
    (hd : ∀ i ∈ is, acc[i]? = some d) (hk : is[k]? = some p) :
    ((is.zip xs).foldl (fun acc q => acc.set q.1 q.2) acc)[p]? = some (xs.getD k d) := by
  induction is generalizing xs acc k with
  | nil => simp at hk
  | cons i is ih =>
    obtain ⟨hi, hn⟩ := List.nodup_cons.1 hn
    cases xs with
    | nil => exact hd p (List.mem_of_getElem? hk)
    | cons x xs =>
      rw [List.zip_cons_cons, List.foldl_cons]
      cases k with
      | zero =>
        obtain rfl : i = p := by simpa using hk
        have hlt : i < acc.length := (List.getElem?_eq_some_iff.1 (hd i List.mem_cons_self)).1
        rw [getElem?_foldl_set_of_notMem hi, List.getElem?_set_self hlt]
        rfl
      | succ k =>
        refine ih hn (fun j hj => ?_) hk
        have hne : i ≠ j := fun h => hi (h ▸ hj)
        rw [List.getElem?_set_ne hne, hd j (List.mem_cons_of_mem i hj)]

/-- `cl_len[PERM[k]]` is the `k`-th field, and 0 where the header has none. -/
theorem getElem?_clLenOf (cllens : List (BitVec 3)) {k p : Nat} (hk : perm[k]? = some p) :
    (clLenOf cllens)[p]? = some (cllens.getD k 0) :=
  getElem?_foldl_set (by decide) (by decide) hk

namespace Machine

/-! The header. -/

theorem execDynHdr_of_built {x y : BitVec 5} {z : BitVec 4} {ls : List (BitVec 3)} {t : Table}
    (h : Table.build ((clLenOf ls).map BitVec.toNat) = some t) (s : State) :
    execDynHdr x y z ls s = .next { s.setDynHdr x y z ls with clTab := some t, lens := [], fsm := .dynLens } := by
  simp only [execDynHdr, setDynHdr_clLen, h]

theorem execDynHdr_of_rejected {x y : BitVec 5} {z : BitVec 4} {ls : List (BitVec 3)}
    (h : Table.build ((clLenOf ls).map BitVec.toNat) = none) (s : State) :
    execDynHdr x y z ls s = .next ((s.setDynHdr x y z ls).raise .invalidTable) := by
  simp only [execDynHdr, setDynHdr_clLen, h]

/-- Settles O26: the registers are those of `State.setDynHdr`. -/
theorem dynamicHeader : Obligations.DynamicHeader := by
  unfold Obligations.DynamicHeader
  intro hlit hdist hclen cllens s _
  exact ⟨hlitOf hlit, hdistOf hdist, hclenOf hclen, clLenOf cllens, toNat_hlitOf hlit, toNat_hdistOf hdist,
    toNat_hclenOf hclen, length_clLenOf cllens, fun _ _ hk => getElem?_clLenOf cllens hk,
    fun _ ht => execDynHdr_of_built ht s, fun hn => execDynHdr_of_rejected hn s⟩

/-! A run of lengths (42_dynamic_table.md R194 to R200). -/

theorem lensFilled_of_full {s : State} (h : s.n = s.lensTotal) : s.lensFilled = s.installTables := if_pos h

theorem lensFilled_of_open {s : State} (h : s.n < s.lensTotal) : s.lensFilled = s.goto .dynLens := if_neg h.ne

theorem fillRun_of_fits {s : State} {r : Nat} (h : s.n + r ≤ s.lensTotal) (len : BitVec 4) :
    s.fillRun r len = State.lensFilled { s with lens := s.lens ++ List.replicate r len } := if_neg h.not_gt

theorem fillRun_of_overfills {s : State} {r : Nat} (h : s.lensTotal < s.n + r) (len : BitVec 4) :
    s.fillRun r len = s.raise .invalidTable := if_pos h

theorem execClRep_of_last {s : State} {len : BitVec 4} (h : s.lens.getLast? = some len) (x : BitVec 2) :
    execClRep x s = .next (s.fillRun (repCount x) len) := by
  simp only [execClRep, h]

theorem execClRep_of_noLast {s : State} (h : s.lens.getLast? = none) (x : BitVec 2) :
    execClRep x s = .next (s.raise .invalidTable) := by
  simp only [execClRep, h]

/-- Settles O27: each symbol fills its run, and the length of `lens` then decides between the two ends. -/
theorem codeLengthSymbolsFill : Obligations.CodeLengthSymbolsFill := by
  unfold Obligations.CodeLengthSymbolsFill
  rintro s t i r l hi rfl
  have hfill : s.n + r ≤ s.lensTotal →
      exec i s = .next (State.lensFilled { s with lens := s.lens ++ List.replicate r l }) := by
    intro hr
    rw [← fillRun_of_fits hr]
    rcases hi with ⟨rfl, rfl⟩ | ⟨x, rfl, rfl, hl⟩ | ⟨x, rfl, rfl, rfl⟩ | ⟨x, rfl, rfl, rfl⟩
    · rw [fillRun_of_fits hr]; rfl
    · exact execClRep_of_last hl x
    · rfl
    · rfl
  have hn : State.n { s with lens := s.lens ++ List.replicate r l } = s.n + r := by simp [State.n]
  refine ⟨fun h => ?_, fun h => ?_⟩
  · rw [hfill h.le, lensFilled_of_open (hn.trans_lt h)]; rfl
  · rw [hfill h.le, lensFilled_of_full (hn.trans h)]

/-- Settles O28: a run that overfills is rejected whatever length it repeats. -/
theorem codeLengthRunsRejected : Obligations.CodeLengthRunsRejected := by
  unfold Obligations.CodeLengthRunsRejected
  refine ⟨fun s x hn => ?_, fun s x h => ?_, fun s x h => ?_, fun s x h => ?_⟩
  · have hnil : s.lens = [] := List.eq_nil_of_length_eq_zero hn
    exact execClRep_of_noLast (by rw [hnil]; rfl) x
  · cases hl : s.lens.getLast? with
    | none => exact execClRep_of_noLast hl x
    | some len => exact (execClRep_of_last hl x).trans (congrArg _ (fillRun_of_overfills h len))
  · exact congrArg Host.Outcome.next (fillRun_of_overfills h 0)
  · exact congrArg Host.Outcome.next (fillRun_of_overfills h 0)

/-! The two tables of a block (42_dynamic_table.md R201). -/

theorem installTables_of_built {s : State} {lit dist : Table}
    (hl : Table.build ((s.lens.map BitVec.toNat).take s.hlit.toNat) = some lit)
    (hd : Table.build ((s.lens.map BitVec.toNat).drop s.hlit.toNat) = some dist) :
    s.installTables = { s with litTab := some lit, distTab := some dist, clTab := none, fsm := .symbol } := by
  simp only [State.installTables, hl, hd]

theorem installTables_of_rejected {s : State}
    (h : Table.build ((s.lens.map BitVec.toNat).take s.hlit.toNat) = none ∨
      Table.build ((s.lens.map BitVec.toNat).drop s.hlit.toNat) = none) :
    s.installTables = s.raise .invalidTable := by
  rcases installTables_cases s with he | ⟨lit, dist, hl, hd, -⟩
  · exact he
  · simp [hl, hd] at h

/-- Settles O29: the sequence is full, and `installTables` cuts it where `ls` ends. -/
theorem tablesInstalledFromLengths : Obligations.TablesInstalledFromLengths := by
  unfold Obligations.TablesInstalledFromLengths
  intro s ls ds hs hls hds
  have hfull : s.n = s.lensTotal := by rw [State.n, State.lensTotal, hs, List.length_append, hls, hds]
  have htake : (s.lens.map BitVec.toNat).take s.hlit.toNat = ls.map BitVec.toNat := by
    rw [hs, ← List.map_take, List.take_left' hls]
  have hdrop : (s.lens.map BitVec.toNat).drop s.hlit.toNat = ds.map BitVec.toNat := by
    rw [hs, ← List.map_drop, List.drop_left' hls]
  rw [lensFilled_of_full hfull, ← htake, ← hdrop]
  exact ⟨fun _ _ hl hd => installTables_of_built hl hd, installTables_of_rejected⟩

end Machine

end Sys2Proof

/-! ### The block decoder (43_block_decoder.md)

The headers and the end of a block read off their meanings; a stored block passes its checks in order before it copies;
a length or a distance symbol is a row of its table, so one fact about rows serves every symbol. -/

namespace Sys2Proof.Machine

/-! Block headers and the end of a block. -/

/-- Settles O23: the meaning of each header is the update the statement names. -/
theorem blockHeaders : Obligations.BlockHeaders := by
  unfold Obligations.BlockHeaders
  intro f s
  exact ⟨rfl, rfl, rfl, rfl⟩

theorem endOfBlock_of_final {s : State} (h : s.bfinal = true) :
    s.endOfBlock = { s with litTab := none, distTab := none, fsm := .trailer } := by
  rw [State.endOfBlock, if_pos h]

theorem endOfBlock_of_not_final {s : State} (h : s.bfinal = false) :
    s.endOfBlock = { s with litTab := none, distTab := none, fsm := .blkHdr } := by
  rw [State.endOfBlock, if_neg (ne_true_of_eq_false h)]

/-- Settles O33: EOB is the end of a block, and so is what a stored block that raised no error came to. -/
theorem endOfBlockReleasesTables : Obligations.EndOfBlockReleasesTables := by
  unfold Obligations.EndOfBlockReleasesTables
  refine ⟨fun s => ⟨fun hf => ?_, fun hf => ?_⟩, fun len nlen s t h hne => ?_⟩
  · exact congrArg Host.Outcome.next (endOfBlock_of_final hf)
  · exact congrArg Host.Outcome.next (endOfBlock_of_not_final hf)
  · rcases execStored_eq_next h with ⟨e, -, rfl⟩ | ⟨m, rfl, -⟩
    · exact absurd (raise_fsm _ e) hne
    · exact ⟨rfl, rfl, rfl, fun hf => if_pos hf, fun hf => if_neg (ne_true_of_eq_false hf)⟩

/-! The checks of a stored block, in their order (43_block_decoder.md R227 to R229). -/

theorem eq_not_iff_toNat {len nlen : BitVec 16} : nlen = ~~~len ↔ nlen.toNat = 0xFFFF - len.toNat := by
  rw [← BitVec.toNat_inj, BitVec.toNat_not]

section

variable {len : BitVec 16} {s : State}

theorem execStored_of_mismatch {nlen : BitVec 16} (h : nlen ≠ ~~~len) :
    execStored len nlen s = .next (State.raise { s with slen := len, snlen := nlen } .invalidBlock) :=
  if_pos h

theorem execStored_of_short (hr : s.remainingBytes < len.toNat) :
    execStored len (~~~len) s = .next (State.raise { s with slen := len, snlen := ~~~len } .truncatedInput) :=
  (if_neg (not_not_intro rfl)).trans (if_pos hr)

theorem execStored_of_overLimit (hr : len.toNat ≤ s.remainingBytes) (hl : s.overLimit len.toNat = true) :
    execStored len (~~~len) s = .next (State.raise { s with slen := len, snlen := ~~~len } .outOfMemory) :=
  (if_neg (not_not_intro rfl)).trans ((if_neg hr.not_gt).trans (if_pos hl))

theorem execStored_of_fits (hr : len.toNat ≤ s.remainingBytes) (hl : s.overLimit len.toNat = false) :
    execStored len (~~~len) s =
      andThen (storedBytes len.toNat { s with slen := len, snlen := ~~~len }) fun t => .next t.endOfBlock :=
  (if_neg (not_not_intro rfl)).trans ((if_neg hr.not_gt).trans (if_neg (ne_true_of_eq_false hl)))

end

/-- Settles O25: the complement check is `eq_not_iff_toNat`, and each check is reached when those before it pass. -/
theorem storedBlockChecks : Obligations.StoredBlockChecks := by
  unfold Obligations.StoredBlockChecks
  rintro len nlen s t rfl
  refine ⟨fun hn => execStored_of_mismatch (mt eq_not_iff_toNat.1 hn), fun hn hr => ?_, fun hn hr hl => ?_⟩
  · obtain rfl := eq_not_iff_toNat.2 hn
    exact execStored_of_short hr
  · obtain rfl := eq_not_iff_toNat.2 hn
    exact execStored_of_overLimit hr hl

/-- Settles O24: past its checks a stored block is the stored copy, then the end of the block. -/
theorem storedBlockCopies : Obligations.StoredBlockCopies := by
  unfold Obligations.StoredBlockCopies
  refine fun len s hr => ⟨execStored_of_overLimit hr, fun hl hw => ?_⟩
  obtain ⟨m, hcopy, hnew, hold, -⟩ := storedBytes_spec len.toNat { s with slen := len, snlen := ~~~len } hw
  refine ⟨m, (execStored_of_fits hr hl).trans ?_, hnew, hold⟩
  rw [hcopy]
  rfl

/-! Length symbols (43_block_decoder.md R233, R240 to R268). -/

/-- A length symbol sets the sum of its row's base and its extra value. -/
theorem setsLength_of_row {i : Instr} {v w x len : Nat} (h : i.shape = .coded .litLen v w x)
    (hv : 257 ≤ v ∧ v ≤ 285) (hrow : rowBase lenTab (v - 257) + x = len) : SetsLength i len :=
  hrow ▸ setsLength_of_length h hv.1 hv.2

/-- Settles O34: the rows of LEN_TAB for 257 to 264. -/
theorem lengthSymbols257To264 : Obligations.LengthSymbols257To264 := by
  unfold Obligations.LengthSymbols257To264
  refine ⟨?_, ?_, ?_, ?_, ?_, ?_, ?_, ?_⟩ <;> exact setsLength_of_row rfl (by decide) rfl

/-- Settles O35: the rows of LEN_TAB for 265 to 276. -/
theorem lengthSymbols265To276 : Obligations.LengthSymbols265To276 := by
  unfold Obligations.LengthSymbols265To276
  refine ⟨?_, ?_, ?_, ?_, ?_, ?_, ?_, ?_, ?_, ?_, ?_, ?_⟩ <;>
    exact fun x => setsLength_of_row rfl (by decide) rfl

/-- Settles O36: the rows of LEN_TAB for 277 to 285, the last one without an extra value. -/
theorem lengthSymbols277To285 : Obligations.LengthSymbols277To285 := by
  unfold Obligations.LengthSymbols277To285
  refine ⟨?_, ?_, ?_, ?_, ?_, ?_, ?_, ?_, setsLength_of_row rfl (by decide) rfl⟩ <;>
    exact fun x => setsLength_of_row rfl (by decide) rfl

/-! Distance symbols (43_block_decoder.md R234 to R236, R270 to R299). -/

/-- A distance symbol copies back from the sum of its row's base and its extra value. -/
theorem copiesBack_of_row {i : Instr} {v w y dist : Nat} (h : i.shape = .coded .dist v w y) (hv : v < 30)
    (hrow : rowBase distTab v + y = dist) : CopiesBack i dist :=
  hrow ▸ copiesBack_of_distance h hv

/-- Settles O37: the rows of DIST_TAB for 0 to 9, the first four without an extra value. -/
theorem distanceSymbols0To9 : Obligations.DistanceSymbols0To9 := by
  unfold Obligations.DistanceSymbols0To9
  refine ⟨?_, ?_, ?_, ?_, fun y => ?_, fun y => ?_, fun y => ?_, fun y => ?_, fun y => ?_, fun y => ?_⟩ <;>
    exact copiesBack_of_row rfl (by decide) rfl

/-- Settles O38: the rows of DIST_TAB for 10 to 19. -/
theorem distanceSymbols10To19 : Obligations.DistanceSymbols10To19 := by
  unfold Obligations.DistanceSymbols10To19
  refine ⟨?_, ?_, ?_, ?_, ?_, ?_, ?_, ?_, ?_, ?_⟩ <;> exact fun y => copiesBack_of_row rfl (by decide) rfl

/-- Settles O39: the rows of DIST_TAB for 20 to 29. -/
theorem distanceSymbols20To29 : Obligations.DistanceSymbols20To29 := by
  unfold Obligations.DistanceSymbols20To29
  refine ⟨?_, ?_, ?_, ?_, ?_, ?_, ?_, ?_, ?_, ?_⟩ <;> exact fun y => copiesBack_of_row rfl (by decide) rfl

/-! The check of a distance against the output (43_block_decoder.md R235). -/

/-- A distance symbol by its check: beyond the output it raises, within it copies. -/
theorem distanceSymbol_eq {row y dist : Nat} (hrow : rowBase distTab row + y = dist) (h16 : dist < 2 ^ 16) (s : State) :
    distanceSymbol row y s =
      if s.outLen < dist then
        .next (State.raise { s with mdist := BitVec.ofNat 16 dist, distNext := false } .invalidBlock)
      else
        appendCopy dist s.mlen.toNat { s with mdist := BitVec.ofNat 16 dist, distNext := false, fsm := .symbol } := by
  have hdist : (BitVec.ofNat 16 dist).toNat = dist := by rw [BitVec.toNat_ofNat, Nat.mod_eq_of_lt h16]
  simp only [distanceSymbol, hrow, hdist]
  rfl

/-- The only error a copy can raise is that of the output limit (44_output_buffer.md R324). -/
theorem appendCopy_err {dist len : Nat} {s t : State} (h : appendCopy dist len s = .next t) :
    t.err = .outOfMemory ∨ t.err = s.err := by
  rw [appendCopy] at h
  split at h
  · cases h
    exact .inl rfl
  · obtain ⟨m, rfl, -⟩ := copyBytes_eq_next h
    exact .inr rfl

/-- Settles O41: the check decides before the copy, and the copy raises no `InvalidBlock`. -/
theorem distanceBeyondOutputIsInvalid : Obligations.DistanceBeyondOutputIsInvalid := by
  unfold Obligations.DistanceBeyondOutputIsInvalid
  intro i v w y s hi hv
  have h16 : rowBase distTab v + y < 2 ^ 16 := (distance_range hi hv).2.trans_lt (by decide)
  rw [exec_of_distance hi hv, distanceSymbol_eq rfl h16]
  refine ⟨fun hlt => if_pos hlt, fun hle hs t ht => ?_⟩
  rw [if_neg hle.not_gt] at ht
  rcases appendCopy_err ht with he | he
  · simp [he]
  · rwa [he]

/-! A back-reference as one step (43_block_decoder.md R230, R233 to R236). -/

/-- Settles O49: the first fetch leaves the back-reference open with its length set, so the same step fetches the
distance symbol, which copies. -/
theorem backReferenceIsOneStep : Obligations.BackReferenceIsOneStep := by
  unfold Obligations.BackReferenceIsOneStep
  rintro s u lt dt i j pos pos' len dist hsel hi hlen h258 hdt rfl hj hcopy - hdist hl hw
  obtain ⟨hf, hd, -⟩ := select_eq_ctx hsel
  obtain ⟨x, hx, rfl⟩ : ∃ x : BitVec 9, BitVec.ofNat 9 len = x ∧ x.toNat = len :=
    ⟨_, rfl, by rw [BitVec.toNat_ofNat, Nat.mod_eq_of_lt (by omega)]⟩
  rw [SetsLength, hx] at hlen
  have hfirst : fetchExec s = .next { s.seek pos with mlen := x, distNext := true } :=
    (fetchExec_of_instr hsel hi).trans (hlen _)
  have hopen : State.select { s.seek pos with mlen := x, distNext := true } = .ctx (.dist dt) := by
    simp [State.select, hf, hdt, Select.fromSlot]
  obtain ⟨m, hsecond, hnew, hold⟩ :=
    hcopy (State.seek { s.seek pos with mlen := x, distNext := true } pos') hdist hl hw
  refine ⟨m, ?_, hnew, hold⟩
  rw [step_of_fetchExec hfirst, if_pos rfl, fetchExec_of_instr hopen hj, hsecond, hx, hd, hf]
  rfl

end Sys2Proof.Machine

/-! ### The symbols the alphabets do not define (43_block_decoder.md R237, R238, R300, R301) -/

namespace Sys2Proof

/-- Where the code of a symbol stands, the decoder goes on to that symbol's operand, right after the code. -/
theorem decode_of_standing_code {ctx : Ctx} {cls : SymClass} {t : Table} {first : Bool}
    (hc : ctx.coded? = some (cls, t, first)) (ht : t.BuiltFrom (2 ^ 11)) {v len code off : Nat} {bytes : List Byte}
    (hv : t.codeOf v = some (len, code)) (h : BitsAt bytes off (bitsMsb len code)) :
    decode ctx off bytes = Laws.OperandRoundTrip.operand cls first v ⟨bytes, off + len⟩ := by
  rw [← codeBits_of_codeOf hv] at h
  rw [decode_of_coded hc, withSymbol_of_codeBits ht (Option.isSome_of_eq_some hv) h, codeBits_of_codeOf hv,
    length_bitsMsb]

namespace Machine

/-- Settles O40: the four codes are among those of 41_huffman_table.md R176 and R178, and the operands read no bit. -/
theorem undefinedSymbolsRaiseLogicError : Obligations.UndefinedSymbolsRaiseLogicError := by
  unfold Obligations.UndefinedSymbolsRaiseLogicError
  have hlit := builtFrom_mono fixedLit_built (k' := 2 ^ 11) (by decide)
  have hdist := builtFrom_mono fixedDist_built (k' := 2 ^ 11) (by decide)
  refine ⟨fun s => ⟨rfl, rfl, rfl, rfl⟩, fun bytes off h => ?_, fun bytes off h => ?_, fun bytes off h => ?_,
    fun bytes off h => ?_⟩
  · exact decode_of_standing_code (ctx := .litLen _) rfl hlit (codeOf_fixedLit_highLength (k := 6) (by decide)) h
  · exact decode_of_standing_code (ctx := .litLen _) rfl hlit (codeOf_fixedLit_highLength (k := 7) (by decide)) h
  · exact decode_of_standing_code (ctx := .dist _) rfl hdist (codeOf_fixedDist (by decide)) h
  · exact decode_of_standing_code (ctx := .dist _) rfl hdist (codeOf_fixedDist (by decide)) h

end Machine

end Sys2Proof

/-! ### The output buffer (44_output_buffer.md)

An append asks the limit first, then writes. A copy that fits is periodic, and only an instruction that appends can meet
the limit. -/

namespace Sys2Proof.Machine

/-! The limit by its source (00_scope.md R13, 10_state.md R49). -/

theorem overLimit_iff_of_limit {s : State} {n k : Nat} (h : s.limit = some n) :
    s.overLimit k = true ↔ n < s.outLen + k := by
  rw [State.overLimit, h, decide_eq_true_iff]

theorem limit_of_register {s : State} (h : s.limitBy = .register) : s.limit = some s.outLimit.toNat := by
  rw [State.limit, h]

theorem limit_of_bytes {s : State} {n : Nat} (h : s.limitBy = .bytes n) : s.limit = some n := by
  rw [State.limit, h]

theorem limit_of_unbounded {s : State} (h : s.limitBy = .unbounded) : s.limit = none := by
  rw [State.limit, h]

/-- With an unbounded limit every append fits (44_output_buffer.md R324). -/
theorem overLimit_of_unbounded {s : State} (h : s.limitBy = .unbounded) (k : Nat) : s.overLimit k = false := by
  rw [State.overLimit, limit_of_unbounded h]

/-! One append, past the limit and within it (44_output_buffer.md R321, R323). -/

section

variable {s : State}

theorem appendByte_of_overLimit (hl : s.overLimit 1 = true) (b : Byte) :
    appendByte b s = .next (s.raise .outOfMemory) :=
  if_pos hl

theorem appendByte_of_fits (hl : s.overLimit 1 = false) (b : Byte) : appendByte b s = .next (s.pushOut b) :=
  if_neg (ne_true_of_eq_false hl)

theorem appendCopy_of_overLimit {len : Nat} (hl : s.overLimit len = true) (dist : Nat) :
    appendCopy dist len s = .next (s.raise .outOfMemory) :=
  if_pos hl

theorem appendCopy_of_fits {len : Nat} (hl : s.overLimit len = false) (dist : Nat) :
    appendCopy dist len s = copyBytes len (s.outLen - dist) s :=
  if_neg (ne_true_of_eq_false hl)

end

/-- Settles O30: an append is its check and one write, and a literal is an append in the control state `symbol`. -/
theorem literalAppendsItsByte : Obligations.LiteralAppendsItsByte := by
  unfold Obligations.LiteralAppendsItsByte
  refine ⟨fun b s hl => appendByte_of_overLimit hl b, fun v s hl => ⟨Memory.write s.outMem s.outLen v, ?_, ?_, ?_, ?_⟩⟩
  · exact appendByte_of_fits hl v
  · exact appendByte_of_fits (s := s.goto .symbol) hl v
  · exact read_write_same _ _ _
  · exact fun a ha => read_write_ne _ _ ha

/-- Settles O42: each byte is the one `dist` before it, so the copy has period `dist`, and its first period repeats the
end of the output at entry. -/
theorem copyIsPeriodic : Obligations.CopyIsPeriodic := by
  unfold Obligations.CopyIsPeriodic
  intro dist len s h1 hd hl hw
  obtain ⟨m, hcopy, hshift, hold, -⟩ := copyBytes_spec len (s.outLen - dist) s (by omega) hw
  have hperiod : ∀ j, j < len →
      Memory.read m (s.outLen + j) = Memory.read s.outMem (s.outLen - dist + j % dist) := by
    intro j hj
    have hmod := Nat.mod_lt j h1
    rw [periodic_of_shift h1 hd hshift j hj, hold _ (.inl (by omega))]
  refine ⟨m, (appendCopy_of_fits hl dist).trans hcopy, hperiod, fun hle j hj => ?_, hold⟩
  rw [hperiod j hj, Nat.mod_eq_of_lt (hj.trans_le hle)]

/-! What raises `OutOfMemory` (44_output_buffer.md R324, 60_exceptions.md R384). -/

/-- The instruction appends more than `OUT_LIMIT` leaves room for: a literal its byte, a distance symbol `mlen` bytes, a
stored block `len` bytes. -/
def AppendsPastLimit (i : Instr) (s : State) : Prop :=
  (∃ v, i = .lit v ∧ s.overLimit 1 = true) ∨
  (∃ v w y, i.shape = .coded .dist v w y ∧ s.overLimit s.mlen.toNat = true) ∨
  ∃ len nlen, i = .stored len nlen ∧ s.overLimit len.toNat = true

theorem not_appendsPastLimit_of_unbounded {s : State} (h : s.limitBy = .unbounded) (i : Instr) :
    ¬ AppendsPastLimit i s := by
  simp [AppendsPastLimit, overLimit_of_unbounded h]

/-- A literal that fits leaves the error register alone. -/
theorem execLit_err_of_fits {v : Byte} {s t : State} (h : execLit v s = .next t) (hl : s.overLimit 1 = false) :
    t.err = s.err := by
  cases (appendByte_of_fits (s := s.goto .symbol) hl v).symm.trans h
  rfl

/-- A copy that fits leaves the error register alone. -/
theorem appendCopy_err_of_fits {dist len : Nat} {s t : State} (h : appendCopy dist len s = .next t)
    (hl : s.overLimit len = false) : t.err = s.err := by
  obtain ⟨m, rfl, -⟩ := copyBytes_eq_next ((appendCopy_of_fits hl dist).symm.trans h)
  rfl

/-- A distance symbol whose copy fits can only raise `InvalidBlock` (43_block_decoder.md R235). -/
theorem distanceSymbol_err_of_fits {row y : Nat} {s t : State} (h : distanceSymbol row y s = .next t)
    (hl : s.overLimit s.mlen.toNat = false) : t.err = .invalidBlock ∨ t.err = s.err := by
  unfold distanceSymbol at h
  simp only at h
  split at h
  · cases h
    exact .inl rfl
  · have he := appendCopy_err_of_fits h hl
    exact .inr he

/-- A stored block whose bytes fit raises no `OutOfMemory` (43_block_decoder.md R227, R228). -/
theorem execStored_err_of_fits {len nlen : BitVec 16} {s t : State} (h : execStored len nlen s = .next t)
    (hl : s.overLimit len.toNat = false) : t.err = .invalidBlock ∨ t.err = .truncatedInput ∨ t.err = s.err := by
  by_cases hn : nlen = ~~~len
  · subst hn
    rcases Nat.lt_or_ge s.remainingBytes len.toNat with hr | hr
    · cases (execStored_of_short hr).symm.trans h
      exact .inr (.inl rfl)
    · obtain ⟨u, hu, he⟩ := andThen_eq_next ((execStored_of_fits hr hl).symm.trans h)
      obtain ⟨m, rfl, -⟩ := storedBytes_eq_next hu
      cases he
      exact .inr (.inr rfl)
  · cases (execStored_of_mismatch hn).symm.trans h
    exact .inl rfl

/-- The end of a code-length symbol can only raise `InvalidTable` (42_dynamic_table.md R201). -/
theorem lensFilled_err (s : State) : s.lensFilled.err = .invalidTable ∨ s.lensFilled.err = s.err := by
  rcases lensFilled_cases s with ⟨-, he⟩ | he | ⟨_, _, -, -, -, he⟩ <;> rw [he]
  · exact .inr rfl
  · exact .inl rfl
  · exact .inr rfl

/-- A symbol raises `OutOfMemory` only by an append past the limit. -/
theorem appendsPastLimit_of_coded {i : Instr} {cls : SymClass} {v w x : Nat} {s t : State}
    (hi : i.shape = .coded cls v w x) (hs : s.err ≠ .outOfMemory) (h : exec i s = .next t)
    (ht : t.err = .outOfMemory) : AppendsPastLimit i s := by
  cases cls with
  | cl =>
    rcases cl_cases_exec hi s with he | ⟨r, l, -, he, -⟩ <;> cases he.symm.trans h
    · cases ht
    · rcases lensFilled_err { s with lens := s.lens ++ List.replicate r l } with he | he
      · cases he.symm.trans ht
      · exact absurd (he.symm.trans ht) hs
  | litLen =>
    rcases litLen_cases hi with ⟨b, rfl⟩ | rfl | ⟨h1, h2⟩ | hu
    · refine .inl ⟨b, rfl, ?_⟩
      by_contra hl
      exact hs ((execLit_err_of_fits h (eq_false_of_ne_true hl)).symm.trans ht)
    · cases h
      exact absurd ht hs
    · cases (exec_of_length hi h1 h2 s).symm.trans h
      exact absurd ht hs
    · cases (exec_of_undefined (.inl ⟨hi, hu⟩) s).symm.trans h
      cases ht
  | dist =>
    by_cases hv : v < 30
    · refine .inr (.inl ⟨v, w, x, hi, ?_⟩)
      by_contra hl
      rcases distanceSymbol_err_of_fits ((exec_of_distance hi hv s).symm.trans h) (eq_false_of_ne_true hl) with he | he
      · cases he.symm.trans ht
      · exact hs (he.symm.trans ht)
    · cases (exec_of_undefined (.inr ⟨hi, by omega⟩) s).symm.trans h
      cases ht

/-- Of the headers and the trailer only a stored block raises `OutOfMemory`, by an append past the limit. -/
theorem appendsPastLimit_of_header {i : Instr} {s t : State} (hi : i.shape.header? ≠ none)
    (hs : s.err ≠ .outOfMemory) (h : exec i s = .next t) (ht : t.err = .outOfMemory) : AppendsPastLimit i s := by
  obtain ⟨j, hj⟩ := Option.ne_none_iff_exists'.1 hi
  obtain rfl := eq_of_header hj
  cases hshape : i.shape <;> rw [hshape] at hj <;> cases hj
  case env cmf flg =>
    rcases execEnv_cases cmf flg s with he | ⟨e, hkind, he⟩ <;> cases he.symm.trans h
    · exact absurd ht hs
    · rcases hkind with rfl | rfl | rfl <;> cases ht
  case blk btype f =>
    rcases blkInstr_cases btype f with he | he | he | he <;> rw [he] at h <;> cases h
    · exact absurd ht hs
    · exact absurd ht hs
    · exact absurd ht hs
    · cases ht
  case stored len nlen =>
    refine .inr (.inr ⟨len, nlen, rfl, ?_⟩)
    by_contra hl
    rcases execStored_err_of_fits h (eq_false_of_ne_true hl) with he | he | he
    · cases he.symm.trans ht
    · cases he.symm.trans ht
    · exact hs (he.symm.trans ht)
  case dynHdr x y z ls =>
    rcases execDynHdr_cases x y z ls s with he | ⟨cl, -, he⟩ <;> cases he.symm.trans h
    · cases ht
    · exact absurd ht hs
  case trailer v =>
    obtain ⟨bs, -, rfl | rfl⟩ := execTrailer_eq_next h
    · exact absurd ht hs
    · cases ht

/-- An instruction raises `OutOfMemory` only by an append past the limit (60_exceptions.md R384). -/
theorem appendsPastLimit_of_outOfMemory {i : Instr} {s t : State} (hs : s.err ≠ .outOfMemory)
    (h : exec i s = .next t) (ht : t.err = .outOfMemory) : AppendsPastLimit i s := by
  by_cases hh : i.shape.header? = none
  · obtain ⟨cls, v, w, x, hi⟩ := coded_of_header_none hh
    exact appendsPastLimit_of_coded hi hs h ht
  · exact appendsPastLimit_of_header hh hs h ht

/-- With an unbounded limit a fetch never raises `OutOfMemory`. -/
theorem fetchExec_err_of_unbounded {s t : State} (hb : s.limitBy = .unbounded) (hs : s.err ≠ .outOfMemory)
    (h : fetchExec s = .next t) : t.err ≠ .outOfMemory := by
  rcases fetchExec_eq_next h with ⟨-, rfl⟩ | ⟨c, i, pos, -, -, he⟩ | ⟨c, w, p, pos, -, -, he⟩
  · exact hs
  · exact fun ht => not_appendsPastLimit_of_unbounded (s := s.seek pos) hb i (appendsPastLimit_of_outOfMemory hs he ht)
  · rcases stopFetch_eq_next he with ⟨-, -, rfl⟩ | ⟨-, rfl⟩ | ⟨-, rfl⟩ <;> simp

/-- With an unbounded limit a step never raises `OutOfMemory`: the limit's source stays as it is between the two fetches
of a back-reference. -/
theorem step_err_of_unbounded {s t : State} (hb : s.limitBy = .unbounded) (hs : s.err ≠ .outOfMemory)
    (h : step s = .next t) : t.err ≠ .outOfMemory := by
  obtain ⟨u, hu, hnext⟩ := step_eq_next h
  have hue := fetchExec_err_of_unbounded hb hs hu
  rcases hnext with ⟨-, rfl⟩ | ⟨-, ht⟩
  · exact hue
  · exact fetchExec_err_of_unbounded ((Prod.mk.inj (fetchExec_steady hu).limit).2.trans hb) hue ht

/-- Settles O31: the limit reads off its source, each append asks it before it writes, and no other case of an
instruction raises `OutOfMemory`. -/
theorem outputLimitStopsAppends : Obligations.OutputLimitStopsAppends := by
  unfold Obligations.OutputLimitStopsAppends
  refine ⟨fun s k => ⟨fun hb => overLimit_iff_of_limit (limit_of_register hb),
    fun n hb => overLimit_iff_of_limit (limit_of_bytes hb), fun hb => overLimit_of_unbounded hb k⟩,
    fun v s hl => appendByte_of_overLimit (s := s.goto .symbol) hl v, fun i v w y s hi hv hd hl => ?_,
    fun i s t => appendsPastLimit_of_outOfMemory, fun s t => step_err_of_unbounded⟩
  have h16 : rowBase distTab v + y < 2 ^ 16 := (distance_range hi hv).2.trans_lt (by decide)
  rw [exec_of_distance hi hv, distanceSymbol_eq rfl h16, if_neg hd.not_gt]
  refine appendCopy_of_overLimit ?_ _
  exact hl

end Sys2Proof.Machine

/-! ### The envelope and the checksum (45_envelope_checksum.md) -/

namespace Sys2Proof.Machine

/-! The envelope's checks in the numbers of R342 to R347. -/

/-- CM is the low half of the method byte (45_envelope_checksum.md R343). -/
theorem cm_toNat (cmf : Byte) : (cmf.extractLsb' 0 4).toNat = cmf.toNat % 16 := by
  simp

/-- CINFO is the high half of the method byte (45_envelope_checksum.md R344). -/
theorem cinfo_toNat (cmf : Byte) : (cmf.extractLsb' 4 4).toNat = cmf.toNat / 16 := by
  rw [BitVec.extractLsb'_toNat, Nat.shiftRight_eq_div_pow]
  omega

/-- FDICT is bit 5 of the flags byte (45_envelope_checksum.md R345). -/
theorem fdict_iff (flg : Byte) : flg.getLsbD 5 = true ↔ flg.toNat / 32 % 2 = 1 := by
  rw [← BitVec.testBit_toNat, Nat.testBit_eq_decide_div_mod_eq, decide_eq_true_iff]

/-- ENV as one chain of checks on the two bytes' numbers. -/
theorem exec_env_eq (cmf flg : Byte) (s : State) :
    exec (.env cmf flg) s =
      if (cmf.toNat * 256 + flg.toNat) % 31 ≠ 0 then .next (s.raise .badEnvelope)
      else if cmf.toNat % 16 ≠ 8 then .next (s.raise .unsupportedMethod)
      else if 7 < cmf.toNat / 16 then .next (s.raise .badEnvelope)
      else if flg.toNat / 32 % 2 = 1 then .next (s.raise .unsupportedFeature)
      else .next { s with fsm := .blkHdr } := by
  simp only [exec, execEnv, cm_toNat, cinfo_toNat, fdict_iff, Config.supportedCm, Config.maxCinfo, State.goto]

/-- Settles O22: each clause takes its branch of the one chain of checks. -/
theorem envelopeChecksInOrder : Obligations.EnvelopeChecksInOrder := by
  unfold Obligations.EnvelopeChecksInOrder
  intro cmf flg s
  rw [exec_env_eq]
  refine ⟨fun hcheck => if_pos hcheck, fun hcheck hcm => ?_, fun hcheck hcm hcinfo => ?_,
    fun hcheck hcm hcinfo hdict => ?_, fun hcheck hcm hcinfo hdict => ?_⟩ <;> rw [if_neg (not_not.2 hcheck)]
  · rw [if_pos hcm]
  · rw [if_neg (not_not.2 hcm), if_pos hcinfo]
  · rw [if_neg (not_not.2 hcm), if_neg (Nat.not_lt.2 hcinfo), if_pos hdict]
  · rw [if_neg (not_not.2 hcm), if_neg (Nat.not_lt.2 hcinfo), if_neg (by omega)]

/-! The trailer's comparison (45_envelope_checksum.md R350 to R352). -/

/-- The low half of the checksum is the first accumulator. -/
theorem adler_extract_low (bs : List Byte) : (adler bs).extractLsb' 0 16 = BitVec.ofNat 16 (adlerSums bs).1 :=
  BitVec.extractLsb'_append_eq_right

/-- The high half of the checksum is the second accumulator. -/
theorem adler_extract_high (bs : List Byte) : (adler bs).extractLsb' 16 16 = BitVec.ofNat 16 (adlerSums bs).2 :=
  BitVec.extractLsb'_append_eq_left

/-- TRAILER where the output is `bs`: the three registers written, then the comparison with the checksum of `bs`. -/
theorem exec_trailer_of_output {v : Word} {s t : State} {bs : List Byte} (hl : bs.length = s.outLen)
    (hr : ∀ a, a < s.outLen → Memory.read s.outMem a = bs[a]?)
    (ht : t = { s with adlerRead := v, s1 := (adler bs).extractLsb' 0 16, s2 := (adler bs).extractLsb' 16 16 }) :
    exec (.trailer v) s = if v = adler bs then .next (t.goto .done) else .next (t.raise .checksumMismatch) := by
  have hout : Memory.readRange s.outMem 0 s.outLen = some bs :=
    readRange_eq_some.2 ⟨hl, fun a ha => by rw [Nat.zero_add, hr a ha]⟩
  subst ht
  rw [adler_extract_low, adler_extract_high]
  simp only [exec, execTrailer, hout]
  rfl

/-- Settles O43: the two outcomes of the one comparison. -/
theorem trailerVerifiesTheChecksum : Obligations.TrailerVerifiesTheChecksum := by
  unfold Obligations.TrailerVerifiesTheChecksum
  intro v s bs t hl hr ht
  rw [exec_trailer_of_output hl hr ht]
  exact ⟨fun hv => if_pos hv, fun hv => if_neg hv⟩

/-! The accumulators in closed form (45_envelope_checksum.md R350). -/

/-- Each byte times the number of bytes from it to the end: how often it is added to the second accumulator. -/
def weightedSum (bs : List Byte) : Nat :=
  ((List.range bs.length).map fun k => (bs.length - k) * (bs.getD k 0).toNat).sum

@[simp] theorem weightedSum_nil : weightedSum [] = 0 := rfl

/-- A first byte has the whole length as its weight and leaves the weights after it as they are. -/
theorem weightedSum_cons (b : Byte) (bs : List Byte) :
    weightedSum (b :: bs) = (bs.length + 1) * b.toNat + weightedSum bs := by
  simp [weightedSum, List.range_succ_eq_map, Function.comp_def]

/-- A last byte has weight 1 and raises the weight of every byte before it by 1. -/
theorem weightedSum_concat (bs : List Byte) (b : Byte) :
    weightedSum (bs ++ [b]) = weightedSum bs + (bs.map BitVec.toNat).sum + b.toNat := by
  induction bs with
  | nil => simp [weightedSum_cons]
  | cons c bs ih =>
    rw [List.cons_append, weightedSum_cons, weightedSum_cons, ih, List.length_append, List.map_cons, List.sum_cons,
      List.length_singleton]
    ring

theorem adlerSums_concat (bs : List Byte) (b : Byte) : adlerSums (bs ++ [b]) = adlerStep (adlerSums bs) b := by
  simp [adlerSums]

/-- The first accumulator is the plain sum plus 1, the second the weighted sum plus the length, both reduced. -/
theorem adlerSums_eq (bs : List Byte) :
    adlerSums bs = ((1 + (bs.map BitVec.toNat).sum) % 65521, (bs.length + weightedSum bs) % 65521) := by
  induction bs using List.reverseRecOn with
  | nil => rfl
  | append_singleton bs b ih =>
    rw [adlerSums_concat, ih, adlerStep, weightedSum_concat]
    simp only [Config.adlerMod, List.map_append, List.sum_append, List.map_singleton, List.sum_singleton,
      List.length_append, List.length_singleton, Prod.mk.injEq]
    constructor <;> omega

/-- The checksum as a number: the accumulators fit their halves. -/
theorem adler_toNat (bs : List Byte) : (adler bs).toNat = (adlerSums bs).2 * 2 ^ 16 + (adlerSums bs).1 := by
  have hlt := adlerSums_lt bs
  rw [adler, adlerWord_eq_ofNat]
  simp only [BitVec.toNat_ofNat]
  omega

theorem adler_low (bs : List Byte) : (adler bs).toNat % 2 ^ 16 = (1 + (bs.map BitVec.toNat).sum) % 65521 := by
  rw [adler_toNat, adlerSums_eq]
  omega

theorem adler_high (bs : List Byte) : (adler bs).toNat / 2 ^ 16 = (bs.length + weightedSum bs) % 65521 := by
  rw [adler_toNat, adlerSums_eq]
  omega

/-- Settles O44: by induction on the last byte (`adlerSums_eq`); each accumulator fits its half of the word. -/
theorem adlerClosedForm : Obligations.AdlerClosedForm := by
  unfold Obligations.AdlerClosedForm
  exact fun bs => ⟨adler_low bs, adler_high bs⟩

/-! One changed byte (45_envelope_checksum.md R355). -/

/-- Replacing an entry moves the sum by the difference of the entries. -/
theorem sum_set_add_getElem (l : List Nat) (k a : Nat) (hk : k < l.length) :
    (l.set k a).sum + l[k] = l.sum + a := by
  have hself := congrArg List.sum (List.set_getElem_self hk)
  rw [List.sum_set, if_pos hk] at hself ⊢
  omega

/-- Any change of one byte changes the checksum: the plain sum moves by less than the modulus. -/
theorem adler_set_ne {bs : List Byte} {k : Nat} (hk : k < bs.length) {c : Byte} (hc : c ≠ bs[k]) :
    adler (bs.set k c) ≠ adler bs := by
  intro heq
  have hlow := adler_low (bs.set k c)
  rw [heq, adler_low, List.map_set] at hlow
  have hsum := sum_set_add_getElem (bs.map BitVec.toNat) k c.toNat (by simpa using hk)
  rw [List.getElem_map] at hsum
  have hne : c.toNat ≠ bs[k].toNat := fun h => hc (BitVec.eq_of_toNat_eq h)
  omega

theorem xor_twoPow_ne (b : Byte) {bit : Nat} (hbit : bit < 8) : b ^^^ BitVec.twoPow 8 bit ≠ b := by
  intro h
  have hb := congrArg (·.getLsbD bit) h
  simp [hbit] at hb

/-- Settles O45: a flipped bit changes its byte, so the checksum, and the trailer of the one output does not fit the
other. -/
theorem singleBitErrorsAreDetected : Obligations.SingleBitErrorsAreDetected := by
  unfold Obligations.SingleBitErrorsAreDetected
  intro bs cs k bit hk hbit hcs
  have hne : adler cs ≠ adler bs := by
    rw [hcs, List.getD_eq_getElem _ _ hk]
    exact adler_set_ne hk (xor_twoPow_ne _ hbit)
  exact ⟨hne, fun s hl hr => ⟨_, (exec_trailer_of_output hl hr rfl).trans (if_neg hne.symm), rfl, rfl⟩⟩

end Sys2Proof.Machine

/-! ### The error of an instruction (60_exceptions.md R372, R376 to R384)

An instruction either leaves the error register alone or raises one of its kinds, and then it has appended nothing and
moved no cursor. One case analysis over the instructions says both. -/

namespace Sys2Proof

open Machine in
/-- The error kinds that an instruction with these fields can raise once it is fetched. -/
def Shape.errors : Shape → List ErrKind
  | .env _ _ => [.badEnvelope, .unsupportedMethod, .unsupportedFeature]
  | .blk _ _ => [.invalidBlock]
  | .stored _ _ => [.invalidBlock, .truncatedInput, .outOfMemory]
  | .dynHdr _ _ _ _ => [.invalidTable]
  | .coded .cl _ _ _ => [.invalidTable]
  | .coded .litLen _ _ _ => [.outOfMemory, .logicError]
  | .coded .dist _ _ _ => [.invalidBlock, .outOfMemory, .logicError]
  | .trailer _ => [.checksumMismatch]

theorem Shape.none_notMem_errors (sh : Shape) : .none ∉ sh.errors := by
  cases sh with
  | coded cls v w x => cases cls <;> simp [Shape.errors]
  | _ => simp [Shape.errors]

namespace Machine

/-- From `s` to `t` no error was raised. -/
structure RaisesNone (s t : State) : Prop where
  err : t.err = s.err
  fsm : t.fsm = .error → s.fsm = .error

/-- From `s` to `t` an error of one of `kinds` was raised, with no output byte written and neither the output length nor
the cursor moved (60_exceptions.md R372). -/
structure Raises (kinds : List ErrKind) (s t : State) : Prop where
  kind : t.err ∈ kinds
  outMem : t.outMem = s.outMem
  outLen : t.outLen = s.outLen
  pc : t.pc = s.pc

theorem raisesNone_of_ne {s t : State} (he : t.err = s.err) (hf : t.fsm ≠ .error) : RaisesNone s t :=
  ⟨he, fun h => absurd h hf⟩

theorem endOfBlock_raisesNone (s : State) : RaisesNone s s.endOfBlock :=
  raisesNone_of_ne rfl (by rcases endOfBlock_fsm_cases s with hf | hf <;> rw [hf] <;> simp)

/-- The end of a code-length symbol raises `InvalidTable` or nothing (42_dynamic_table.md R201). -/
theorem lensFilled_raises (s : State) : RaisesNone s s.lensFilled ∨ Raises [.invalidTable] s s.lensFilled := by
  rcases lensFilled_cases s with ⟨-, he⟩ | he | ⟨_, _, -, -, -, he⟩ <;> rw [he]
  · exact .inl (raisesNone_of_ne rfl (by simp))
  · exact .inr ⟨by simp, rfl, rfl, rfl⟩
  · exact .inl (raisesNone_of_ne rfl (by simp))

/-- What a symbol can raise. -/
theorem raises_of_coded {i : Instr} {cls : SymClass} {v w x : Nat} {s t : State} (hi : i.shape = .coded cls v w x)
    (h : exec i s = .next t) : RaisesNone s t ∨ Raises (Shape.coded cls v w x).errors s t := by
  cases cls with
  | cl =>
    rcases cl_cases_exec hi s with he | ⟨r, l, -, he, -⟩ <;> cases he.symm.trans h
    · exact .inr ⟨by simp [Shape.errors], rfl, rfl, rfl⟩
    · rcases lensFilled_raises { s with lens := s.lens ++ List.replicate r l } with ⟨he, hf⟩ | ⟨hk, hm, hl, hp⟩
      · exact .inl ⟨he, hf⟩
      · exact .inr ⟨hk, hm, hl, hp⟩
  | litLen =>
    rcases litLen_cases hi with ⟨b, rfl⟩ | rfl | ⟨h1, h2⟩ | hu
    · rcases execLit_eq_next h with rfl | ⟨rfl, -⟩
      · exact .inr ⟨by simp [Shape.errors], rfl, rfl, rfl⟩
      · exact .inl (raisesNone_of_ne rfl (by simp))
    · cases h
      exact .inl (endOfBlock_raisesNone s)
    · cases (exec_of_length hi h1 h2 s).symm.trans h
      exact .inl ⟨rfl, id⟩
    · cases (exec_of_undefined (.inl ⟨hi, hu⟩) s).symm.trans h
      exact .inr ⟨by simp [Shape.errors], rfl, rfl, rfl⟩
  | dist =>
    by_cases hv : v < 30
    · rcases distanceSymbol_eq_next ((exec_of_distance hi hv s).symm.trans h) with ⟨e, hk, rfl⟩ | ⟨m, rfl, -⟩
      · exact .inr ⟨by rcases hk with rfl | rfl <;> simp [Shape.errors], rfl, rfl, rfl⟩
      · exact .inl (raisesNone_of_ne rfl (by simp))
    · cases (exec_of_undefined (.inr ⟨hi, by omega⟩) s).symm.trans h
      exact .inr ⟨by simp [Shape.errors], rfl, rfl, rfl⟩

/-- What a header or the trailer can raise. -/
theorem raises_of_header {i : Instr} {s t : State} (hi : i.shape.header? ≠ none) (h : exec i s = .next t) :
    RaisesNone s t ∨ Raises i.shape.errors s t := by
  obtain ⟨j, hj⟩ := Option.ne_none_iff_exists'.1 hi
  obtain rfl := eq_of_header hj
  cases hshape : i.shape <;> rw [hshape] at hj <;> cases hj
  case env cmf flg =>
    rcases execEnv_cases cmf flg s with he | ⟨e, hk, he⟩ <;> cases he.symm.trans h
    · exact .inl (raisesNone_of_ne rfl (by simp))
    · exact .inr ⟨by rcases hk with rfl | rfl | rfl <;> simp [Shape.errors], rfl, rfl, rfl⟩
  case blk btype f =>
    rcases blkInstr_cases btype f with he | he | he | he <;> rw [he] at h <;> cases h
    · exact .inl (raisesNone_of_ne rfl (by simp))
    · exact .inl (raisesNone_of_ne rfl (by simp))
    · exact .inl (raisesNone_of_ne rfl (by simp))
    · exact .inr ⟨by simp [Shape.errors], rfl, rfl, rfl⟩
  case stored len nlen =>
    rcases execStored_eq_next h with ⟨e, hk, rfl⟩ | ⟨m, rfl, -⟩
    · exact .inr ⟨by rcases hk with rfl | rfl | rfl <;> simp [Shape.errors], rfl, rfl, rfl⟩
    · obtain ⟨he, hf⟩ := endOfBlock_raisesNone { s with
        slen := len, snlen := nlen, outMem := m, outLen := s.outLen + len.toNat, pc := s.pc + 8 * len.toNat }
      exact .inl ⟨he, hf⟩
  case dynHdr x y z ls =>
    rcases execDynHdr_cases x y z ls s with he | ⟨cl, -, he⟩ <;> cases he.symm.trans h
    · exact .inr ⟨by simp [Shape.errors], rfl, rfl, rfl⟩
    · exact .inl (raisesNone_of_ne rfl (by simp))
  case trailer v =>
    obtain ⟨bs, -, rfl | rfl⟩ := execTrailer_eq_next h
    · exact .inl (raisesNone_of_ne rfl (by simp))
    · exact .inr ⟨by simp [Shape.errors], rfl, rfl, rfl⟩

/-- Everything an instruction that goes on can do to the error register. -/
theorem exec_raises {i : Instr} {s t : State} (h : exec i s = .next t) :
    RaisesNone s t ∨ Raises i.shape.errors s t := by
  by_cases hh : i.shape.header? = none
  · obtain ⟨cls, v, w, x, hi⟩ := coded_of_header_none hh
    exact hi ▸ raises_of_coded hi h
  · exact raises_of_header hh h

/-- Settles O32: an instruction that enters `ERROR` raised one of its kinds. -/
theorem errorsArePrecise : Obligations.ErrorsArePrecise := by
  unfold Obligations.ErrorsArePrecise
  intro i s t hs h ht
  rcases exec_raises h with hn | hr
  · exact absurd (hn.fsm ht) hs
  · exact ⟨hr.outMem, hr.outLen, hr.pc, fun he => i.shape.none_notMem_errors (he ▸ hr.kind)⟩

end Machine

end Sys2Proof

/-! ### Which stops a fetch can meet

A header's reads only ever meet the end of the input. A symbol may have no code, and one outside its alphabet is read only
from a table that has it. -/

namespace Sys2Proof

/-- If the decoding stopped, it met the end of the input. -/
def Decoded.StopsTruncated : Decoded → Prop
  | .instr _ _ => True
  | .stop w _ _ => w = .truncated

theorem withBits_stopsTruncated {n : Nat} {c : Cursor} {part : Part} {k : BitVec n → Cursor → Decoded} (hn : n ≤ 32)
    (hk : ∀ v c', (k v c').StopsTruncated) : (withBits n c part k).StopsTruncated := by
  unfold withBits
  split
  · exact hk _ _
  · next w hr => exact (readBits_eq_error hn hr).1

theorem cllens_stopsTruncated (x y : BitVec 5) (z : BitVec 4) (k : Nat) (got : List (BitVec 3)) (c : Cursor) :
    (decodeCllens x y z k got c).StopsTruncated := by
  induction k generalizing got c with
  | zero => trivial
  | succ k ih => exact withBits_stopsTruncated (by omega) fun _ _ => ih _ _

/-- A context without a table stops only at the end of the input (60_exceptions.md R375). -/
theorem decode_stopsTruncated {c : Ctx} (hc : c.coded? = none) (off : Nat) (bytes : List Byte) :
    (decode c off bytes).StopsTruncated := by
  cases c with
  | env =>
    rw [decode, decodeEnv]
    split
    · rfl
    · exact withBits_stopsTruncated (by omega) fun _ _ => withBits_stopsTruncated (by omega) fun _ _ => trivial
  | blkHdr | stored =>
    exact withBits_stopsTruncated (by omega) fun _ _ => withBits_stopsTruncated (by omega) fun _ _ => trivial
  | dynHdr =>
    exact withBits_stopsTruncated (by omega) fun _ _ => withBits_stopsTruncated (by omega) fun _ _ =>
      withBits_stopsTruncated (by omega) fun _ _ => cllens_stopsTruncated _ _ _ _ _ _
  | trailer =>
    exact withBits_stopsTruncated (by omega) fun _ _ => withBits_stopsTruncated (by omega) fun _ _ =>
      withBits_stopsTruncated (by omega) fun _ _ => withBits_stopsTruncated (by omega) fun _ _ => trivial
  | clSym t first | litLen t | dist t => cases hc

/-- A fetch that stops inside the input was looking for a symbol. -/
theorem coded_of_stop {c : Ctx} {off : Nat} {bytes : List Byte} {w : Stop} {p : Part} {pos : Nat}
    (h : decode c off bytes = .stop w p pos) (hw : w ≠ .truncated) : c.coded? ≠ none := by
  intro hc
  have htr := decode_stopsTruncated hc off bytes
  rw [h] at htr
  exact hw htr

/-- Where a symbol read stops: at its code, or in its operand. -/
theorem withSymbol_eq_stop {t : Table} {c : Cursor} {k : Nat → Cursor → Decoded} {w : Stop} {p : Part} {pos : Nat}
    (h : withSymbol t c k = .stop w p pos) :
    w = .truncated ∨ w = .noMatchingCode ∨ ∃ v c', t.decode c = .sym v c' ∧ k v c' = .stop w p pos := by
  unfold withSymbol at h
  rcases t.decode_cases c with ⟨l, v, -, -, -, hd⟩ | ⟨l, -, -, -, -, hd⟩ | ⟨l, -, -, hd⟩ <;> rw [hd] at h
  · exact .inr (.inr ⟨v, _, hd, h⟩)
  · cases h
    exact .inl rfl
  · cases h
    exact .inr (.inl rfl)

/-- A table made from `k` lengths decodes only values below `k` (41_huffman_table.md R160). -/
theorem lt_of_decode {t : Table} {k v : Nat} {c c' : Cursor} (ht : t.BuiltFrom k) (hk : k ≤ 2 ^ 11)
    (h : t.decode c = .sym v c') : v < k := by
  obtain ⟨lens, hn, -, hb⟩ := ht
  obtain ⟨rfl, hf⟩ := build_eq_some hb
  obtain ⟨_, _, -, -, -, hv, -, -⟩ := code_of_decode (hn.trans hk) hf h
  exact (List.getElem?_eq_some_iff.1 hv).1.trans_le hn

/-- A code-length table has no symbol outside its alphabet. -/
theorem decode_clSym_ne_undefinedSymbol {t : Table} (ht : t.BuiltFrom 19) (first : Bool) (off : Nat) (bytes : List Byte)
    (p : Part) (pos : Nat) : decode (.clSym t first) off bytes ≠ .stop .undefinedSymbol p pos := by
  intro h
  rcases withSymbol_eq_stop h with hw | hw | ⟨v, c', hd, hk⟩
  · cases hw
  · cases hw
  · have hlt := lt_of_decode ht (by decide) hd
    obtain ⟨-, -, hw | ⟨hv, -⟩⟩ := clOperand_eq_stop hk
    · cases hw
    · omega

end Sys2Proof

/-! ### Which control state raises which error kind (60_exceptions.md R376 to R384) -/

namespace Sys2Proof.Machine

/-- The control states whose elements can raise an error of this kind. -/
def ErrKind.sources : ErrKind → List Fsm
  | .none => []
  | .truncatedInput => [.env, .blkHdr, .stored, .dynHdr, .dynLens, .symbol, .trailer]
  | .badEnvelope => [.env]
  | .unsupportedMethod => [.env]
  | .unsupportedFeature => [.env]
  | .invalidTable => [.dynHdr, .dynLens]
  | .noMatchingCode => [.dynLens, .symbol]
  | .invalidBlock => [.blkHdr, .stored, .symbol]
  | .checksumMismatch => [.trailer]
  | .outOfMemory => [.stored, .symbol]
  | .logicError => [.symbol]

theorem mem_sources_truncatedInput {s : State} (hb : s.busy = true) : s.fsm ∈ ErrKind.truncatedInput.sources := by
  rw [State.busy] at hb
  cases hf : s.fsm <;> simp_all [Fsm.busy, ErrKind.sources]

theorem busy_of_select_ctx {s : State} {c : Ctx} (h : s.select = .ctx c) : s.busy = true := by
  rcases select_cases s with ⟨he, -⟩ | ⟨he, -⟩ | ⟨_, -, hb⟩
  · simp [h] at he
  · simp [h] at he
  · exact hb

/-- What a fetched instruction can raise is raised in the control state that selects its class. -/
theorem mem_sources_of_instr {s : State} {c : Ctx} {i : Instr} {pos : Nat} (hc : s.select = .ctx c)
    (hd : decode c s.bitOffset s.window = .instr i pos) {e : ErrKind} (he : e ∈ i.shape.errors) : s.fsm ∈ e.sources := by
  have hclass := decode_class hd
  have hsel := select_eq_ctx hc
  have raisedIn (sh : Shape) (hsh : i.shape = sh) {f : Fsm} (hf : s.fsm = f) (h : ∀ e ∈ sh.errors, f ∈ e.sources) :
      s.fsm ∈ e.sources := hf ▸ h e (hsh ▸ he)
  cases c with
  | env =>
    obtain ⟨cmf, flg, rfl⟩ := hclass
    exact raisedIn (.env cmf flg) rfl hsel (by simp [Shape.errors, ErrKind.sources])
  | blkHdr =>
    obtain ⟨f, btype, rfl⟩ := hclass
    exact raisedIn (.blk btype f) (shape_blkInstr btype f) hsel (by simp [Shape.errors, ErrKind.sources])
  | stored =>
    obtain ⟨len, nlen, rfl⟩ := hclass
    exact raisedIn (.stored len nlen) rfl hsel (by simp [Shape.errors, ErrKind.sources])
  | dynHdr =>
    obtain ⟨x, y, z, ls, -, rfl⟩ := hclass
    exact raisedIn (.dynHdr x y z ls) rfl hsel (by simp [Shape.errors, ErrKind.sources])
  | clSym t first | litLen t | dist t =>
    obtain ⟨v, w, x, hs⟩ := hclass
    exact raisedIn _ hs hsel.1 (by simp [Shape.errors, ErrKind.sources])
  | trailer =>
    obtain ⟨v, rfl⟩ := hclass
    exact raisedIn (.trailer v) rfl hsel (by simp [Shape.errors, ErrKind.sources])

/-- A fetch that meets no code was looking for a symbol (60_exceptions.md R380). -/
theorem mem_sources_noMatchingCode {s : State} {c : Ctx} {p : Part} {pos : Nat} (hc : s.select = .ctx c)
    (hd : decode c s.bitOffset s.window = .stop .noMatchingCode p pos) : s.fsm ∈ ErrKind.noMatchingCode.sources := by
  have hcoded := coded_of_stop hd (by simp)
  have hsel := select_eq_ctx hc
  cases c with
  | clSym t first | litLen t | dist t => simp [ErrKind.sources, hsel.1]
  | _ => exact absurd rfl hcoded

/-- A fetch that meets a symbol outside its alphabet was looking for a literal, a length or a distance. -/
theorem mem_sources_undefinedSymbol {s : State} {c : Ctx} {p : Part} {pos : Nat} (hi : s.Inv) (hc : s.select = .ctx c)
    (hd : decode c s.bitOffset s.window = .stop .undefinedSymbol p pos) : s.fsm ∈ ErrKind.logicError.sources := by
  have hcoded := coded_of_stop hd (by simp)
  have hsel := select_eq_ctx hc
  cases c with
  | clSym t first => exact absurd hd (decode_clSym_ne_undefinedSymbol (hi.clBuilt t hsel.2.1) _ _ _ _ _)
  | litLen t | dist t => simp [ErrKind.sources, hsel.1]
  | _ => exact absurd rfl hcoded

/-- Everything a fetch that goes on can do to the error register. -/
theorem fetchExec_err {s t : State} (hi : s.Inv) (h : fetchExec s = .next t) : t.err = s.err ∨ s.fsm ∈ t.err.sources := by
  rcases fetchExec_eq_next h with ⟨-, rfl⟩ | ⟨c, i, pos, hc, hd, he⟩ | ⟨c, w, p, pos, hc, hd, he⟩
  · exact .inl rfl
  · rcases exec_raises he with hn | hr
    · exact .inl hn.err
    · exact .inr (mem_sources_of_instr hc hd hr.kind)
  · rcases stopFetch_eq_next he with ⟨-, -, rfl⟩ | ⟨rfl, rfl⟩ | ⟨rfl, rfl⟩
    · exact .inr (mem_sources_truncatedInput (busy_of_select_ctx hc))
    · exact .inr (mem_sources_noMatchingCode hc hd)
    · exact .inr (mem_sources_undefinedSymbol hi hc hd)

theorem fetchExec_inv {s t : State} (hi : s.Inv) (h : fetchExec s = .next t) : t.Inv := by
  rcases fetchExec_lands hi h with ⟨-, rfl⟩ | ⟨c, -, ht, -⟩
  · exact hi
  · exact ht

/-- Only between the symbols of a block does a fetch open a back-reference: a length symbol leaves `fsm` alone
(43_block_decoder.md R233). -/
theorem fsm_of_opened {s u : State} (hi : s.Inv) (h : fetchExec s = .next u) (hd : u.distNext = true) :
    s.fsm = .symbol := by
  have hu := ((fetchExec_inv hi h).midElement hd).1
  by_contra hf
  have hs := hi.distNext_false hf
  rcases fetchExec_eq_next h with ⟨-, rfl⟩ | ⟨c, i, pos, -, -, he⟩ | ⟨c, w, p, pos, -, -, he⟩
  · exact hf hu
  · obtain ⟨v, w, x, hshape, h1, h2⟩ := length_of_distNext he hs hd
    cases (exec_of_length hshape h1 h2 _).symm.trans he
    exact hf hu
  · rcases stopFetch_eq_next he with ⟨-, -, rfl⟩ | ⟨-, rfl⟩ | ⟨-, rfl⟩ <;> cases hd

/-- Everything a step that goes on can do to the error register. -/
theorem step_err {s t : State} (hi : s.Inv) (hn : s.err = .none) (h : step s = .next t) :
    t.err = .none ∨ s.fsm ∈ t.err.sources := by
  obtain ⟨u, hu, ⟨-, rfl⟩ | ⟨hd, ht⟩⟩ := step_eq_next h
  · exact hn ▸ fetchExec_err hi hu
  · have hui := fetchExec_inv hi hu
    have huf := (hui.midElement hd).1
    have hun : u.err = .none := hui.errIff.2 (by simp [huf])
    rw [fsm_of_opened hi hu hd, ← huf]
    exact hun ▸ fetchExec_err hui ht

/-- Settles O59: the control states that `ErrKind.sources` lists for each kind are those the statement names. -/
theorem errorKindsHaveTheirCauses : Obligations.ErrorKindsHaveTheirCauses := by
  unfold Obligations.ErrorKindsHaveTheirCauses
  intro s t hi hn h
  have raised : t.err ≠ .none → s.fsm ∈ t.err.sources := (step_err hi hn h).resolve_left
  refine ⟨?_, fun he => ?_, fun he => ?_, fun he => ?_, fun he => ?_, fun he => ?_, fun he => ?_⟩
  · rintro (he | he | he) <;> simpa [he, ErrKind.sources] using raised
  all_goals simpa [he, ErrKind.sources] using raised

/-! ### Raising an error, and leaving `ERROR` (60_exceptions.md R371, R374, R393, R394) -/

/-- `ERROR` takes no step (60_exceptions.md R393). -/
theorem step_of_error {s : State} (hf : s.fsm = .error) : step s = .next s := by
  have hfetch : fetchExec s = .next s := by rw [fetchExec, State.select, hf]
  rw [step_of_fetchExec hfetch, hfetch, ite_self]

/-- Settles O21: the update is that of `State.raise`, and `ERROR` takes no step. -/
theorem raiseEndsTheRun : Obligations.RaiseEndsTheRun := by
  unfold Obligations.RaiseEndsTheRun
  exact fun s e => ⟨rfl, rfl, rfl, rfl, step_of_error (raise_fsm s e)⟩

theorem hostRegAt_eq_ctrl {off : Nat} (h : hostRegAt off = some .ctrl) : off = 0x00 := by
  unfold hostRegAt at h
  split at h <;> cases h
  rfl

/-- A register-window write that has an effect is a 32-bit write to a register's offset. -/
theorem reg_of_hostWrite {off width : Nat} {v : Word} {s t : State} (h : hostWrite off width v s = .next t) :
    t = s ∨ width = 32 ∧ ∃ r, hostRegAt off = some r ∧ t = s.regWrite r v := by
  unfold hostWrite hostWriteAt at h
  split at h
  · next hw =>
    rw [wordAccess, Bool.and_eq_true, beq_iff_eq] at hw
    split at h
    · next r hr => cases h; exact .inr ⟨hw.1, r, hr, rfl⟩
    · split at h <;> cases h
      exact .inl rfl
  · cases h

/-- Of the register writes only START changes the control state or the error register. -/
theorem regWrite_fsm_err (s : State) (r : HostReg) (v : Word) :
    ((s.regWrite r v).fsm = s.fsm ∧ (s.regWrite r v).err = s.err) ∨ r = .ctrl ∧ v.getLsbD 0 = true := by
  cases r with
  | ctrl =>
    rw [regWrite_ctrl]
    split
    · next hc => exact .inr ⟨rfl, (Bool.and_eq_true _ _ ▸ hc).1⟩
    · exact .inl ⟨rfl, rfl⟩
  | inLen => rw [regWrite_inLen]; split <;> exact .inl ⟨rfl, rfl⟩
  | outLimit => rw [regWrite_outLimit]; split <;> exact .inl ⟨rfl, rfl⟩
  | status | outLen | cursor | adlerCalc | adlerRead => exact .inl ⟨rfl, rfl⟩

/-- Every act of the host but START and hardware reset leaves the control state and the error register alone. -/
theorem hostStep_fsm_err {op : HostOp} {s t : State} (h : hostStep op s = .next t) :
    (t.fsm = s.fsm ∧ t.err = s.err) ∨ op = .hardwareReset ∨
      ∃ v, op = .write 0x00 32 v ∧ v.getLsbD 0 = true := by
  cases op with
  | read off width =>
    obtain ⟨p, hp, rfl⟩ := afterRead_eq_next h
    rcases hostRead_eq_next hp with ⟨r, rfl⟩ | rfl
    · obtain ⟨k, hk⟩ := regRead_state s r
      rw [hk]
      exact .inl ⟨rfl, rfl⟩
    · exact .inl ⟨rfl, rfl⟩
  | write off width v =>
    rcases reg_of_hostWrite h with rfl | ⟨rfl, r, hr, rfl⟩
    · exact .inl ⟨rfl, rfl⟩
    · rcases regWrite_fsm_err s r v with hsame | ⟨rfl, hv⟩
      · exact .inl hsame
      · exact .inr (.inr ⟨v, by rw [hostRegAt_eq_ctrl hr], hv⟩)
  | writeIn a b =>
    obtain ⟨-, rfl⟩ := hostWriteIn_eq_next h
    exact .inl ⟨rfl, rfl⟩
  | writeOut a b =>
    obtain ⟨-, rfl⟩ := hostWriteOut_eq_next h
    exact .inl ⟨rfl, rfl⟩
  | readOut a =>
    obtain ⟨p, hp, rfl⟩ := afterRead_eq_next h
    obtain ⟨k, hk⟩ := hostReadOut_state hp
    rw [hk]
    exact .inl ⟨rfl, rfl⟩
  | hardwareReset => exact .inr (.inl rfl)

/-- Settles O50: `ERROR` takes no step, and of the host's acts only START and hardware reset write `fsm` and `err`. -/
theorem errorIsSticky : Obligations.ErrorIsSticky := by
  unfold Obligations.ErrorIsSticky
  refine ⟨fun s => step_of_error, fun op s t hf h => ?_, fun s v hf hv => ?_, fun s => ⟨_, rfl, rfl, rfl⟩⟩
  · exact hf ▸ hostStep_fsm_err h
  · have hb : s.busy = false := by rw [State.busy, hf, Fsm.busy]
    refine ⟨s.start, (hostWrite_of_reg (r := .ctrl) rfl v s).trans ?_, rfl, rfl⟩
    rw [regWrite_ctrl, hv, hb]
    rfl

/-! ### A fetch that fails (60_exceptions.md R375, R380) -/

theorem fetchExec_of_stop {s : State} {c : Ctx} {w : Stop} {p : Part} {pos : Nat} (hs : s.select = .ctx c)
    (hd : decode c s.bitOffset s.window = .stop w p pos) : fetchExec s = stopFetch w p pos s := by
  simp only [fetchExec, hs, hd]

theorem applyPart_pc (s : State) (p : Part) : (s.applyPart p).pc = s.pc := by
  cases p <;> rfl

/-- Settles O48: no byte of a written input is missing from the view, so the stopped fetch raises its error, and an error
leaves no back-reference open. -/
theorem failedFetchRaises : Obligations.FailedFetchRaises := by
  unfold Obligations.FailedFetchRaises
  intro s c why e p pos hc hw hd hwhy
  have hfetch : fetchExec s = .next (State.raise ((s.seek pos).applyPart p) e) := by
    rw [fetchExec_of_stop hc hd]
    rcases hwhy with ⟨rfl, rfl⟩ | ⟨rfl, rfl⟩
    · rw [stopFetch, windowCut_false hw]
      rfl
    · rfl
  refine ⟨hfetch, ?_, ?_, fun r hr hopen => ?_⟩
  · rw [step_of_fetchExec hfetch, raise_distNext]
    rfl
  · rw [raise_pc, applyPart_pc, seek_pc, State.byteOffset]
  · rw [step_of_fetchExec hr, if_pos hopen, hfetch]

end Sys2Proof.Machine

/-! ### How far a run can go

What an element takes from the stream (70_reset_and_hazards.md R414), and the bound on a run that follows (R415). -/

namespace Sys2Proof

theorem Ctx.one_le_minBits (c : Ctx) : 1 ≤ c.minBits := by cases c <;> simp [Ctx.minBits]

/-- No element leads back to `IDLE` (10_state.md R40). -/
theorem Ctx.idle_notMem_succs (c : Ctx) : .idle ∉ c.succs := by cases c <;> simp [Ctx.succs]

namespace Machine

theorem fetchExec_of_not_busy {s : State} (hb : s.busy = false) : fetchExec s = .next s := by
  rcases select_cases s with ⟨hq, -⟩ | ⟨-, h⟩ | ⟨_, -, h⟩
  · rw [fetchExec, hq]
  · cases hb.symm.trans h
  · cases hb.symm.trans h

/-- A fetch after which the run goes on moves the cursor over the bits its context needs at least. -/
theorem fetchExec_consumes {s t : State} {c : Ctx} (hc : s.select = .ctx c) (h : fetchExec s = .next t)
    (hb : t.busy = true) : s.pc + c.minBits ≤ t.pc := by
  rcases fetchExec_eq_next h with ⟨hq, -⟩ | ⟨c', i, pos, hc', hd, he⟩ | ⟨c', w, p, pos, -, -, he⟩
  · cases hq.symm.trans hc
  · cases hc'.symm.trans hc
    have hin := decode_inside c s.bitOffset s.window
    rw [hd] at hin
    calc s.pc + c.minBits
        = 8 * s.byteOffset + (s.bitOffset + c.minBits) := by
          simp only [State.byteOffset, State.bitOffset]
          omega
      _ ≤ (s.seek pos).pc := Nat.add_le_add_left hin.1 _
      _ ≤ t.pc := (exec_steady he).pc
  · rcases stopFetch_eq_next he with ⟨-, -, rfl⟩ | ⟨-, rfl⟩ | ⟨-, rfl⟩ <;> cases hb

/-- A step after which the run goes on moves the cursor over the bits of its first instruction at least; a distance symbol
after it only adds to them. -/
theorem step_consumes {s t : State} {c : Ctx} (hc : s.select = .ctx c) (h : step s = .next t) (hb : t.busy = true) :
    s.pc + c.minBits ≤ t.pc := by
  obtain ⟨u, hu, ⟨-, rfl⟩ | ⟨-, ht⟩⟩ := step_eq_next h
  · exact fetchExec_consumes hc hu hb
  · have hub : u.busy = true := by
      by_contra hn
      cases (fetchExec_of_not_busy (eq_false_of_ne_true hn)).symm.trans ht
      exact hn hb
    exact (fetchExec_consumes hc hu hub).trans (fetchExec_steady ht).pc

/-- A busy state that meets the invariant selects an instruction. -/
theorem State.Inv.exists_ctx {s : State} (h : s.Inv) (hb : s.busy = true) : ∃ c, s.select = .ctx c := by
  rcases select_cases s with ⟨-, hn⟩ | ⟨hn, -⟩ | ⟨c, hc, -⟩
  · cases hn.symm.trans hb
  · exact absurd hn h.select_ne_noTable
  · exact ⟨c, hc⟩

/-- Settles O55: the context that the control state selects says how many bits are consumed. -/
theorem everyStepConsumesBits : Obligations.EveryStepConsumesBits := by
  unfold Obligations.EveryStepConsumesBits
  intro s t hi hb h htb
  obtain ⟨c, hc⟩ := hi.exists_ctx hb
  have hpc := step_consumes hc h htb
  have hsel := select_eq_ctx hc
  have htrailer : s.fsm ≠ .trailer := by
    intro hf
    obtain ⟨-, -, -, -, -, -, hlast, -⟩ := controlStateTransitions s t hi h
    rcases hlast hf with hf | hf <;> simp [State.busy, hf, Fsm.busy] at htb
  cases c <;> simp_all [Ctx.minBits]

/-- A run that is over after a step has ended in `DONE` or `ERROR`. -/
theorem ended_of_not_busy {s t : State} (hi : s.Inv) (hb : s.busy = true) (h : step s = .next t) (ht : t.busy = false) :
    t.fsm = .done ∨ t.fsm = .error := by
  rcases step_lands hi h with ⟨hn, -⟩ | ⟨c, -, -, hm⟩
  · cases hn.symm.trans hb
  · by_contra hn
    have hidle : t.fsm ≠ .idle := fun hf => c.idle_notMem_succs (hf ▸ hm)
    cases ht.symm.trans (busy_iff.2 ⟨hidle, not_or.1 hn⟩)

theorem endsWithin_of_ended {s : State} (h : s.fsm = .done ∨ s.fsm = .error) (k : Nat) : s.EndsWithin k :=
  ⟨0, s, Nat.zero_le k, rfl, h⟩

theorem State.EndsWithin.mono {s : State} {k k' : Nat} (h : s.EndsWithin k) (hk : k ≤ k') : s.EndsWithin k' :=
  let ⟨j, t, hj, ht⟩ := h
  ⟨j, t, hj.trans hk, ht⟩

/-- A step that goes on leaves one step less to run. -/
theorem run_succ_of_next {M : Host.Core} {s t : M.State} (h : M.step s = .next t) (k : Nat) :
    M.run (k + 1) s = M.run k t := by
  rw [Host.Core.run, h]

theorem endsWithin_succ {s t : State} {k : Nat} (hs : step s = .next t) (h : t.EndsWithin k) : s.EndsWithin (k + 1) :=
  let ⟨j, u, hj, hrun, hu⟩ := h
  ⟨j + 1, u, Nat.succ_le_succ hj, (run_succ_of_next (M := Sys2Proof.core) hs j).trans hrun, hu⟩

/-- A run over a written input ends within one step more than bits remain: each step but the last consumes one of them. -/
theorem endsWithin_remaining_bits (s : State) (hi : s.Inv) (hw : s.InputWritten) (hb : s.busy = true) :
    s.EndsWithin (8 * s.endOffset - s.pc + 1) := by
  induction hk : 8 * s.endOffset - s.pc using Nat.strong_induction_on generalizing s with
  | _ k ih =>
    obtain ⟨t, ht⟩ := (step_goesOn s).exists_next ⟨hi, hw⟩
    refine endsWithin_succ ht ?_
    by_cases htb : t.busy = true
    · have hti := stepKeepsTheInvariant s t hi ht
      have hsteady := step_steady ht
      have hend := hsteady.endOffset
      have htw : t.InputWritten := by rwa [State.InputWritten, hsteady.inMem, hend]
      obtain ⟨c, hc⟩ := hi.exists_ctx hb
      have hpc := (Nat.add_le_add_left c.one_le_minBits s.pc).trans (step_consumes hc ht htb)
      have hcur := hti.cursor
      exact (ih (8 * t.endOffset - t.pc) (by omega) t hti htw htb rfl).mono (by omega)
    · exact endsWithin_of_ended (ended_of_not_busy hi hb ht (eq_false_of_ne_true htb)) k

/-- Settles O56: during a run `end_offset` is IN_LEN, so at most `8 * IN_LEN` bits remain. -/
theorem runEndsWithinItsBound : Obligations.RunEndsWithinItsBound := by
  unfold Obligations.RunEndsWithinItsBound
  intro s hi hw hb
  rw [← hi.endIsLen hb]
  exact (endsWithin_remaining_bits s hi hw hb).mono (by omega)

end Machine

end Sys2Proof

/-! ### The view and the whole input (70_reset_and_hazards.md R411)

The first `m` bytes of an input decode like all of it, as long as every bit that the decoder may look at is among them. -/

namespace Sys2Proof

/-- The cursor with the first `m` bytes in view. -/
def Cursor.view (m : Nat) (c : Cursor) : Cursor := { c with bytes := c.bytes.take m }

@[simp] theorem Cursor.view_pos (m : Nat) (c : Cursor) : (c.view m).pos = c.pos := rfl

@[simp] theorem Cursor.length_view (m : Nat) (c : Cursor) : (c.view m).bytes.length = min m c.bytes.length :=
  List.length_take

theorem streamBit_take (bytes : List Byte) {m k : Nat} (h : k < 8 * m) :
    streamBit (bytes.take m) k = streamBit bytes k := by
  have hk : k / 8 < m := by omega
  simp [streamBit, hk]

/-- A read that ends inside the view answers what it answers of the whole input. -/
theorem readBits_view {n m : Nat} {c : Cursor} (hn : n ≤ 32) (h : c.pos + n ≤ 8 * m) :
    (c.view m).readBits n = (c.readBits n).map fun r => (r.1, r.2.view m) := by
  by_cases hl : c.pos + n ≤ 8 * c.bytes.length
  · have hfield : fieldNat (c.view m).bytes c.pos n = fieldNat c.bytes c.pos n :=
      fieldNat_congr fun i hi => streamBit_take c.bytes (by omega)
    rw [readBits_ok hn hl, readBits_ok hn (by rw [Cursor.length_view, Cursor.view_pos]; omega), Cursor.view_pos, hfield]
    rfl
  · rw [readBits_truncated hn (Nat.lt_of_not_le hl),
      readBits_truncated hn (by rw [Cursor.length_view, Cursor.view_pos]; omega)]
    rfl

/-- A field read that ends inside the view, and goes on alike, is alike. -/
theorem withBits_view {n m : Nat} {c : Cursor} {part : Part} {k : BitVec n → Cursor → Decoded} (hn : n ≤ 32)
    (h : c.pos + n ≤ 8 * m) (hk : ∀ v, k v (Cursor.view m { c with pos := c.pos + n }) = k v { c with pos := c.pos + n }) :
    withBits n (c.view m) part k = withBits n c part k := by
  rw [withBits, withBits, readBits_view hn h]
  cases hr : c.readBits n with
  | ok r =>
    obtain ⟨v, c'⟩ := r
    obtain ⟨-, -, -, rfl⟩ := readBits_eq_ok hr
    exact hk v
  | error why => rfl

/-- What decoding one symbol answers, with the first `m` bytes in view. -/
def Decoding.view (m : Nat) : Decoding → Decoding
  | .sym v c => .sym v (c.view m)
  | .stop why c => .stop why (c.view m)

theorem decodeLoop_view (t : Table) {m fuel : Nat} (len acc : Nat) {c : Cursor} (h : c.pos + fuel ≤ 8 * m) :
    t.decodeLoop fuel len acc (c.view m) = (t.decodeLoop fuel len acc c).view m := by
  induction fuel generalizing len acc c with
  | zero => rfl
  | succ fuel ih =>
    rw [Table.decodeLoop, Table.decodeLoop, Cursor.readBit, Cursor.readBit, readBits_view (by decide) (by omega)]
    cases hr : c.readBits 1 with
    | error why => rfl
    | ok r =>
      obtain ⟨b, c'⟩ := r
      obtain ⟨-, -, -, rfl⟩ := readBits_eq_ok hr
      simp only [Except.map]
      split
      · split <;> rfl
      · exact ih _ _ (by simp only; omega)

/-- A symbol read whose longest code ends inside the view, and goes on alike, is alike. -/
theorem withSymbol_view {t : Table} {m : Nat} {c : Cursor} {k : Nat → Cursor → Decoded} (h : c.pos + t.lmax ≤ 8 * m)
    (hk : ∀ v l, l ≤ t.lmax → k v (Cursor.view m { c with pos := c.pos + l }) = k v { c with pos := c.pos + l }) :
    withSymbol t (c.view m) k = withSymbol t c k := by
  rw [withSymbol, withSymbol, Table.decode, decodeLoop_view t 1 0 h, ← Table.decode]
  rcases t.decode_cases c with ⟨l, v, -, hl, -, hd⟩ | ⟨l, -, -, -, -, hd⟩ | ⟨l, -, -, hd⟩ <;> rw [hd]
  · exact hk v l hl
  · rfl
  · rfl

/-- No extra field is wider than 13 bits. -/
theorem operand_view (cls : SymClass) (first : Bool) (v : Nat) {m : Nat} {c : Cursor} (h : c.pos + 13 ≤ 8 * m) :
    Laws.OperandRoundTrip.operand cls first v (c.view m) = Laws.OperandRoundTrip.operand cls first v c := by
  have extra {n : Nat} (mk : BitVec n → Instr) (hn : n ≤ 13) :
      (withBits n (c.view m) .nothing fun x c => .instr (mk x) c.pos) =
        withBits n c .nothing fun x c => .instr (mk x) c.pos :=
    withBits_view (by omega) (by omega) fun _ => rfl
  cases cls with
  | cl =>
    simp only [Laws.OperandRoundTrip.operand, decodeClOperand, Cursor.view_pos, extra, Nat.reduceLeDiff]
  | litLen =>
    simp only [Laws.OperandRoundTrip.operand, decodeLitLenOperand, Cursor.view_pos, extra, Nat.reduceLeDiff]
  | dist =>
    simp only [Laws.OperandRoundTrip.operand, decodeDistOperand, Cursor.view_pos, extra, Nat.reduceLeDiff]

theorem cllens_view (x y : BitVec 5) (z : BitVec 4) {m k : Nat} (got : List (BitVec 3)) {c : Cursor}
    (h : c.pos + 3 * k ≤ 8 * m) : decodeCllens x y z k got (c.view m) = decodeCllens x y z k got c := by
  induction k generalizing got c with
  | zero => rfl
  | succ k ih => exact withBits_view (by decide) (by omega) fun v => ih _ (by simp only; omega)

theorem lmax_le_of_built {t : Table} {k : Nat} (ht : t.BuiltFrom k) : t.lmax ≤ 15 := by
  obtain ⟨lens, -, -, hb⟩ := ht
  obtain ⟨rfl, -⟩ := build_eq_some hb
  exact lmax_ofLens_le lens

/-- A symbol with its extra field takes at most 28 bits. -/
theorem decode_coded_view {ctx : Ctx} {cls : SymClass} {t : Table} {first : Bool}
    (hc : ctx.coded? = some (cls, t, first)) (ht : ctx.TableBuilt) {m off : Nat} (h : off + 28 ≤ 8 * m)
    (bytes : List Byte) : decode ctx off (bytes.take m) = decode ctx off bytes := by
  have hmax : t.lmax ≤ 15 := lmax_le_of_built (ht t (table_of_coded hc))
  rw [decode_of_coded hc, decode_of_coded hc]
  exact withSymbol_view (c := ⟨bytes, off⟩) (by simp only; omega) fun v l hl =>
    operand_view cls first v (by simp only; omega)

/-- An instruction that starts in the first byte ends within ten bytes: the longest is a dynamic header, at most 14 + 57
bits after the at most 7 before it (30_encoding.md R104). -/
theorem decode_take_ten {ctx : Ctx} (ht : ctx.TableBuilt) {off : Nat} (hoff : off < 8) (bytes : List Byte) :
    decode ctx off (bytes.take 10) = decode ctx off bytes := by
  have hal := alignUp_le (p := off) (n := 1) (by omega)
  cases ctx with
  | env =>
    have hlen : Cursor.remainingBytes ⟨bytes.take 10, off⟩ < 2 ↔ Cursor.remainingBytes ⟨bytes, off⟩ < 2 := by
      simp only [Cursor.remainingBytes, List.length_take]
      omega
    simp only [decode, decodeEnv, hlen]
    congr 1
    exact withBits_view (c := ⟨bytes, off⟩) (by decide) (by simp only; omega) fun _ =>
      withBits_view (by decide) (by simp only; omega) fun _ => rfl
  | blkHdr =>
    exact withBits_view (c := ⟨bytes, off⟩) (by decide) (by simp only; omega) fun _ =>
      withBits_view (by decide) (by simp only; omega) fun _ => rfl
  | stored =>
    exact withBits_view (c := ⟨bytes, alignUp off⟩) (by decide) (by simp only; omega) fun _ =>
      withBits_view (by decide) (by simp only; omega) fun _ => rfl
  | dynHdr =>
    exact withBits_view (c := ⟨bytes, off⟩) (by decide) (by simp only; omega) fun _ =>
      withBits_view (by decide) (by simp only; omega) fun _ =>
        withBits_view (by decide) (by simp only; omega) fun hclen =>
          cllens_view _ _ _ _ (by have := hclen.isLt; simp only; omega)
  | clSym t first => exact decode_coded_view (cls := .cl) rfl ht (by omega) bytes
  | litLen t => exact decode_coded_view (cls := .litLen) rfl ht (by omega) bytes
  | dist t => exact decode_coded_view (cls := .dist) rfl ht (by omega) bytes
  | trailer =>
    exact withBits_view (c := ⟨bytes, alignUp off⟩) (by decide) (by simp only; omega) fun _ =>
      withBits_view (by decide) (by simp only; omega) fun _ =>
        withBits_view (by decide) (by simp only; omega) fun _ =>
          withBits_view (by decide) (by simp only; omega) fun _ => rfl

namespace Machine

theorem readRun_min (m : Memory) (a j k : Nat) : Memory.readRun m a (min j k) = (Memory.readRun m a k).take j := by
  induction k generalizing a j with
  | zero => simp [Memory.readRun]
  | succ k ih =>
    cases j with
    | zero => simp [Memory.readRun]
    | succ j =>
      rw [Nat.succ_min_succ, Memory.readRun, Memory.readRun]
      split
      · rfl
      · rw [ih, List.take_succ_cons]

theorem window_eq_take (s : State) :
    s.window = (Memory.readRun s.inMem s.byteOffset s.remainingBytes).take 10 :=
  readRun_min s.inMem s.byteOffset 10 s.remainingBytes

/-- Settles O13: the view is the first ten bytes of what remains, written or not, and its first bit is in the first of
them. -/
theorem windowDecodesLikeTheInput : Obligations.WindowDecodesLikeTheInput := by
  unfold Obligations.WindowDecodesLikeTheInput
  refine ⟨fun s => (window_length_le s).trans (windowSize_le s), fun s ctx _ _ ht => ?_⟩
  rw [window_eq_take]
  exact decode_take_ten ht (Nat.mod_lt s.pc (by decide)) _

end Machine

end Sys2Proof

/-! ### The boot order (70_reset_and_hazards.md R404) -/

namespace Sys2Proof.Machine

theorem hostSteps_append {ops ops' : List HostOp} {s t : State} (h : hostSteps ops s = .next t) :
    hostSteps (ops ++ ops') s = hostSteps ops' t := by
  induction ops generalizing s with
  | nil => cases h; rfl
  | cons op ops ih =>
    obtain ⟨u, hu, hrest⟩ := andThen_eq_next h
    rw [List.cons_append, hostSteps, hu]
    exact ih hrest

theorem hostStep_writeIn {s : State} (hb : s.busy = false) {a : Nat} (ha : a < 2 ^ 32) (b : Byte) :
    hostStep (.writeIn a b) s = .next { s with inMem := Memory.write s.inMem a b } := by
  have hs : spaceOffset a = true := decide_eq_true ha
  simp [hostStep, hostWriteIn, hs, hb]

/-- Step 1 of the boot order: while no run is in progress, bytes below the 32-bit offsets are written one after another. -/
theorem hostSteps_writeInOps {s : State} (hb : s.busy = false) {a : Nat} {bs : List Byte} (ha : a + bs.length ≤ 2 ^ 32) :
    hostSteps (writeInOps a bs) s = .next { s with inMem := Memory.writeAll s.inMem a bs } := by
  induction bs generalizing a s with
  | nil => rfl
  | cons b bs ih =>
    rw [List.length_cons] at ha
    rw [writeInOps, hostSteps, hostStep_writeIn hb (by omega)]
    exact ih (s := { s with inMem := Memory.write s.inMem a b }) hb (by omega)

theorem hostWrite_start {s : State} (hb : s.busy = false) : hostWrite 0x00 32 1 s = .next s.start := by
  rw [hostWrite_of_reg (r := .ctrl) rfl, regWrite_ctrl, hb]
  rfl

/-- Steps 2 and 4 of the boot order: the parameters, then START. -/
theorem hostSteps_parameters_start {s : State} (hb : s.busy = false) (len limit : Word) :
    hostSteps [.write 0x08 32 len, .write 0x0C 32 limit, .write 0x00 32 1] s =
      .next (State.start { s with inLen := len, outLimit := limit }) := by
  obtain ⟨-, hset, -⟩ := hostParameterRegisters
  obtain ⟨hlen, -⟩ := hset s len hb
  obtain ⟨-, hlimit⟩ := hset { s with inLen := len } limit hb
  have hstart := hostWrite_start (s := { s with inLen := len, outLimit := limit }) hb
  simp only [hostSteps, hostStep, hlen, hlimit, hstart, andThen]

/-- The boot order as a whole, while no run is in progress. -/
theorem hostSteps_bootOps {s : State} (hb : s.busy = false) {input : List Byte} (hlen : input.length ≤ 2 ^ 32)
    (limit : Word) : hostSteps (bootOps input limit) s = .next (State.start
      { s with inMem := Memory.writeAll s.inMem 0 input, inLen := BitVec.ofNat 32 input.length, outLimit := limit }) := by
  have hwrite := hostSteps_writeInOps hb (a := 0) (bs := input) ((Nat.zero_add _).trans_le hlen)
  rw [bootOps, hostSteps_append hwrite]
  exact hostSteps_parameters_start (s := { s with inMem := Memory.writeAll s.inMem 0 input }) hb _ limit

/-- Settles O20: the input is written below IN_LEN, and START leaves it there. -/
theorem bootStartsTheRun : Obligations.BootStartsTheRun := by
  unfold Obligations.BootStartsTheRun
  intro s input limit hb hlen
  have hread (a : Nat) (ha : a < input.length) : Memory.read (Memory.writeAll s.inMem 0 input) a = input[a]? := by
    rw [read_writeAll, if_pos (by omega), Nat.sub_zero]
  have hinLen : (BitVec.ofNat 32 input.length).toNat = input.length := by
    rw [BitVec.toNat_ofNat, Nat.mod_eq_of_lt hlen]
  refine ⟨_, hostSteps_bootOps hb hlen.le limit, start_fsm _, start_pc _, (start_endOffset _).trans hinLen, hinLen,
    start_outLimit _, start_outLen _, start_err _, hread, fun a ha => ?_⟩
  rw [start_endOffset, hinLen] at ha
  rw [start_inMem, hread a ha, List.getElem?_eq_getElem ha, Option.isSome_some]

end Sys2Proof.Machine
